-- ==== Sys2Proof/Word.lean ====
section
/-!
DEFINITION. The words of the block: 32-bit port words, bytes of a word, and bit strings.
-/

namespace Sys2Proof

/-- A host-port word, a host byte address, a register, a command word (00 R13). -/
abbrev Word := BitVec 32

/-- One byte of a word. -/
abbrev Byte := BitVec 8

/-- A BitString: "ordered sequence of bits; length is an explicit, load-bearing attribute"
(00 R14, R17). The head of the list is position 0, the first bit produced or consumed. -/
abbrev BitString := List Bool

end Sys2Proof
end

