-- ==== Sys2Proof/Config.lean ====
section
/-!
DEFINITION. What an implementation fixes (the three build parameters of 00 R9 to R11) and the free
values: the opaque constants that stand for what the spec leaves open.
-/

namespace Sys2Proof

/-- The colour channel whose least-significant bit the extractor taps, `P_CHANNEL` (00 R9). -/
inductive Channel where
  | red | green | blue | alpha
deriving DecidableEq, Repr

/-- How a trailing partial nibble becomes a hex digit, `P_PARTIAL_NIBBLE` (00 R10, 40 R191). -/
inductive PartialNibble where
  | numeral | padRight
deriving DecidableEq, Repr

/-- The build parameters (00 R9 to R11). They are constants of a build: a step never changes them
(log 1). -/
structure Config where
  /-- `P_CHANNEL` (00 R9). -/
  channel : Channel
  /-- `P_PARTIAL_NIBBLE` (00 R10). -/
  partialNibble : PartialNibble
  /-- `P_MAXPIX`: pixels of each pixel memory, bits of each buffer (00 R11). -/
  maxpix : Nat
deriving DecidableEq, Repr

/-- `P_MAXWIN = P_MAXPIX div 20000` (00 R11, 10 R40). -/
def Config.maxwin (c : Config) : Nat := c.maxpix / 20000

/-- The reference build: `P_CHANNEL` = 0 (00 R9) and `P_MAXPIX` = 65,536 (00 R11), the spec's
reference values; `P_PARTIAL_NIBBLE` is OPEN in the spec, and NUMERAL is this build's
(DESIGN CHOICE, unsafe for a claim about `State.reset` alone: log 1). -/
def Config.reference : Config :=
  { channel := .red, partialNibble := .numeral, maxpix := 65536 }

/-- FREE VALUE (log 6): what a bit of memory that nothing has written since reset holds, as the byte
of draw `draw` at host address `addr` (10 R57: "any value", 93 I6: one draw, stable until written). -/
opaque Config.unwrittenByte (draw addr : Nat) : Byte

/-- FREE VALUE (log 8): the word of draw `draw` that a host read of an engine-owned location returns
while BUSY = 1 (20 R112, 93 I7). -/
opaque Config.busyWord (draw : Nat) : Word

/-- FREE VALUE (log 9): which of the six stages CHECK to VALIDATE of a running PIPELINE the read of
draw `draw` shows (10 R38, 93 I8). -/
opaque Config.busyStage (draw : Nat) : Fin 6

/-- FREE VALUE (log 10): the word that a window record without a meaning shows at host address
`addr`, as of draw `draw`, where a VALIDATE has written since reset (10 R52, 93 I9). -/
opaque Config.staleWord (draw addr : Nat) : Word

end Sys2Proof
end

