-- ==== Sys2Proof/Syntax.lean ====
section
/-!
DEFINITION. The syntax: the seven commands of spec/opcode_table.json, the raw fields of the command
format C, the host's accesses and operations, and the turns of the one total order.
-/

namespace Sys2Proof

/-- The four buffers, ids 0 to 3 in the source's order (00 R18, 30 R151). -/
inductive BufId where
  /-- id 0, raw-A -/
  | rawA
  /-- id 1, raw-B -/
  | rawB
  /-- id 2, XORed -/
  | xored
  /-- id 3, extracted -/
  | extracted
deriving DecidableEq, Repr

/-- The image select of EXTRACT: 0 is image A, 1 is image B (30 R151). -/
inductive Image where
  | imageA | imageB
deriving DecidableEq, Repr

/-- The commands, one constructor per row of the opcode map (30 R153); the operands stand in the
order RA, RB, RD of the format. -/
inductive Instr where
  /-- do nothing and complete (45 R327) -/
  | nop
  /-- pixel memory `m` to raw bitstream in buffer `d` (41 R211) -/
  | extract (m : Image) (d : BufId)
  /-- exclusive-or of buffers `a` and `b` into `d` (42 R230) -/
  | xor (a b d : BufId)
  /-- Von Neumann extraction of buffer `a` into `d` (43 R250) -/
  | debias (a d : BufId)
  /-- the FIPS-140-2 battery over buffer `a` (44 R285) -/
  | validate (a : BufId)
  /-- the whole data flow and the report (45 R323) -/
  | pipeline
  /-- empty every stream and every result (45 R328) -/
  | clear
deriving DecidableEq, Repr

/-- The fields of a command word, reserved ones included (30 R150). -/
structure Command where
  /-- bits [7:0] -/
  op : BitVec 8
  /-- bits [9:8] -/
  ra : BitVec 2
  /-- bits [11:10], reserved -/
  rsv11 : BitVec 2
  /-- bits [13:12] -/
  rb : BitVec 2
  /-- bits [15:14], reserved -/
  rsv15 : BitVec 2
  /-- bits [17:16] -/
  rd : BitVec 2
  /-- bits [31:18], reserved -/
  rsv31 : BitVec 14
deriving DecidableEq, Repr

/-- The width of a host access: 1, 2, 4 or 8 bytes (20 R105). -/
inductive Width where
  | byte | half | word | double
deriving DecidableEq, Repr

/-- One host-port access: the triple `(we, addr, wdata)` of 30 R159 and its width (20 R105; log 20).
`wdata` is ignored by a read. -/
structure Access where
  we : Bool
  width : Width
  addr : Word
  wdata : Word
deriving DecidableEq, Repr

/-- One operation of the host's program (30 R158): a single access, or the `POLL` loop, which
repeats `RD addr` until `(x & mask) = val` (log 4). -/
inductive HostOp where
  | access (a : Access)
  | poll (addr mask val : Word)
deriving DecidableEq, Repr

/-- Who performs the next event of the one total order of host accesses and engine steps (20 R113),
or the reset input (70 R400). -/
inductive Turn where
  | host | engine | reset
deriving DecidableEq, Repr

end Sys2Proof
end

