-- ==== Sys2Proof/WellFormed.lean ====
section
/-!
DEFINITION. Well-formedness: of a build's parameters (00 R11), of the raw fields of a command word
(30 R154) and of an instruction's operands (30 R151).
-/

namespace Sys2Proof

/-- The constraints on `P_MAXPIX` (00 R11): at least 40,000, at most 2^24, a multiple of 32. -/
def Config.wf (c : Config) : Bool :=
  decide (40000 ≤ c.maxpix) && decide (c.maxpix ≤ 2 ^ 24) && decide (c.maxpix % 32 = 0)

/-- OP is one of 0x00 to 0x06 (30 R154). -/
def Command.opcodeDefined (c : Command) : Bool := decide (c.op.toNat ≤ 6)

/-- Every reserved bit is 0 (30 R154). -/
def Command.reservedClear (c : Command) : Bool :=
  c.rsv11 == 0 && c.rsv15 == 0 && c.rsv31 == 0

/-- Every operand field the command does not use is 0 (30 R154). An undefined opcode uses every
field: `opcodeDefined` is the check that refuses it. -/
def Command.unusedClear (c : Command) : Bool :=
  match c.op.toNat with
  | 0 => c.ra == 0 && c.rb == 0 && c.rd == 0
  | 1 => !c.ra.getLsbD 1 && c.rb == 0
  | 2 => true
  | 3 => c.rb == 0
  | 4 => c.rb == 0 && c.rd == 0
  | 5 => c.ra == 0 && c.rb == 0 && c.rd == 0
  | 6 => c.ra == 0 && c.rb == 0 && c.rd == 0
  | _ => true

/-- A legal command, field by field (30 R154). -/
def Command.legal (c : Command) : Bool :=
  c.opcodeDefined && c.reservedClear && c.unusedClear

/-- A buffer id is one of the four values of a 2-bit field (30 R151). -/
def BufId.wf : BufId → Bool
  | .rawA => true
  | .rawB => true
  | .xored => true
  | .extracted => true

/-- An image select is one of the two values of a 1-bit field (30 R151). -/
def Image.wf : Image → Bool
  | .imageA => true
  | .imageB => true

/-- An instruction is well-formed when its operands are. "Every 2-bit value is a valid buffer id"
(30 R151), and the operand types hold just these values, so every instruction is. -/
def Instr.wf : Instr → Bool
  | .nop => true
  | .extract m d => m.wf && d.wf
  | .xor a b d => a.wf && b.wf && d.wf
  | .debias a d => a.wf && d.wf
  | .validate a => a.wf
  | .pipeline => true
  | .clear => true

end Sys2Proof
end

