-- ==== Sys2Proof/Decode.lean ====
section
/-!
DEFINITION. The command format C (30 R150): decoding a command word, total and rejecting by name;
the opcode table of match and mask (30 R155); and the encoder (30 R156), written from the spec's
assembling rule and not from the decoder.
-/

namespace Sys2Proof

/-- Why a word is no legal command (30 R154). All of them raise IllegalCommand (60 R376). -/
inductive DecodeError where
  /-- a bit of [11:10], [15:14] or [31:18] is set -/
  | reservedBit
  /-- OP is one of 0x07 to 0xFF -/
  | reservedOpcode
  /-- an operand field the command does not use is not 0 -/
  | unusedOperand
deriving DecidableEq, Repr

/-- The fields of a command word (30 R150). -/
def Command.ofWord (w : Word) : Command :=
  { op := w.extractLsb' 0 8
    ra := w.extractLsb' 8 2
    rsv11 := w.extractLsb' 10 2
    rb := w.extractLsb' 12 2
    rsv15 := w.extractLsb' 14 2
    rd := w.extractLsb' 16 2
    rsv31 := w.extractLsb' 18 14 }

/-- The buffer id of a 2-bit field (30 R151). -/
def BufId.ofField (f : BitVec 2) : BufId :=
  match f.toNat with
  | 0 => .rawA
  | 1 => .rawB
  | 2 => .xored
  | _ => .extracted

/-- The 2-bit field of a buffer id (30 R151). -/
def BufId.field : BufId → BitVec 2
  | .rawA => 0
  | .rawB => 1
  | .xored => 2
  | .extracted => 3

/-- The image selected by `RA[0]` (30 R151). -/
def Image.ofField (f : BitVec 2) : Image := if f.getLsbD 0 then .imageB else .imageA

/-- The RA field of an image select: `RA = m` (30 R156). -/
def Image.field : Image → BitVec 2
  | .imageA => 0
  | .imageB => 1

/-- The instruction of fields whose reserved bits are 0 (30 R153, R154). -/
def Command.decode (c : Command) : Except DecodeError Instr :=
  match c.op.toNat with
  | 0 => if c.ra = 0 ∧ c.rb = 0 ∧ c.rd = 0 then .ok .nop else .error .unusedOperand
  | 1 =>
    if c.ra.getLsbD 1 = false ∧ c.rb = 0 then .ok (.extract (.ofField c.ra) (.ofField c.rd))
    else .error .unusedOperand
  | 2 => .ok (.xor (.ofField c.ra) (.ofField c.rb) (.ofField c.rd))
  | 3 =>
    if c.rb = 0 then .ok (.debias (.ofField c.ra) (.ofField c.rd)) else .error .unusedOperand
  | 4 =>
    if c.rb = 0 ∧ c.rd = 0 then .ok (.validate (.ofField c.ra)) else .error .unusedOperand
  | 5 => if c.ra = 0 ∧ c.rb = 0 ∧ c.rd = 0 then .ok .pipeline else .error .unusedOperand
  | 6 => if c.ra = 0 ∧ c.rb = 0 ∧ c.rd = 0 then .ok .clear else .error .unusedOperand
  | _ => .error .reservedOpcode

/-- Decoding a command word: total, and strict (30 R154: no word outside the table executes). -/
def decode (w : Word) : Except DecodeError Instr :=
  let c := Command.ofWord w
  if c.rsv11 = 0 ∧ c.rsv15 = 0 ∧ c.rsv31 = 0 then c.decode else .error .reservedBit

/-- A legal command word: one the decoder accepts (30 R154). -/
def legal (w : Word) : Bool :=
  match decode w with
  | .ok _ => true
  | .error _ => false

/-- Assembling a command word: `zext_32(OP) | (RA << 8) | (RB << 12) | (RD << 16)` (30 R156). -/
def assemble (op : BitVec 8) (ra rb rd : BitVec 2) : Word :=
  op.setWidth 32 ||| (ra.setWidth 32 <<< 8) ||| (rb.setWidth 32 <<< 12) |||
    (rd.setWidth 32 <<< 16)

/-- The opcode (30 R153). -/
def Instr.opcode : Instr → BitVec 8
  | .nop => 0x00
  | .extract _ _ => 0x01
  | .xor _ _ _ => 0x02
  | .debias _ _ => 0x03
  | .validate _ => 0x04
  | .pipeline => 0x05
  | .clear => 0x06

/-- The command word of an instruction (30 R153, R156). -/
def encode : Instr → Word
  | .nop => assemble 0x00 0 0 0
  | .extract m d => assemble 0x01 m.field 0 d.field
  | .xor a b d => assemble 0x02 a.field b.field d.field
  | .debias a d => assemble 0x03 a.field 0 d.field
  | .validate a => assemble 0x04 a.field 0 0
  | .pipeline => assemble 0x05 0 0 0
  | .clear => assemble 0x06 0 0 0

/-- One row of the pattern table (30 R155): a word is the row's iff `(w & mask) = match`. -/
structure OpcodeRow where
  mnemonic : String
  pattern : Word
  mask : Word
deriving DecidableEq, Repr

/-- The pattern table, in the spec's order (30 R155). -/
def opcodeRows : List OpcodeRow :=
  [ ⟨"NOP", 0x00000000, 0xFFFFFFFF⟩,
    ⟨"EXTRACT", 0x00000001, 0xFFFCFEFF⟩,
    ⟨"XOR", 0x00000002, 0xFFFCCCFF⟩,
    ⟨"DEBIAS", 0x00000003, 0xFFFCFCFF⟩,
    ⟨"VALIDATE", 0x00000004, 0xFFFFFCFF⟩,
    ⟨"PIPELINE", 0x00000005, 0xFFFFFFFF⟩,
    ⟨"CLEAR", 0x00000006, 0xFFFFFFFF⟩ ]

/-- The word is one of the row's: `(w & mask) = match` (30 R154, R155). -/
def OpcodeRow.matchesWord (r : OpcodeRow) (w : Word) : Bool := w &&& r.mask == r.pattern

/-- The row of the pattern table an instruction belongs to (30 R155). -/
def Instr.row : Instr → OpcodeRow
  | .nop => ⟨"NOP", 0x00000000, 0xFFFFFFFF⟩
  | .extract _ _ => ⟨"EXTRACT", 0x00000001, 0xFFFCFEFF⟩
  | .xor _ _ _ => ⟨"XOR", 0x00000002, 0xFFFCCCFF⟩
  | .debias _ _ => ⟨"DEBIAS", 0x00000003, 0xFFFCFCFF⟩
  | .validate _ => ⟨"VALIDATE", 0x00000004, 0xFFFFFCFF⟩
  | .pipeline => ⟨"PIPELINE", 0x00000005, 0xFFFFFFFF⟩
  | .clear => ⟨"CLEAR", 0x00000006, 0xFFFFFFFF⟩

/-- The instruction the decoder reads from an instruction of `nbits` bits `w`, numbered as
spec/opcode_table.json numbers them. A command is one 32-bit word (30 R150), and bits above `nbits`
are 0. -/
def decodeTableWord (nbits w : Nat) : Option Instr :=
  match decode (BitVec.ofNat 32 (w % 2 ^ nbits)) with
  | .ok i => some i
  | .error _ => none

/-- `WR addr, v` (30 R158). -/
def HostOp.wr (addr v : Word) : HostOp := .access ⟨true, .word, addr, v⟩

/-- `RD addr` (30 R158). -/
def HostOp.rd (addr : Word) : HostOp := .access ⟨false, .word, addr, 0⟩

/-- `ISSUE <command>` = `WR 0x010, <assembled word>` (30 R158). -/
def HostOp.issue (i : Instr) : HostOp := .wr 0x010 (encode i)

/-- `WAIT` = `POLL 0x014, 0x00000001, 0x00000000` (30 R158). -/
def HostOp.wait : HostOp := .poll 0x014 0x00000001 0x00000000

/-- `ACK` = `WR 0x014, 0x00000006` (30 R158). -/
def HostOp.ack : HostOp := .wr 0x014 0x00000006

/-- The port transaction an access is: the triple `(we, addr, wdata)` (30 R159). -/
def Access.transaction (a : Access) : Bool × Word × Word := (a.we, a.addr, a.wdata)

end Sys2Proof
end

