-- ==== Sys2Proof/Machine/State.lean ====
section
/-!
DEFINITION. The state of the block as plain data (10_state.md), the reasons a step can stop, and the
state after reset (10 R57, 70 R400).
-/

namespace Sys2Proof.Machine

/-- One thing for each of the four buffers (00 R18). -/
structure PerBuf (α : Type) where
  rawA : α
  rawB : α
  xored : α
  extracted : α
deriving DecidableEq, Repr

/-- The error kinds with their codes of STATUS.ERRCODE (60 R371); the reserved codes 6 to 15 are no
constructors, since they are never raised. -/
inductive ErrKind where
  /-- code 0: no error since ERR was last cleared -/
  | none
  /-- code 1: XOR of buffers of unequal length (60 R372) -/
  | lengthMismatch
  /-- code 2: PIPELINE with DIM_A ≠ DIM_B (60 R373) -/
  | mismatchedImageDimensions
  /-- code 3: CHAR_IN byte other than 0x30, 0x31 (60 R374) -/
  | invalidBitCharacter
  /-- code 4: a CMD write of a word that is not legal (60 R376) -/
  | illegalCommand
  /-- code 5: W × H > P_MAXPIX, or an append to a full buffer (60 R375) -/
  | capacityExceeded
deriving DecidableEq, Repr

/-- The stages of STATUS.STAGE (10 R38); the encodings 8 to 15 are no constructors, since they are
never read. -/
inductive Stage where
  /-- 0 -/
  | idle
  /-- 1: PIPELINE checking its preconditions -/
  | check
  /-- 2 -/
  | extractA
  /-- 3 -/
  | extractB
  /-- 4 -/
  | combine
  /-- 5 -/
  | debias
  /-- 6: PIPELINE validating its four streams -/
  | validate
  /-- 7: a command other than PIPELINE is running -/
  | single
deriving DecidableEq, Repr

/-- The fields of VSTAT[b] (10 R46). -/
structure Verdict where
  /-- [0] -/
  valid : Bool
  /-- [1] -/
  passed : Bool
  /-- [2] -/
  insuf : Bool
deriving DecidableEq, Repr

/-- The byte store behind the pixel memories, the buffers and the window records, keyed by host
address (log 7). Both lists are in one canonical form: addresses strictly rising, no entry equal to
0, which is what an unlisted address stands for (`Memory.wf`). -/
structure Memory where
  /-- the bits written since reset; 0 where nothing was written -/
  value : List Host.Cell
  /-- which bits of a byte have been written since reset; the others hold a drawn value (10 R57) -/
  known : List Host.Cell
deriving DecidableEq, Repr

/-- The state. Fields in the order of 10_state.md; INVENTORY.md lists each with its rule. -/
@[ext]
structure State where
  /-- the build parameters behind CAP, MAXPIX and MAXWIN (00 R9 to R11, 10 R33, R34, R40; log 1) -/
  cfg : Config
  /-- CMD: the last accepted command word (10 R35) -/
  cmd : Word
  /-- STATUS.BUSY (10 R36) -/
  busy : Bool
  /-- STATUS.DONE (10 R36) -/
  done : Bool
  /-- STATUS.ERR (10 R36) -/
  err : Bool
  /-- STATUS.REPORT_VALID (10 R36) -/
  reportValid : Bool
  /-- STATUS.CMD_REJ (10 R36) -/
  cmdRej : Bool
  /-- STATUS.ACC_REJ (10 R36) -/
  accRej : Bool
  /-- STATUS.ERRCODE (10 R36, 60 R371) -/
  errcode : ErrKind
  /-- STATUS.STAGE (10 R38) -/
  stage : Stage
  /-- IER.DONE_IE (10 R39) -/
  doneIe : Bool
  /-- IER.ERR_IE (10 R39) -/
  errIe : Bool
  /-- DIM_A (10 R41) -/
  dimA : Word
  /-- DIM_B (10 R41) -/
  dimB : Word
  /-- IOSEL.CIN_BUF (10 R42) -/
  cinBuf : BufId
  /-- IOSEL.OUT_BUF (10 R42) -/
  outBuf : BufId
  /-- HEXPOS (10 R44) -/
  hexpos : Word
  /-- BINPOS (10 R44) -/
  binpos : Word
  /-- LEN[b] (10 R45) -/
  len : PerBuf Word
  /-- ERRINFO (10 R58) -/
  errinfo : Word
  /-- VSTAT[b] (10 R46) -/
  vstat : PerBuf Verdict
  /-- VN[b] (10 R47) -/
  vn : PerBuf Word
  /-- VNWIN[b] (10 R47) -/
  vnwin : PerBuf Word
  /-- VNFAIL[b] (10 R47) -/
  vnfail : PerBuf Word
  /-- PIX[A], PIX[B], BUF[0..3], WRES[0..3] (10 R49 to R52) -/
  mem : Memory
  /-- the latched command word of the engine (10 R55) -/
  pend : Option Word
  /-- the MODEL's own: which draw the never-written memory bits take (log 6) -/
  memDraw : Nat
  /-- the MODEL's own: the next draw of a read the spec leaves open (log 8) -/
  draws : Nat
  /-- the MODEL's own: the host's remaining program (30 R160; log 3) -/
  host : List HostOp
  /-- the MODEL's own: the turns the environment has laid down (20 R113; log 2) -/
  sched : List Turn
  /-- the MODEL's own: the words the host's reads have returned, newest first (log 17) -/
  obs : List Word
deriving DecidableEq, Repr

/-- Why a host access completes with BUSERR (20 R103). -/
inductive BusCause where
  /-- width 1, 2 or 8 bytes (20 R105) -/
  | width
  /-- `addr mod 4 ≠ 0` (20 R105) -/
  | misaligned
  /-- inside a region's window but at or beyond its size (20 R102) -/
  | outOfRange
  /-- no region's window holds the address (20 R101) -/
  | unmapped
deriving DecidableEq, Repr

/-- The faults of a step. -/
inductive Fault where
  /-- Raised by a host access that completes with BUSERR, and by nothing else (20 R103, R105,
  60 R384: "A model reports it as a fault of the host's access, which ends the host program's run as
  faulted"). The data such a read returns is 0 and no state changes. Safe: the run stops where the
  block would go on with the next access (log 5). -/
  | busError (cause : BusCause) (addr : Word)
deriving DecidableEq, Repr

/-- The refusals of a step. -/
inductive Refusal where
  /-- Raised by an arm of `exec` for a command that has no meaning yet. No arm does: safe. -/
  | notModelled (mnemonic : String)
  /-- Raised by the engine's turn when the latched word is no legal command. Acceptance latches
  legal words only (45 R320), so no run reaches it; safe (log 15). -/
  | illegalPending (w : Word)
deriving DecidableEq, Repr

/-- The same value for each buffer. -/
def PerBuf.all {α : Type} (x : α) : PerBuf α := ⟨x, x, x, x⟩

/-- The block right after reset, for any build: every register at its reset value (10 R57,
70 R400), the memories with nothing written, the model's own counters at 0 and its own lists empty
(DESIGN CHOICE: logs 2, 3, 6, 8, 17). -/
def State.resetOf (c : Config) : State :=
  { cfg := c
    cmd := 0x00000000
    busy := false
    done := false
    err := false
    reportValid := false
    cmdRej := false
    accRej := false
    errcode := .none
    stage := .idle
    doneIe := false
    errIe := false
    dimA := 0x00000000
    dimB := 0x00000000
    cinBuf := .rawA
    outBuf := .rawA
    hexpos := 0x00000000
    binpos := 0x00000000
    len := .all 0x00000000
    errinfo := 0x00000000
    vstat := .all ⟨false, false, false⟩
    vn := .all 0x00000000
    vnwin := .all 0x00000000
    vnfail := .all 0x00000000
    mem := ⟨[], []⟩
    pend := none
    memDraw := 0
    draws := 0
    host := []
    sched := []
    obs := [] }

/-- The machine right after reset: the reset state of the reference build (log 1). -/
def State.reset : State := State.resetOf Config.reference

end Sys2Proof.Machine
end

