-- ==== Sys2Proof/Machine/Operands.lean ====
section
/-!
DEFINITION. Operand forms and places: buffer ids, image selects and DIM fields (30 R151, 10 R41), the
region bases of the address map (20 R101), where a pixel's byte, a stream's bit and a record's word
are stored (20 R106, R107, 10 R52), and numerals of bits.
-/

namespace Sys2Proof.Machine

/-- The entry of buffer `b`. -/
def PerBuf.get {α : Type} (p : PerBuf α) : BufId → α
  | .rawA => p.rawA
  | .rawB => p.rawB
  | .xored => p.xored
  | .extracted => p.extracted

/-- The entry of buffer `b` replaced. -/
def PerBuf.set {α : Type} (p : PerBuf α) (b : BufId) (x : α) : PerBuf α :=
  match b with
  | .rawA => { p with rawA := x }
  | .rawB => { p with rawB := x }
  | .xored => { p with xored := x }
  | .extracted => { p with extracted := x }

/-- The buffer id as a number (00 R18). -/
def bufIndex (b : BufId) : Nat := b.field.toNat

/-- The byte of a pixel word that holds the channel (00 R9, 20 R106), and the CAP field (10 R33). -/
def channelCode : Channel → Nat
  | .red => 0
  | .green => 1
  | .blue => 2
  | .alpha => 3

/-- Base of PIXA or PIXB (20 R101). -/
def pixBase : Image → Nat
  | .imageA => 0x10000000
  | .imageB => 0x20000000

/-- Base of BUFb: `0x3000_0000 + 0x0100_0000 · b` (20 R101). -/
def bufBase (b : BufId) : Nat := 0x30000000 + 0x01000000 * bufIndex b

/-- Base of WRESb: `0x4000_0000 + 0x0100_0000 · b` (20 R101). -/
def wresBase (b : BufId) : Nat := 0x40000000 + 0x01000000 * bufIndex b

/-- Address of pixel word `k`: base + 4k (20 R101). -/
def pixelAddr (m : Image) (k : Nat) : Nat := pixBase m + 4 * k

/-- Address of buffer word `j`: base + 4j (20 R101). -/
def bufWordAddr (b : BufId) (j : Nat) : Nat := bufBase b + 4 * j

/-- Address of word `i` of window record `w`: base + 128w + 4i (20 R101). -/
def recordAddr (b : BufId) (w i : Nat) : Nat := wresBase b + 128 * w + 4 * i

/-- The bit of word `i div 32` that holds bit `i` of a stream: `31 − (i mod 32)` (20 R107). -/
def streamBitOfWord (i : Nat) : Nat := 31 - i % 32

/-- The byte address of bit `i` of buffer `b` (20 R107; a word's byte `c` holds its bits
[8c+7 : 8c], log 7). -/
def streamByteAddr (b : BufId) (i : Nat) : Nat := bufWordAddr b (i / 32) + streamBitOfWord i / 8

/-- The bit of that byte. -/
def streamBitOfByte (i : Nat) : Nat := streamBitOfWord i % 8

/-- W: DIM[15:0] (10 R41). -/
def dimWidth (d : Word) : Nat := (d.extractLsb' 0 16).toNat

/-- H: DIM[31:16] (10 R41). -/
def dimHeight (d : Word) : Nat := (d.extractLsb' 16 16).toNat

/-- `W × H`, computed exactly (10 R41). -/
def pixelCount (d : Word) : Nat := dimWidth d * dimHeight d

/-- The DIM register of an image (30 R151). -/
def State.dim (s : State) : Image → Word
  | .imageA => s.dimA
  | .imageB => s.dimB

/-- The first `k` bits of a string read as a binary numeral, first bit most significant, with zeros
to the right of a shorter string (40 R190, R191; 44 R274; 20 R107 for `k` = 32). -/
def numeral : Nat → BitString → Nat
  | 0, _ => 0
  | k + 1, bs => (bs.headD false).toNat * 2 ^ k + numeral k bs.tail

/-- The words that hold a string: bit `i` at bit `31 − (i mod 32)` of word `i div 32`, the padding
bits of the last word 0 (20 R107, 10 R51). `k` is the number of words. -/
def packWords : Nat → BitString → List Word
  | 0, _ => []
  | k + 1, bs => BitVec.ofNat 32 (numeral 32 bs) :: packWords k (bs.drop 32)

/-- The words a command writes for a string: those up to the one that holds its last bit, none for
the empty string (10 R51, 41 R216). -/
def packStream (bs : BitString) : List Word := packWords ((bs.length + 31) / 32) bs

end Sys2Proof.Machine
end

