-- ==== Sys2Proof/Machine/Flags.lean ====
section
/-!
DEFINITION. The flag and register words a program reads: STATUS with its drawn STAGE (10 R36, R38),
IER, CAP, IOSEL, VSTAT, and the interrupt output (60 R385).
-/

namespace Sys2Proof.Machine

/-- STATUS.ERRCODE (60 R371). -/
def ErrKind.code : ErrKind → BitVec 4
  | .none => 0
  | .lengthMismatch => 1
  | .mismatchedImageDimensions => 2
  | .invalidBitCharacter => 3
  | .illegalCommand => 4
  | .capacityExceeded => 5

/-- STATUS.STAGE (10 R38). -/
def Stage.code : Stage → BitVec 4
  | .idle => 0
  | .check => 1
  | .extractA => 2
  | .extractB => 3
  | .combine => 4
  | .debias => 5
  | .validate => 6
  | .single => 7

/-- The stage code a read shows while BUSY = 1 (10 R38, 93 I8; log 9): SINGLE for a command other
than PIPELINE, and for a PIPELINE the draw over CHECK (1) to VALIDATE (6). -/
def Stage.shownBusy (g : Stage) (draw : Nat) : BitVec 4 :=
  match g with
  | .single => Stage.single.code
  | _ => BitVec.ofNat 4 (1 + (Config.busyStage draw).val)

/-- The STAGE field of a STATUS read (10 R38). -/
def State.shownStage (s : State) : BitVec 4 :=
  if s.busy then s.stage.shownBusy s.draws else s.stage.code

/-- The word a STATUS read returns (10 R36): BUSY [0], DONE [1], ERR [2], REPORT_VALID [3],
CMD_REJ [4], ACC_REJ [5], 0 [7:6], ERRCODE [11:8], STAGE [15:12], 0 [31:16]. -/
def State.statusWord (s : State) : Word :=
  (0 : BitVec 16) ++ s.shownStage ++ s.errcode.code ++ (0 : BitVec 2) ++ BitVec.ofBool s.accRej ++
    BitVec.ofBool s.cmdRej ++ BitVec.ofBool s.reportValid ++ BitVec.ofBool s.err ++
    BitVec.ofBool s.done ++ BitVec.ofBool s.busy

/-- The word an IER read returns: DONE_IE [0], ERR_IE [1] (10 R39). -/
def State.ierWord (s : State) : Word :=
  (0 : BitVec 30) ++ BitVec.ofBool s.errIe ++ BitVec.ofBool s.doneIe

/-- CAP[8] (10 R33). -/
def partialNibbleCode : PartialNibble → BitVec 1
  | .numeral => 0
  | .padRight => 1

/-- The word a CAP read returns: P_CHANNEL [1:0], P_PARTIAL_NIBBLE [8] (10 R33). -/
def capWord (c : Config) : Word :=
  (0 : BitVec 23) ++ partialNibbleCode c.partialNibble ++ (0 : BitVec 6) ++
    BitVec.ofNat 2 (channelCode c.channel)

/-- The word an IOSEL read returns: CIN_BUF [1:0], OUT_BUF [9:8] (10 R42). -/
def State.ioselWord (s : State) : Word :=
  (0 : BitVec 22) ++ s.outBuf.field ++ (0 : BitVec 6) ++ s.cinBuf.field

/-- The word a VSTAT read returns: VALID [0], PASSED [1], INSUF [2] (10 R46). -/
def Verdict.word (v : Verdict) : Word :=
  (0 : BitVec 29) ++ BitVec.ofBool v.insuf ++ BitVec.ofBool v.passed ++ BitVec.ofBool v.valid

/-- The interrupt output `irq` (60 R385; log 21). -/
def State.irq (s : State) : Bool := (s.done && s.doneIe) || (s.err && s.errIe)

end Sys2Proof.Machine
end

