-- ==== Sys2Proof/Machine/Ops.lean ====
section
/-!
DEFINITION. The shared operations: the canonical byte store and its bits, bytes and words; streams
in buffers (10 R50, R51); result invalidation (10 R54); raising an error and acknowledging it
(60 R377, R381); the completion part of the engine step (45 R321); and reset (70 R400).
-/

namespace Sys2Proof.Machine

/-- The byte listed at an address, 0 where the address is not listed. -/
def cellGet : List Host.Cell → Nat → Byte
  | [], _ => 0
  | (k, w) :: rest, a => if k = a then w else cellGet rest a

/-- The list with the byte at an address replaced; a 0 is not listed. -/
def cellSet : List Host.Cell → Nat → Byte → List Host.Cell
  | [], a, v => if v = 0 then [] else [(a, v)]
  | (k, w) :: rest, a, v =>
    if k < a then (k, w) :: cellSet rest a v
    else if k = a then (if v = 0 then rest else (a, v) :: rest)
    else (if v = 0 then (k, w) :: rest else (a, v) :: (k, w) :: rest)

/-- The canonical form of a list of cells: addresses strictly rising, no entry equal to what an
unlisted address stands for. -/
abbrev cellsCanonical (m : List Host.Cell) : Prop :=
  m.Pairwise (fun c d => c.1 < d.1) ∧ ∀ c ∈ m, c.2 ≠ 0

/-- The form every memory operation keeps: both lists canonical, and no value held for a bit that
was not written. Equal memories are then equal data (log 7). -/
abbrev Memory.wf (m : Memory) : Prop :=
  cellsCanonical m.value ∧ cellsCanonical m.known ∧
    ∀ c ∈ m.value, c.2 &&& ~~~(cellGet m.known c.1) = 0

/-- Bit `k` of the byte at `a`: the bit written, or the drawn one where nothing was written since
reset (10 R57). -/
def Memory.bit (m : Memory) (draw a k : Nat) : Bool :=
  if (cellGet m.known a).getLsbD k then (cellGet m.value a).getLsbD k
  else (Config.unwrittenByte draw a).getLsbD k

/-- Some bit of the byte at `a` has been written since reset (10 R57). -/
def Memory.written (m : Memory) (a : Nat) : Bool := cellGet m.known a != 0

/-- The byte at `a`: the written bits, the others drawn (10 R57). -/
def Memory.readByte (m : Memory) (draw a : Nat) : Byte :=
  let k := cellGet m.known a
  if k = 0xFF then cellGet m.value a
  else (cellGet m.value a &&& k) ||| (Config.unwrittenByte draw a &&& ~~~k)

/-- The word at `a`, byte `a + c` at bits [8c+7 : 8c] (20 R106). -/
def Memory.readWord (m : Memory) (draw a : Nat) : Word :=
  m.readByte draw (a + 3) ++ m.readByte draw (a + 2) ++ m.readByte draw (a + 1) ++ m.readByte draw a

/-- One byte written whole. -/
def Memory.writeByte (m : Memory) (a : Nat) (v : Byte) : Memory :=
  ⟨cellSet m.value a v, cellSet m.known a 0xFF⟩

/-- One word written, byte `a + c` from bits [8c+7 : 8c] (20 R106). -/
def Memory.writeWord (m : Memory) (a : Nat) (v : Word) : Memory :=
  (((m.writeByte a (v.extractLsb' 0 8)).writeByte (a + 1) (v.extractLsb' 8 8)).writeByte (a + 2)
    (v.extractLsb' 16 8)).writeByte (a + 3) (v.extractLsb' 24 8)

/-- Consecutive words written from `a` up. -/
def Memory.writeWords (m : Memory) (a : Nat) : List Word → Memory
  | [] => m
  | w :: ws => (m.writeWord a w).writeWords (a + 4) ws

/-- One bit written; the other bits of the byte keep their values, the unwritten ones their draw
(40 R180). -/
def Memory.writeBit (m : Memory) (a k : Nat) (b : Bool) : Memory :=
  let bit : Byte := 1#8 <<< k
  ⟨cellSet m.value a ((cellGet m.value a &&& ~~~bit) ||| (if b then bit else 0)),
    cellSet m.known a (cellGet m.known a ||| bit)⟩

/-- The byte of memory at a host address. -/
def State.readByte (s : State) (a : Nat) : Byte := s.mem.readByte s.memDraw a

/-- The word of memory at a host address. -/
def State.readWord (s : State) (a : Nat) : Word := s.mem.readWord s.memDraw a

/-- `BUF[b].bit[i]` (10 R50, 20 R107). -/
def State.bufBit (s : State) (b : BufId) (i : Nat) : Bool :=
  s.mem.bit s.memDraw (streamByteAddr b i) (streamBitOfByte i)

/-- The BitString `BUF[b]` holds: its first LEN[b] bits (10 R50). -/
def State.bits (s : State) (b : BufId) : BitString :=
  (List.range (s.len.get b).toNat).map (s.bufBit b)

/-- `PIX[m][k][8·P_CHANNEL]` (41 R210). -/
def State.pixelBit (s : State) (m : Image) (k : Nat) : Bool :=
  s.mem.bit s.memDraw (pixelAddr m k + channelCode s.cfg.channel) 0

/-- Result invalidation of buffer `b`: VSTAT[b].VALID <- 0 and REPORT_VALID <- 0 (10 R54). -/
def State.invalidate (s : State) (b : BufId) : State :=
  { s with vstat := s.vstat.set b { s.vstat.get b with valid := false }, reportValid := false }

/-- A command's write of its destination buffer: the words of the string with zeroed padding, LEN[d],
and the invalidation of d (10 R51, R54 (d)). -/
def State.storeStream (s : State) (d : BufId) (bs : BitString) : State :=
  { s with
    mem := s.mem.writeWords (bufBase d) (packStream bs)
    len := s.len.set d (BitVec.ofNat 32 bs.length) }.invalidate d

/-- Raising an error: ERR, ERRCODE and ERRINFO, and nothing else (60 R377). The one shared
operation of error entry; `info` is the causing word (60 R371). -/
def State.raise (s : State) (e : ErrKind) (info : Word) : State :=
  { s with err := true, errcode := e, errinfo := info }

/-- The return from an error: "sets ERR <- 0, ERRCODE <- 0 and ERRINFO <- 0. Nothing is restored,
because nothing was changed" (60 R381). -/
def State.acknowledge (s : State) : State :=
  { s with err := false, errcode := .none, errinfo := 0 }

/-- The end of every engine step: BUSY <- 0, STAGE <- IDLE, pend <- none (45 R321). The draw counter
moves on (log 8). -/
def State.finish (s : State) : State :=
  { s with busy := false, stage := .idle, pend := none, draws := s.draws + 1 }

/-- Completion without an error: DONE <- 1 and the end of the step (45 R321). -/
def State.complete (s : State) : State := { s with done := true }.finish

/-- A command that ends in an error: the error is raised with the command word in ERRINFO, and the
step ends without setting DONE (60 R371, R377; log 14). -/
def State.abort (s : State) (e : ErrKind) (i : Instr) : State := (s.raise e (encode i)).finish

/-- A STATUS write, field by field: a 1 in a W1C bit clears the field; clearing ERR clears ERRCODE
and ERRINFO with it (10 R37). -/
def State.writeStatus (s : State) (v : Word) : State :=
  let s := if v.getLsbD 2 then s.acknowledge else s
  { s with
    done := s.done && !v.getLsbD 1
    cmdRej := s.cmdRej && !v.getLsbD 4
    accRej := s.accRej && !v.getLsbD 5 }

/-- The reset input: every register at its reset value, the memories at a fresh draw, the running
command abandoned (70 R400, R401). The build stays (10 R33); so does the host's side, which is not
the block's (log 18). -/
def State.applyReset (s : State) : State :=
  { State.resetOf s.cfg with
    memDraw := s.memDraw + 1, draws := s.draws, host := s.host, sched := s.sched, obs := s.obs }

end Sys2Proof.Machine
end

