-- ==== Sys2Proof/Machine/Combine.lean ====
section
/-!
DEFINITION. The combiner (42_combine.md).
-/

namespace Sys2Proof.Machine

/-- The codec function `xor(a, b)`, meant for equal lengths (42 R231). -/
def xorBits (a b : BitString) : BitString := List.zipWith Bool.xor a b

/-- The engine step of XOR (42 R230): both sources are read whole as they stood when the step began
(30 R152); LengthMismatch before any write. -/
def execXor (a b d : BufId) (s : State) : Host.Outcome State Fault Refusal :=
  let x := s.bits a
  let y := s.bits b
  if x.length ≠ y.length then .next (s.abort .lengthMismatch (.xor a b d))
  else .next (s.storeStream d (xorBits x y)).complete

end Sys2Proof.Machine
end

