-- ==== Sys2Proof/Machine/Control.lean ====
section
/-!
DEFINITION. Command acceptance (45 R320) and the housekeeping commands NOP and CLEAR (45 R327, R328).
-/

namespace Sys2Proof.Machine

/-- The OP field of a command word (30 R150). -/
def opField (v : Word) : BitVec 8 := v.extractLsb' 0 8

/-- The stage at acceptance: CHECK for PIPELINE, SINGLE otherwise (45 R320). -/
def acceptedStage (v : Word) : Stage := if opField v = 0x05 then .check else .single

/-- The acceptance of a legal command word (45 R320): the CMD read-back, DONE <- 0, REPORT_VALID <- 0
unless it is NOP, BUSY <- 1, STAGE, and pend. -/
def State.accept (s : State) (v : Word) : State :=
  { s with
    cmd := v
    done := false
    reportValid := if opField v ≠ 0x00 then false else s.reportValid
    busy := true
    stage := acceptedStage v
    pend := some v }

/-- A CMD write (45 R320): dropped while BUSY or ERR; IllegalCommand for a word that is not legal;
otherwise accepted. -/
def State.writeCmd (s : State) (v : Word) : State :=
  if s.busy || s.err then { s with cmdRej := true }
  else if legal v then s.accept v
  else s.raise .illegalCommand v

/-- The engine step of NOP (45 R327). -/
def execNop (s : State) : Host.Outcome State Fault Refusal := .next s.complete

/-- Every stream and result emptied, the readout positions at 0 (45 R328). -/
def State.clearAll (s : State) : State :=
  { s with
    len := .all 0
    vstat := .all ⟨false, false, false⟩
    vn := .all 0
    vnwin := .all 0
    vnfail := .all 0
    hexpos := 0
    binpos := 0 }

/-- The engine step of CLEAR (45 R328). -/
def execClear (s : State) : Host.Outcome State Fault Refusal := .next s.clearAll.complete

end Sys2Proof.Machine
end

