-- ==== Sys2Proof/Machine/Debias.lean ====
section
/-!
DEFINITION. The debiaser (43_debias.md).
-/

namespace Sys2Proof.Machine

/-- Von Neumann extraction: disjoint consecutive pairs left to right, `01` emits 0, `10` emits 1,
equal pairs emit nothing, a trailing unpaired bit is discarded (43 R250, R251). -/
def vonNeumann : BitString → BitString
  | x :: y :: rest => if x = y then vonNeumann rest else x :: vonNeumann rest
  | _ => []

/-- The engine step of DEBIAS (43 R250): the source is read whole first (30 R152). -/
def execDebias (a d : BufId) (s : State) : Host.Outcome State Fault Refusal :=
  .next (s.storeStream d (vonNeumann (s.bits a))).complete

end Sys2Proof.Machine
end

