-- ==== Sys2Proof/Machine/Extract.lean ====
section
/-!
DEFINITION. The LSB extractor (41_extract.md).
-/

namespace Sys2Proof.Machine

/-- `lsb(PIX[m], n)`: the least-significant bit of the channel byte of pixels 0 to n − 1, in
row-major order (41 R210, R214). -/
def State.lsb (s : State) (m : Image) (n : Nat) : BitString :=
  (List.range n).map (s.pixelBit m)

/-- The engine step of EXTRACT (41 R211): CapacityExceeded when W × H > P_MAXPIX, before any
write. -/
def execExtract (m : Image) (d : BufId) (s : State) :
    Host.Outcome State Fault Refusal :=
  let n := pixelCount (s.dim m)
  if s.cfg.maxpix < n then .next (s.abort .capacityExceeded (.extract m d))
  else .next (s.storeStream d (s.lsb m n)).complete

end Sys2Proof.Machine
end

