-- ==== Sys2Proof/Machine/Battery.lean ====
section
/-!
DEFINITION. The FIPS-140-2 battery over one window: the accumulator datapath (44 R281), its threshold
comparators (44 R273 to R280) and the window record (44 R282, 10 R52).
-/

namespace Sys2Proof.Machine

/-- WIN, the window length in bits (00 R12). -/
def windowBits : Nat := 20000

/-- The accumulators of one window (44 R281), local to the engine step (10 R55; log 13). -/
structure Tally where
  /-- bits consumed so far, the index i of the loop -/
  index : Nat
  /-- monobit accumulator -/
  ones : Nat
  /-- nibble shift register -/
  nib : BitVec 4
  /-- the sixteen nibble counters F[0..15] -/
  f : List Nat
  /-- run-value register -/
  runBit : Bool
  /-- run-length counter -/
  runLen : Nat
  /-- the six bucket counters RUNB[1..6] -/
  runb : List Nat
  /-- longest-run register -/
  longest : Nat
deriving DecidableEq, Repr

/-- The accumulators before bit 0 of a window (44 R281). -/
def Tally.start (win : BitString) : Tally :=
  { index := 0, ones := 0, nib := 0, f := List.replicate 16 0, runBit := win.headD false,
    runLen := 0, runb := List.replicate 6 0, longest := 0 }

/-- `close(L)`: the run of length L is counted in bucket min(L, 6) and in the longest-run register
(44 R281). -/
def Tally.close (t : Tally) : Tally :=
  { t with
    runb := t.runb.modify (min t.runLen 6 - 1) (· + 1)
    longest := max t.longest t.runLen }

/-- The monobit and nibble accumulators on one bit (44 R281). -/
def Tally.count (t : Tally) (x : Bool) : Tally :=
  let nib := t.nib.shiftConcat x
  { t with
    ones := t.ones + x.toNat
    nib := nib
    f := if t.index % 4 = 3 then t.f.modify nib.toNat (· + 1) else t.f }

/-- The run accumulators on one bit: a run ended at the bit before if the value changed
(44 R281). -/
def Tally.run (t : Tally) (x : Bool) : Tally :=
  let t := if 0 < t.index ∧ x ≠ t.runBit then { t.close with runLen := 0 } else t
  { t with runBit := x, runLen := t.runLen + 1 }

/-- One bit of the window (44 R281). -/
def Tally.step (t : Tally) (x : Bool) : Tally :=
  { (t.count x).run x with index := t.index + 1 }

/-- The accumulators at the window's end: "the last run ends at the window's end" (44 R281). -/
def tally (win : BitString) : Tally := (win.foldl Tally.step (Tally.start win)).close

/-- `MONO_PASS`, both bounds exclusive (44 R273). -/
def monoPass (ones : Nat) : Bool := decide (9725 < ones) && decide (ones < 10275)

/-- `S = Σ f(i)²` (44 R275). -/
def pokerS (f : List Nat) : Nat := (f.map (fun c => c * c)).sum

/-- `POKER_PASS` by the integer comparator (44 R276). -/
def pokerPass (s : Nat) : Bool := decide (1563176 ≤ s) && decide (s ≤ 1576928)

/-- The bounds LO[k], HI[k] of the six buckets (44 R279). -/
def runBounds : List (Nat × Nat) :=
  [(2315, 2685), (1114, 1386), (527, 723), (240, 384), (103, 209), (103, 209)]

/-- `RUNB_PASS[1..6]`, both bounds inclusive (44 R279). -/
def runbPass (runb : List Nat) : List Bool :=
  List.zipWith (fun n b => decide (b.1 ≤ n) && decide (n ≤ b.2)) runb runBounds

/-- `RUNS_PASS` (44 R279). -/
def runsPass (runb : List Nat) : Bool := (runbPass runb).all id

/-- `LONG_PASS` (44 R280). -/
def longPass (longest : Nat) : Bool := decide (longest < 26)

/-- The result of one window: its four statistics (44 R281, R282). The verdicts are functions of
them. -/
structure WindowRecord where
  ones : Nat
  s : Nat
  longest : Nat
  runb : List Nat
  f : List Nat
deriving DecidableEq, Repr

/-- `window_tests(win)` (44 R281). -/
def windowTests (win : BitString) : WindowRecord :=
  let t := tally win
  { ones := t.ones, s := pokerS t.f, longest := t.longest, runb := t.runb, f := t.f }

/-- `WIN_PASS`: all four sub-tests pass (44 R271). -/
def WindowRecord.winPass (r : WindowRecord) : Bool :=
  monoPass r.ones && pokerPass r.s && runsPass r.runb && longPass r.longest

/-- The bits of the FLAGS word from bit 0 up: MONO_PASS, POKER_PASS, RUNS_PASS, LONG_PASS, WIN_PASS,
RUNB_PASS[1..6] (44 R282). -/
def WindowRecord.flagBits (r : WindowRecord) : BitString :=
  [monoPass r.ones, pokerPass r.s, runsPass r.runb, longPass r.longest, r.winPass] ++
    runbPass r.runb

/-- The number whose bits are the list's, bit 0 first. -/
def flagsValue : BitString → Nat
  | [] => 0
  | b :: bs => b.toNat + 2 * flagsValue bs

/-- The 32 words of the record: FLAGS, ones, S, longest, RUNB[1..6], F[0..15], six zeros
(44 R282). -/
def WindowRecord.words (r : WindowRecord) : List Word :=
  ([flagsValue r.flagBits, r.ones, r.s, r.longest] ++ r.runb ++ r.f).map (BitVec.ofNat 32) ++
    List.replicate 6 0

/-- Window `w` of a stream: bits 20000·w to 20000·w + 19999 (44 R270). -/
def window (bs : BitString) (w : Nat) : BitString := (bs.drop (windowBits * w)).take windowBits

/-- The results of the `|bs| div 20000` windows, in order; the remaining bits are not tested
(44 R270). -/
def windowResults (bs : BitString) : List WindowRecord :=
  (List.range (bs.length / windowBits)).map (fun w => windowTests (window bs w))

end Sys2Proof.Machine
end

