-- ==== Sys2Proof/Machine/Validate.lean ====
section
/-!
DEFINITION. The validator's command (44_validate.md section 4).
-/

namespace Sys2Proof.Machine

/-- The result registers of buffer `b` written whole (44 R285). -/
def State.setResult (s : State) (b : BufId) (v : Verdict) (n nwin nfail : Word) : State :=
  { s with
    vstat := s.vstat.set b v
    vn := s.vn.set b n
    vnwin := s.vnwin.set b nwin
    vnfail := s.vnfail.set b nfail }

/-- The window records of buffer `b` written from record 0 up; record w follows record w − 1 at once,
and later records keep their contents (10 R52, 20 R101, 44 R285). -/
def State.writeRecords (s : State) (b : BufId) (rs : List WindowRecord) : State :=
  { s with mem := s.mem.writeWords (wresBase b) (rs.flatMap WindowRecord.words) }

/-- The validation of buffer `b` (44 R272, R285, R287): an insufficient stream gives INSUF and no
record; otherwise every window is tested and recorded. -/
def State.validateBuffer (s : State) (b : BufId) : State :=
  let bs := s.bits b
  if bs.length < windowBits then s.setResult b ⟨true, false, true⟩ (s.len.get b) 0 0
  else
    let rs := windowResults bs
    let fails := rs.countP (fun r => !r.winPass)
    (s.writeRecords b rs).setResult b ⟨true, fails == 0, false⟩ (s.len.get b)
      (BitVec.ofNat 32 rs.length) (BitVec.ofNat 32 fails)

/-- The engine step of VALIDATE (44 R285). It raises no error (44 R272). -/
def execValidate (a : BufId) (s : State) : Host.Outcome State Fault Refusal :=
  .next (s.validateBuffer a).complete

end Sys2Proof.Machine
end

