-- ==== Sys2Proof/Machine/Pipeline.lean ====
section
/-!
DEFINITION. PIPELINE (45_pipeline_control.md section 2), stage by stage.
-/

namespace Sys2Proof.Machine

/-- EXTRACT_A and EXTRACT_B: both images of `n` pixels to raw-A and raw-B (45 R323). -/
def State.stageExtract (s : State) (n : Nat) : State :=
  let s := s.storeStream .rawA (s.lsb .imageA n)
  s.storeStream .rawB (s.lsb .imageB n)

/-- COMBINE: raw-A xor raw-B to XORed (45 R323). -/
def State.stageCombine (s : State) : State :=
  s.storeStream .xored (xorBits (s.bits .rawA) (s.bits .rawB))

/-- DEBIAS: Von Neumann extraction of XORed to extracted (45 R323). -/
def State.stageDebias (s : State) : State :=
  s.storeStream .extracted (vonNeumann (s.bits .xored))

/-- VALIDATE: the four validations, in the order 0, 1, 2, 3 (45 R323, 44 R286). -/
def State.stageValidate (s : State) : State :=
  (((s.validateBuffer .rawA).validateBuffer .rawB).validateBuffer .xored).validateBuffer .extracted

/-- The report becomes readable: REPORT_VALID <- 1 (45 R323, R326). -/
def State.publish (s : State) : State := { s with reportValid := true }

/-- The stages after CHECK, in their fixed order (45 R325), and the report (45 R326). -/
def State.runStages (s : State) (n : Nat) : State :=
  (s.stageExtract n).stageCombine.stageDebias.stageValidate.publish

/-- The engine step of PIPELINE (45 R323): CHECK raises MismatchedImageDimensions first, then
CapacityExceeded (60 R379), both before any write. -/
def execPipeline (s : State) : Host.Outcome State Fault Refusal :=
  let n := pixelCount s.dimA
  if s.dimA ≠ s.dimB then .next (s.abort .mismatchedImageDimensions .pipeline)
  else if s.cfg.maxpix < n then .next (s.abort .capacityExceeded .pipeline)
  else .next (s.runStages n).complete

end Sys2Proof.Machine
end

