-- ==== Sys2Proof/Machine/Dispatch.lean ====
section
/-!
DEFINITION. The engine steps of the seven commands: one arm per constructor, each one direct call
of its meaning.
-/

namespace Sys2Proof.Machine

/-- `exec i s` is the whole engine step of command `i` (45 R321; log 3). -/
def exec (i : Instr) (s : State) : Host.Outcome State Fault Refusal :=
  match i with
  | .nop => Sys2Proof.Machine.execNop s
  | .extract m d => Sys2Proof.Machine.execExtract m d s
  | .xor a b d => Sys2Proof.Machine.execXor a b d s
  | .debias a d => Sys2Proof.Machine.execDebias a d s
  | .validate a => Sys2Proof.Machine.execValidate a s
  | .pipeline => Sys2Proof.Machine.execPipeline s
  | .clear => Sys2Proof.Machine.execClear s

end Sys2Proof.Machine
end

