-- ==== Sys2Proof/Machine/Fetch.lean ====
section
/-!
DEFINITION. Who takes the next step (20 R113, 70 R412) and the engine's fetch of its latched command
word (10 R55, 45 R321).
-/

namespace Sys2Proof.Machine

/-- The turn of the next step: the first one the environment has laid down; when none is left, the
engine if a command is pending (70 R412: the enabled step is taken eventually), else the host
(logs 2, 19). -/
def State.nextTurn (s : State) : Turn :=
  match s.sched with
  | t :: _ => t
  | [] => if s.pend.isSome then .engine else .host

/-- The state with that turn taken off the schedule. -/
def State.takeTurn (s : State) : State := { s with sched := s.sched.tail }

/-- What the engine finds when it is its turn. -/
inductive Fetched where
  /-- pend = none: the engine cannot step (45 R321) -/
  | nothing
  /-- pend = some w, w decodes to `i` -/
  | command (i : Instr)
  /-- pend = some w, w is no legal command: no run reaches it (log 15) -/
  | illegal (w : Word)
deriving DecidableEq, Repr

/-- The engine's fetch and decode of the latched command word (45 R321). -/
def State.fetch (s : State) : Fetched :=
  match s.pend with
  | none => .nothing
  | some w =>
    match decode w with
    | .ok i => .command i
    | .error _ => .illegal w

/-- The word placed where the engine fetches it: accepted as a CMD write is accepted (45 R320), with
no other turn before the engine's (log 3). -/
def State.place (s : State) (w : Word) : State := { s.accept w with sched := [] }

end Sys2Proof.Machine
end

