-- ==== Sys2Proof/Machine/Codec.lean ====
section
/-!
DEFINITION. The bit codec (40_codec_stream_io.md): canonical binary and hex forms, the character
ports CHAR_IN, HEX_OUT and BIN_OUT, and the host-side reference functions. Characters are ASCII
bytes.
-/

namespace Sys2Proof.Machine

/-- The ASCII character of a bit: `0x30 + s.bit[i]` (40 R185). -/
def binChar (b : Bool) : Byte := if b then 0x31 else 0x30

/-- The canonical binary-character form (40 R185). -/
def binChars (bs : BitString) : List Byte := bs.map binChar

/-- `hexchar(v)`: `0`-`9`, `a`-`f` (40 R190). -/
def hexChar (v : Nat) : Byte := BitVec.ofNat 8 (if v ≤ 9 then 0x30 + v else 0x61 + (v - 10))

/-- The value of a trailing partial nibble of 1 to 3 bits (40 R191): its numeral, or the numeral of
the nibble padded with zeros on the right. The rule's sums are followed, not its example (log 24,
DEDUCED). -/
def partialValue (p : PartialNibble) (t : BitString) : Nat :=
  match p with
  | .numeral => numeral t.length t
  | .padRight => numeral 4 t

/-- The nibble values of toHex, first bit of a nibble most significant (40 R190, R191). -/
def hexValues (p : PartialNibble) : BitString → List Nat
  | a :: b :: c :: d :: rest => numeral 4 [a, b, c, d] :: hexValues p rest
  | [] => []
  | t => [partialValue p t]

/-- `toHex(s)` (40 R190, R191). -/
def toHex (p : PartialNibble) (bs : BitString) : List Byte := (hexValues p bs).map hexChar

/-- The value of a hex digit character read back (40 R193). -/
def hexDigitValue (ch : Byte) : Nat := if ch.toNat ≤ 0x39 then ch.toNat - 0x30 else ch.toNat - 0x57

/-- A hex digit read back as 4 bits, most significant first (40 R193). -/
def hexDigitBits (ch : Byte) : BitString :=
  [(hexDigitValue ch).testBit 3, (hexDigitValue ch).testBit 2, (hexDigitValue ch).testBit 1,
    (hexDigitValue ch).testBit 0]

/-- A readout word: VALID in bit 8, the character in [7:0] (40 R187). -/
def readoutWord (ch : Byte) : Word := 0x00000100 ||| ch.setWidth 32

/-- A HEX_OUT read while BUSY = 0 (40 R186). -/
def readHexOut (s : State) : Word × State :=
  let chars := toHex s.cfg.partialNibble (s.bits s.outBuf)
  match chars[s.hexpos.toNat]? with
  | some ch => (readoutWord ch, { s with hexpos := s.hexpos + 1 })
  | none => (0x00000000, s)

/-- A BIN_OUT read while BUSY = 0 (40 R188). -/
def readBinOut (s : State) : Word × State :=
  if s.binpos.toNat < (s.len.get s.outBuf).toNat then
    (readoutWord (binChar (s.bufBit s.outBuf s.binpos.toNat)), { s with binpos := s.binpos + 1 })
  else (0x00000000, s)

/-- The append of one bit to buffer `b`: bit LEN[b] of the buffer and no other bit, LEN[b] and the
invalidation (40 R180, 10 R54 (c)). -/
def appendBit (s : State) (b : BufId) (x : Bool) : State :=
  let n := (s.len.get b).toNat
  { s with
    mem := s.mem.writeBit (streamByteAddr b n) (streamBitOfByte n) x
    len := s.len.set b (s.len.get b + 1) }.invalidate b

/-- A CHAR_IN write (40 R180; priority 60 R379): dropped while BUSY or ERR; then the character
check; then the capacity check; then the append. -/
def writeCharIn (s : State) (v : Word) : State :=
  let c : Byte := v.extractLsb' 0 8
  if s.busy || s.err then { s with accRej := true }
  else if c ≠ 0x30 ∧ c ≠ 0x31 then s.raise .invalidBitCharacter v
  else if (s.len.get s.cinBuf).toNat = s.cfg.maxpix then s.raise .capacityExceeded v
  else appendBit s s.cinBuf (c == 0x31)

/-! ### Host-side reference functions (40 R196, R197; 45 R330; 30 R157). The block computes none of
them; a refused call is `none` (log 23). -/

/-- The base-2 numeral of `value` in exactly `width` ASCII digits, most significant first. -/
def binaryDigits : Nat → Nat → List Byte
  | 0, _ => []
  | w + 1, value => binChar (value.testBit w) :: binaryDigits w value

/-- `padBinary(value, width)`; its domain is width ≥ 1 and value < 2^width (40 R196). -/
def padBinary (value width : Nat) : Option (List Byte) :=
  if 1 ≤ width ∧ value < 2 ^ width then some (binaryDigits width value) else none

/-- `padHexByte(value)`; its domain is 0 to 255 (40 R197). -/
def padHexByte (value : Nat) : Option (List Byte) :=
  if value ≤ 255 then some [hexChar (value / 16), hexChar (value % 16)] else none

/-- The decimal digits of a number before the digits `acc`, `fuel` bounding their count. -/
def decimalAux : Nat → Nat → List Byte → List Byte
  | 0, _, acc => acc
  | fuel + 1, n, acc =>
    let acc' := BitVec.ofNat 8 (0x30 + n % 10) :: acc
    if n / 10 = 0 then acc' else decimalAux fuel (n / 10) acc'

/-- Decimal digits with no leading zeros, "0" for zero (45 R330). -/
def decimal (n : Nat) : List Byte := decimalAux (n + 1) n []

/-- The text " of 20000 required" in ASCII (45 R330). -/
def ofRequired : List Byte :=
  [0x20, 0x6f, 0x66, 0x20, 0x32, 0x30, 0x30, 0x30, 0x30, 0x20,
    0x72, 0x65, 0x71, 0x75, 0x69, 0x72, 0x65, 0x64]

/-- The message the host renders for an insufficient stream of VN[b] = `n` bits (45 R330). -/
def insufMessage (n : Nat) : List Byte := decimal n ++ ofRequired

/-- A buffer id in the assembler's text (30 R157). -/
def bufText : BufId → String
  | .rawA => "0"
  | .rawB => "1"
  | .xored => "2"
  | .extracted => "3"

/-- An image in the assembler's text (30 R157). -/
def imageText : Image → String
  | .imageA => "A"
  | .imageB => "B"

/-- The assembler's text of a command, destination first (30 R157). -/
def asmText : Instr → String
  | .nop => "NOP"
  | .extract m d => "EXTRACT " ++ imageText m ++ ", " ++ bufText d
  | .xor a b d => "XOR " ++ bufText d ++ ", " ++ bufText a ++ ", " ++ bufText b
  | .debias a d => "DEBIAS " ++ bufText d ++ ", " ++ bufText a
  | .validate a => "VALIDATE " ++ bufText a
  | .pipeline => "PIPELINE"
  | .clear => "CLEAR"

end Sys2Proof.Machine
end

