-- ==== Sys2Proof/Machine/Port.lean ====
section
/-!
DEFINITION. The host port (20_memory.md): the address map, reads and writes of every location, the
rule of ownership while BUSY = 1, and the host's turn.
-/

namespace Sys2Proof.Machine

/-- The control and status registers (10 R30). -/
inductive Csr where
  | id | version | cap | maxpix | cmd | status | ier | maxwin
  | dimA | dimB | iosel | charIn | hexOut | binOut | hexpos | binpos
  | len (b : BufId) | errinfo
  | vstat (b : BufId) | vn (b : BufId) | vnwin (b : BufId) | vnfail (b : BufId)
deriving DecidableEq, Repr

/-- The CSR map: offset and register (10 R30). -/
def csrMap : List (Nat × Csr) :=
  [ (0x000, .id), (0x004, .version), (0x008, .cap), (0x00C, .maxpix),
    (0x010, .cmd), (0x014, .status), (0x018, .ier), (0x01C, .maxwin),
    (0x020, .dimA), (0x024, .dimB), (0x028, .iosel), (0x02C, .charIn),
    (0x030, .hexOut), (0x034, .binOut), (0x038, .hexpos), (0x03C, .binpos),
    (0x040, .len .rawA), (0x044, .len .rawB), (0x048, .len .xored), (0x04C, .len .extracted),
    (0x050, .errinfo) ] ++
  [ (0x080, .vstat .rawA), (0x084, .vn .rawA), (0x088, .vnwin .rawA), (0x08C, .vnfail .rawA),
    (0x090, .vstat .rawB), (0x094, .vn .rawB), (0x098, .vnwin .rawB), (0x09C, .vnfail .rawB),
    (0x0A0, .vstat .xored), (0x0A4, .vn .xored), (0x0A8, .vnwin .xored), (0x0AC, .vnfail .xored),
    (0x0B0, .vstat .extracted), (0x0B4, .vn .extracted), (0x0B8, .vnwin .extracted),
    (0x0BC, .vnfail .extracted) ]

/-- What a mapped, aligned address names (20 R101). -/
inductive Loc where
  | csr (r : Csr)
  /-- a reserved CSR offset (10 R48) -/
  | reserved
  /-- `PIX[m][k]` -/
  | pixel (m : Image) (k : Nat)
  /-- word `j` of `BUF[b]` -/
  | bufWord (b : BufId) (j : Nat)
  /-- `WRES[b][w][i]` -/
  | record (b : BufId) (w i : Nat)
deriving DecidableEq, Repr

/-- The buffer whose 0x0100_0000-byte window of a region holds offset `off`, if there is one
(20 R101). -/
def windowBuf (off : Nat) : Option BufId :=
  match off / 0x01000000 with
  | 0 => some .rawA
  | 1 => some .rawB
  | 2 => some .xored
  | 3 => some .extracted
  | _ => none

/-- The CSR at an offset, or a reserved one (10 R30, R48). -/
def csrLoc (off : Nat) : Loc :=
  match csrMap.lookup off with
  | some r => .csr r
  | none => .reserved

/-- The pixel word at an offset of PIXA or PIXB (20 R101, R102). -/
def pixelLoc (c : Config) (m : Image) (off : Nat) : Except BusCause Loc :=
  if off < 4 * c.maxpix then .ok (.pixel m (off / 4)) else .error .outOfRange

/-- The buffer word at an offset of the buffer region (20 R101, R102). -/
def bufLoc (c : Config) (off : Nat) : Except BusCause Loc :=
  match windowBuf off with
  | some b =>
    if off % 0x01000000 < c.maxpix / 8 then .ok (.bufWord b (off % 0x01000000 / 4))
    else .error .outOfRange
  | none => .error .outOfRange

/-- The record word at an offset of the record region (20 R101, R102). -/
def recordLoc (c : Config) (off : Nat) : Except BusCause Loc :=
  match windowBuf off with
  | some b =>
    if off % 0x01000000 < 128 * c.maxwin then
      .ok (.record b (off % 0x01000000 / 128) (off % 0x01000000 % 128 / 4))
    else .error .outOfRange
  | none => .error .outOfRange

/-- The location at an aligned address, relative to the block's base (log 22), or why there is none
(20 R101, R102). -/
def locate (c : Config) (addr : Nat) : Except BusCause Loc :=
  if addr < 0x10000000 then
    if addr < 0x100 then .ok (csrLoc addr) else .error .outOfRange
  else if addr < 0x20000000 then pixelLoc c .imageA (addr - 0x10000000)
  else if addr < 0x30000000 then pixelLoc c .imageB (addr - 0x20000000)
  else if addr < 0x40000000 then bufLoc c (addr - 0x30000000)
  else if addr < 0x50000000 then recordLoc c (addr - 0x40000000)
  else .error .unmapped

/-- The location an access names, or the cause of its BUSERR (20 R103, R105). -/
def target (c : Config) (w : Width) (addr : Word) : Except BusCause Loc :=
  if w ≠ .word then .error .width
  else if addr.toNat % 4 ≠ 0 then .error .misaligned
  else locate c addr.toNat

/-- The host-owned registers (20 R111). -/
def Csr.hostOwned : Csr → Bool
  | .id | .version | .cap | .maxpix | .maxwin | .errinfo | .cmd | .status | .ier => true
  | _ => false

/-- The engine-owned locations (20 R112). -/
def Loc.engineOwned : Loc → Bool
  | .csr r => !r.hostOwned
  | .reserved => false
  | .pixel _ _ => true
  | .bufWord _ _ => true
  | .record _ _ _ => true

/-- The word of a window record while BUSY = 0: words 26..31 read 0; the others have a meaning only
while VSTAT[b].VALID = 1 and w < VNWIN[b] (10 R52). Otherwise a word no VALIDATE has written since
reset still holds its draw of the reset, stable until written (10 R57, 93 I6; log 6), and a word that
was written shows any value (93 I9; log 10). Records are written by whole words, so the first byte
tells which. -/
def State.recordWord (s : State) (b : BufId) (w i : Nat) : Word :=
  if 26 ≤ i then 0
  else if ((s.vstat.get b).valid && decide (w < (s.vnwin.get b).toNat)) ||
      !s.mem.written (recordAddr b w i) then
    s.readWord (recordAddr b w i)
  else Config.staleWord s.draws (recordAddr b w i)

/-- A CSR read by the ordinary rules: its value and what the read changes (10 R31 to R48, R58). -/
def State.readCsr (s : State) : Csr → Word × State
  | .id => (0x54524E47, s)
  | .version => (0x00070001, s)
  | .cap => (capWord s.cfg, s)
  | .maxpix => (BitVec.ofNat 32 s.cfg.maxpix, s)
  | .cmd => (s.cmd, s)
  | .status => (s.statusWord, if s.busy then { s with draws := s.draws + 1 } else s)
  | .ier => (s.ierWord, s)
  | .maxwin => (BitVec.ofNat 32 s.cfg.maxwin, s)
  | .dimA => (s.dimA, s)
  | .dimB => (s.dimB, s)
  | .iosel => (s.ioselWord, s)
  | .charIn => (0, s)
  | .hexOut => readHexOut s
  | .binOut => readBinOut s
  | .hexpos => (s.hexpos, s)
  | .binpos => (s.binpos, s)
  | .len b => (s.len.get b, s)
  | .errinfo => (s.errinfo, s)
  | .vstat b => ((s.vstat.get b).word, s)
  | .vn b => (s.vn.get b, s)
  | .vnwin b => (s.vnwin.get b, s)
  | .vnfail b => (s.vnfail.get b, s)

/-- A read by the ordinary rules. -/
def State.readOwn (s : State) : Loc → Word × State
  | .csr r => s.readCsr r
  | .reserved => (0, s)
  | .pixel m k => (s.readWord (pixelAddr m k), s)
  | .bufWord b j => (s.readWord (bufWordAddr b j), s)
  | .record b w i => (s.recordWord b w i, s)

/-- A read of a location: while BUSY = 1 an engine-owned location gives a drawn word and the read
has no other effect (20 R112; logs 8, 11, 12). -/
def State.readLoc (s : State) (l : Loc) : Word × State :=
  if s.busy && l.engineOwned then (Config.busyWord s.draws, { s with draws := s.draws + 1 })
  else s.readOwn l

/-- A LEN write: accepted up to P_MAXPIX with the invalidation, dropped with ACC_REJ above it
(10 R45, R54 (a)). -/
def State.writeLen (s : State) (b : BufId) (v : Word) : State :=
  if v.toNat ≤ s.cfg.maxpix then { s with len := s.len.set b v }.invalidate b
  else { s with accRej := true }

/-- An IOSEL write: both fields, and both positions to 0 (10 R42). -/
def State.writeIosel (s : State) (v : Word) : State :=
  { s with
    cinBuf := .ofField (v.extractLsb' 0 2)
    outBuf := .ofField (v.extractLsb' 8 2)
    hexpos := 0
    binpos := 0 }

/-- A CSR write by the ordinary rules; writes to read-only registers and to the read ports are
ignored (10 R35 to R48). -/
def State.writeCsr (s : State) (v : Word) : Csr → State
  | .cmd => s.writeCmd v
  | .status => s.writeStatus v
  | .ier => { s with doneIe := v.getLsbD 0, errIe := v.getLsbD 1 }
  | .dimA => { s with dimA := v }
  | .dimB => { s with dimB := v }
  | .iosel => s.writeIosel v
  | .charIn => writeCharIn s v
  | .hexpos => { s with hexpos := v }
  | .binpos => { s with binpos := v }
  | .len b => s.writeLen b v
  | .id | .version | .cap | .maxpix | .maxwin | .errinfo => s
  | .hexOut | .binOut => s
  | .vstat _ | .vn _ | .vnwin _ | .vnfail _ => s

/-- A write by the ordinary rules. A buffer word invalidates its buffer (10 R54 (b)); LEN[b] stays
(10 R50); pixel words invalidate nothing; record words are not written (10 R52). -/
def State.writeOwn (s : State) (v : Word) : Loc → State
  | .csr r => s.writeCsr v r
  | .reserved => s
  | .pixel m k => { s with mem := s.mem.writeWord (pixelAddr m k) v }
  | .bufWord b j => { s with mem := s.mem.writeWord (bufWordAddr b j) v }.invalidate b
  | .record _ _ _ => s

/-- A write to a location: while BUSY = 1 a write to an engine-owned location is dropped and sets
ACC_REJ (20 R112). -/
def State.writeLoc (s : State) (l : Loc) (v : Word) : State :=
  if s.busy && l.engineOwned then { s with accRej := true } else s.writeOwn v l

/-- What the host sees of a read: the word joins the words it has read (log 17). -/
def State.observe (p : Word × State) : State := { p.2 with obs := p.1 :: p.2.obs }

/-- One host access (20 R104): BUSERR, a write, or a read whose word the host sees. -/
def State.access (s : State) (a : Access) : Host.Outcome State Fault Refusal :=
  match target s.cfg a.width a.addr with
  | .error c => .fault (.busError c a.addr)
  | .ok l => .next (if a.we then s.writeLoc l a.wdata else State.observe (s.readLoc l))

/-- One turn of the loop `POLL addr, mask, val`: one read; the operation is done when
`(x & mask) = val` and stays for the host's next turn otherwise (30 R158, R159; log 4). -/
def State.pollOnce (s : State) (addr mask val : Word) (rest : List HostOp) :
    Host.Outcome State Fault Refusal :=
  match target s.cfg .word addr with
  | .error c => .fault (.busError c addr)
  | .ok l =>
    let p := s.readLoc l
    .next { State.observe p with
      host := if p.1 &&& mask = val then rest else .poll addr mask val :: rest }

/-- The host's turn: the first operation of its remaining program, in program order (20 R110,
30 R160). A host whose program is at its end does nothing (log 16). -/
def State.hostTurn (s : State) : Host.Outcome State Fault Refusal :=
  match s.host with
  | [] => .next s
  | .access a :: rest => { s with host := rest }.access a
  | .poll addr mask val :: rest => s.pollOnce addr mask val rest

end Sys2Proof.Machine
end

