-- ==== Sys2Proof/Machine/Step.lean ====
section
/-!
DEFINITION. One step of the block: the next event of the one total order of host accesses, engine
steps and resets (20 R113, 00 R19).
-/

namespace Sys2Proof.Machine

/-- The engine's turn: it fetches the latched command and performs its whole step (45 R321). With
nothing pending it is not enabled, and nothing happens (log 16). -/
def State.engineTurn (s : State) : Host.Outcome State Fault Refusal :=
  match s.fetch with
  | .nothing => .next s
  | .command i => exec i s
  | .illegal w => .refused (.illegalPending w)

/-- One step: the turn's owner acts on the state with that turn taken off the schedule. -/
def step (s : State) : Host.Outcome State Fault Refusal :=
  match s.nextTurn with
  | .host => s.takeTurn.hostTurn
  | .engine => s.takeTurn.engineTurn
  | .reset => .next s.takeTurn.applyReset

/-- The state with the command word of `nbits` bits `w` where the engine fetches its next command,
so that the very next step runs it (log 3). -/
def State.withFetchWord (s : State) (nbits w : Nat) : State :=
  s.place (BitVec.ofNat 32 (w % 2 ^ nbits))

end Sys2Proof.Machine
end

