-- ==== Sys2Proof/Machine/BatterySpec.lean ====
section
/-!
DEFINITION. What the battery is to compute, said without a datapath (44 R273, R274, R275, R277, R278,
R280), and the debiaser's rule said pair by pair (43 R251). Statements compare the machine's functions
with these.
-/

namespace Sys2Proof.Machine

/-- The values of the complete nibbles of a window, first bit most significant (44 R274). -/
def nibbles : BitString → List Nat
  | a :: b :: c :: d :: rest =>
    (8 * a.toNat + 4 * b.toNat + 2 * c.toNat + d.toNat) :: nibbles rest
  | _ => []

/-- `f(v)`: how many nibbles have value `v` (44 R274). -/
def nibbleCount (win : BitString) (v : Nat) : Nat := (nibbles win).count v

/-- The runs of a window: its maximal blocks of equal bits, in order (44 R277). -/
def runs (win : BitString) : List BitString := win.splitBy (· == ·)

/-- The lengths of the runs, in order (44 R277). -/
def runLengths (win : BitString) : List Nat := (runs win).map List.length

/-- `RUNB[k]`: the number of runs of length exactly k for k = 1..5, of length ≥ 6 for k = 6, runs of
zeros and of ones in the same bucket (44 R278). -/
def bucketCount (win : BitString) (k : Nat) : Nat :=
  (runLengths win).countP (fun l => if k = 6 then decide (6 ≤ l) else l == k)

/-- `LONGEST`: the length of the longest run (44 R280). -/
def longestRun (win : BitString) : Nat := (runLengths win).foldr max 0

/-- The poker statistic `X = (16/5000)·S − 5000`, exact (44 R275). -/
def pokerX (s : Nat) : Rat := 16 / 5000 * (s : Rat) - 5000

/-- The positions p of the disjoint pairs whose two bits differ, in order (43 R251, R252). -/
def unequalPairs (bs : BitString) : List Nat :=
  (List.range (bs.length / 2)).filter
    (fun p => bs.getD (2 * p) false != bs.getD (2 * p + 1) false)

end Sys2Proof.Machine
end

