-- ==== Sys2Proof/Safety.lean ====
section
/-!
DEFINITION. What counts as a safe run, in the terms the statements use: the invariants of the block,
and the stops a step may make.
-/

namespace Sys2Proof.Machine

/-- The invariant of the block. It holds after reset and every step keeps it. -/
structure State.Inv (s : State) : Prop where
  /-- the build parameters meet 00 R11 -/
  build : s.cfg.wf = true
  /-- the byte store is in its canonical form (log 7) -/
  memory : s.mem.wf
  /-- BUSY is 1 exactly while a command is latched (45 R320, R321) -/
  busyPend : s.busy = s.pend.isSome
  /-- "When BUSY = 0, STAGE = 0" (10 R38) -/
  idleStage : s.busy = false → s.stage = .idle
  /-- a latched word is legal, is the CMD read-back, and was latched with DONE and ERR at 0, its
  stage, and, unless it is NOP, REPORT_VALID at 0 (45 R320, 60 R380) -/
  pending : ∀ w, s.pend = some w →
    legal w = true ∧ s.cmd = w ∧ s.done = false ∧ s.err = false ∧ s.stage = acceptedStage w ∧
      (opField w ≠ 0x00 → s.reportValid = false)
  /-- CMD holds an accepted word, which is legal (10 R35) -/
  readback : legal s.cmd = true
  /-- "0 when ERR = 0" for ERRCODE (10 R36) and ERRINFO (10 R58) -/
  noError : s.err = false → s.errcode = .none ∧ s.errinfo = 0
  /-- ERR comes with a code (60 R377) -/
  error : s.err = true → s.errcode ≠ .none
  /-- no LEN exceeds P_MAXPIX (10 R45, 60 R375) -/
  lengths : ∀ b, (s.len.get b).toNat ≤ s.cfg.maxpix

/-- The result registers and window records of buffer `b` are those of a VALIDATE of the current
contents of `BUF[b]` (10 R46, R54; 44 R285). -/
def State.Described (s : State) (b : BufId) : Prop :=
  s.vn.get b = s.len.get b ∧
  if (s.bits b).length < windowBits then
    s.vstat.get b = ⟨true, false, true⟩ ∧ s.vnwin.get b = 0 ∧ s.vnfail.get b = 0
  else
    s.vstat.get b = ⟨true, (windowResults (s.bits b)).all (·.winPass), false⟩ ∧
    s.vnwin.get b = BitVec.ofNat 32 ((s.bits b).length / windowBits) ∧
    s.vnfail.get b = BitVec.ofNat 32 ((windowResults (s.bits b)).countP (fun r => !r.winPass)) ∧
    ∀ w, w < (s.bits b).length / windowBits → ∀ i, i < 32 →
      s.readWord (recordAddr b w i) = (windowTests (window (s.bits b) w)).words.getD i 0

/-- "So a valid result always describes the current content of its buffer" (10 R54). -/
def State.ResultsDescribed (s : State) : Prop :=
  ∀ b, (s.vstat.get b).valid = true → s.Described b

/-- While REPORT_VALID = 1 the report is complete (45 R326): XORed is the exclusive-or of the raw
streams, extracted is the debiased XORed stream, and all four results are valid. -/
def State.ReportSound (s : State) : Prop :=
  s.reportValid = true →
    s.len.get .rawA = s.len.get .rawB ∧
    s.bits .xored = xorBits (s.bits .rawA) (s.bits .rawB) ∧
    s.bits .extracted = vonNeumann (s.bits .xored) ∧
    ∀ b, (s.vstat.get b).valid = true

/-- The byte at a host address belongs to a mapped memory word: a pixel, a buffer word or a window
record (20 R101). -/
def mappedMemory (c : Config) (a : Nat) : Bool :=
  match locate c (a - a % 4) with
  | .ok (.pixel _ _) => true
  | .ok (.bufWord _ _) => true
  | .ok (.record _ _ _) => true
  | _ => false

/-- The stops a safe run may make: none but a host access's BUSERR (60 R384). -/
def SafeOutcome : Host.Outcome State Fault Refusal → Prop
  | .next _ => True
  | .fault (.busError _ _) => True
  | .refused _ => False

end Sys2Proof.Machine
end

