-- ==== Sys2Proof/Certificates/Slice0/Obligations.lean ====
section
/-!
DEFINITION. The statements for the provers. A state `t` that equals `{ s with … }` but for the named
fields says the frame: every field not named is unchanged. Memory frames are said byte by byte. The
fields memDraw, draws, host, sched and obs are the model's own (logs 2, 3, 6, 8, 17), not the block's:
statements leave draws free, and `obs := x :: s.obs` says that a read returned the word x.
-/

open Sys2Proof Sys2Proof.Machine

/-! ### Encoding -/

/-- Decoding and encoding agree on every word and every instruction: a word decodes to `i` exactly
when it is `i`'s command word (30 R150, R154, R156). -/
def Obligations.DecodeExactlyInvertsEncode : Prop :=
  ∀ (w : Word) (i : Instr), decode w = .ok i ↔ encode i = w

/-- 30 R154: legality by fields, by the table's match and mask (one row only), and what an illegal
word that would otherwise be accepted does. -/
def Obligations.LegalWordsAreTheTableWords : Prop :=
  ∀ w : Word,
    legal w = (Command.ofWord w).legal ∧
    (legal w = true ↔ ∃ r ∈ opcodeRows, r.matchesWord w = true) ∧
    (∀ r ∈ opcodeRows, ∀ q ∈ opcodeRows, r.matchesWord w = true → q.matchesWord w = true → r = q) ∧
    (legal w = false → ∀ s : State, s.busy = false → s.err = false →
      s.writeCmd w = { s with err := true, errcode := .illegalCommand, errinfo := w })

/-- The command words the spec writes out (30 R156; 95_test_vectors.md section 2.1) decode to the
commands they stand for, and its illegal words do not decode. -/
def Obligations.SpecWordsDecodeAsWritten : Prop :=
  decodeTableWord 32 0x00000000 = some .nop ∧
  decodeTableWord 32 0x00000001 = some (.extract .imageA .rawA) ∧
  decodeTableWord 32 0x00010101 = some (.extract .imageB .rawB) ∧
  decodeTableWord 32 0x00021002 = some (.xor .rawA .rawB .xored) ∧
  decodeTableWord 32 0x00030203 = some (.debias .xored .extracted) ∧
  decodeTableWord 32 0x00000304 = some (.validate .extracted) ∧
  decodeTableWord 32 0x00000005 = some .pipeline ∧
  decodeTableWord 32 0x00000006 = some .clear ∧
  decodeTableWord 32 0x00000007 = none ∧
  decodeTableWord 32 0x00000201 = none ∧
  decodeTableWord 32 0x00031203 = none ∧
  decodeTableWord 32 0x80000000 = none

/-! ### Reset and the step -/

/-- The invariants hold right after reset, for every build that meets 00 R11. -/
def Obligations.ResetStateMeetsTheInvariants : Prop :=
  (∀ c : Config, c.wf = true →
    (State.resetOf c).Inv ∧ (State.resetOf c).ResultsDescribed ∧ (State.resetOf c).ReportSound) ∧
  State.reset.Inv

/-- 70 R400, R401: the reset input, idle or busy. -/
def Obligations.ResetInputRestoresResetValues : Prop :=
  ∀ s : State, s.nextTurn = .reset → ∃ t, step s = .next t ∧
    t.cmd = 0 ∧ t.busy = false ∧ t.done = false ∧ t.err = false ∧ t.reportValid = false ∧
    t.cmdRej = false ∧ t.accRej = false ∧ t.errcode = .none ∧ t.stage = .idle ∧
    t.statusWord = 0 ∧ t.doneIe = false ∧ t.errIe = false ∧ t.irq = false ∧
    t.dimA = 0 ∧ t.dimB = 0 ∧ t.cinBuf = .rawA ∧ t.outBuf = .rawA ∧ t.ioselWord = 0 ∧
    t.hexpos = 0 ∧ t.binpos = 0 ∧ t.errinfo = 0 ∧ t.pend = none ∧
    (∀ b, t.len.get b = 0 ∧ (t.vstat.get b).word = 0 ∧ t.vn.get b = 0 ∧ t.vnwin.get b = 0 ∧
      t.vnfail.get b = 0) ∧
    t.cfg = s.cfg

/-- After the reset input every byte of memory, window records included, is a drawn one, of a draw not used before (70 R400: "a
model draws each one"; that the draws are numbered, and which one comes next, is the model's choice:
logs 6, 18), and the host's program, turns and read words stay (log 18). -/
def Obligations.ResetInputForgetsTheMemories : Prop :=
  ∀ s : State, s.nextTurn = .reset → ∃ t, step s = .next t ∧
    (∀ a, t.readByte a = Config.unwrittenByte t.memDraw a) ∧ t.memDraw = s.memDraw + 1 ∧
    (∀ b w i, i < 26 → t.recordWord b w i = t.readWord (recordAddr b w i)) ∧
    t.host = s.host ∧ t.sched = s.sched.tail ∧ t.obs = s.obs

/-- A step runs the command that is latched and decodes, wherever the turn is the engine's
(45 R321); a word placed by withFetchWord is what the very next step runs (log 3). -/
def Obligations.StepRunsTheLatchedCommand : Prop :=
  (∀ (s : State) (w : Word) (i : Instr), s.pend = some w → decode w = .ok i →
    (s.sched = [] → step s = exec i s) ∧
    (∀ ts, s.sched = .engine :: ts → step s = exec i { s with sched := ts })) ∧
  (∀ (s : State) (w : Word) (i : Instr), decode w = .ok i →
    step (s.withFetchWord 32 w.toNat) = exec i (s.withFetchWord 32 w.toNat) ∧
    (s.withFetchWord 32 w.toNat).pend = some w)

/-- The host's turn: the first operation of its program, POLL one read at a time, with BUSERR where
its address names no location (60 R384; the cause is the model's: log 5); turns with nothing to do
(20 R110, 30 R158, R159; logs 2, 4, 16). -/
def Obligations.HostTurnRunsTheNextOperation : Prop :=
  ∀ s : State,
    (s.nextTurn = .engine → s.pend = none → step s = .next { s with sched := s.sched.tail }) ∧
    (s.nextTurn = .host → s.host = [] → step s = .next { s with sched := s.sched.tail }) ∧
    (s.nextTurn = .host → ∀ a rest, s.host = .access a :: rest →
      step s = { s with sched := s.sched.tail, host := rest }.access a) ∧
    (s.nextTurn = .host → ∀ addr mask val rest l, s.host = .poll addr mask val :: rest →
      target s.cfg .word addr = .ok l →
      let p := { s with sched := s.sched.tail }.readLoc l
      step s = .next { p.2 with
        obs := p.1 :: s.obs
        host := if p.1 &&& mask = val then rest else .poll addr mask val :: rest }) ∧
    (s.nextTurn = .host → ∀ addr mask val rest, s.host = .poll addr mask val :: rest →
      (∀ c, target s.cfg .word addr = .error c → step s = .fault (.busError c addr)) ∧
      (addr.toNat % 4 ≠ 0 → step s = .fault (.busError .misaligned addr)))

/-- Every step keeps the invariant. -/
def Obligations.EveryStepKeepsTheInvariant : Prop :=
  ∀ s t : State, s.Inv → step s = .next t → t.Inv

/-- 10 R54: every step keeps "a valid result always describes the current content of its buffer". -/
def Obligations.EveryStepKeepsValidResultsDescribed : Prop :=
  ∀ s t : State, s.Inv → s.ResultsDescribed → step s = .next t → t.ResultsDescribed

/-- 45 R326: every step keeps the report complete while REPORT_VALID = 1. -/
def Obligations.EveryStepKeepsTheReportSound : Prop :=
  ∀ s t : State, s.Inv → s.ReportSound → step s = .next t → t.ReportSound

/-- A step of a state that meets the invariant stops only with a BUSERR, and only in the host's turn
(60 R384). -/
def Obligations.OnlyHostBusErrorsStopTheBlock : Prop :=
  ∀ s : State, s.Inv →
    SafeOutcome (step s) ∧
    (∀ f, step s = .fault f → s.nextTurn = .host) ∧
    (s.nextTurn = .engine → ∃ t, step s = .next t) ∧
    (s.nextTurn = .reset → ∃ t, step s = .next t)

/-- No step changes a build parameter (00 R9 to R11, 10 R33). -/
def Obligations.NoStepChangesTheBuild : Prop :=
  ∀ s t : State, step s = .next t → t.cfg = s.cfg

/-- Every index the engine and the host write with is in range: a byte outside the mapped memories
never changes (20 R119, R101), but for a reset's fresh draw. -/
def Obligations.OnlyMappedMemoryIsWritten : Prop :=
  ∀ s t : State, s.Inv → step s = .next t → s.nextTurn ≠ .reset →
    ∀ a, mappedMemory s.cfg a = false → t.readByte a = s.readByte a

/-! ### The commands -/

/-- 45 R327: NOP. -/
def Obligations.NopOnlyCompletes : Prop :=
  decode 0x00000000 = .ok .nop ∧
  (∀ s : State, ∃ k, exec .nop s = .next { s with
    done := true, busy := false, stage := .idle, pend := none, draws := k }) ∧
  (∀ s : State, s.busy = false → s.err = false → ∃ k,
    exec .nop (s.writeCmd 0x00000000) = .next { s with
      cmd := 0x00000000, done := true, stage := .idle, pend := none, draws := k })

/-- 41 R210, R211: EXTRACT, with its frame and its error. -/
def Obligations.ExtractStoresTheLsbStream : Prop :=
  ∀ (m : Image) (d : BufId) (s : State), s.mem.wf →
    let n := dimWidth (s.dim m) * dimHeight (s.dim m)
    let w := BitVec.ofNat 32 (0x01 + 0x100 * m.field.toNat + 0x10000 * bufIndex d)
    decode w = .ok (.extract m d) ∧
    (s.cfg.maxpix < n → ∃ k, exec (.extract m d) s = .next { s with
      err := true, errcode := .capacityExceeded, errinfo := w
      busy := false, stage := .idle, pend := none, draws := k }) ∧
    (n ≤ s.cfg.maxpix → ∃ t, exec (.extract m d) s = .next t ∧
      t = { s with
        mem := t.mem
        len := s.len.set d (BitVec.ofNat 32 n)
        vstat := s.vstat.set d { s.vstat.get d with valid := false }
        reportValid := false
        done := true, busy := false, stage := .idle, pend := none, draws := t.draws } ∧
      (t.len.get d).toNat = n ∧
      (∀ k, k < n → t.bufBit d k =
        (s.readWord (pixelAddr m k)).getLsbD (8 * channelCode s.cfg.channel)) ∧
      (∀ i, n ≤ i → i / 32 < (n + 31) / 32 → t.bufBit d i = false) ∧
      (∀ a, a < bufBase d ∨ bufBase d + 4 * ((n + 31) / 32) ≤ a → t.readByte a = s.readByte a))

/-- 41 R217: "Only the LSB of the selected byte is read." -/
def Obligations.ExtractReadsOnlyTheTappedBits : Prop :=
  ∀ (m : Image) (d : BufId) (s t : State), s.mem.wf → t.mem.wf → s.cfg = t.cfg →
    s.dim m = t.dim m → pixelCount (s.dim m) ≤ s.cfg.maxpix →
    (∀ k, k < pixelCount (s.dim m) →
      (s.readWord (pixelAddr m k)).getLsbD (8 * channelCode s.cfg.channel) =
        (t.readWord (pixelAddr m k)).getLsbD (8 * channelCode t.cfg.channel)) →
    ∃ s' t', exec (.extract m d) s = .next s' ∧ exec (.extract m d) t = .next t' ∧
      s'.len.get d = t'.len.get d ∧ s'.bits d = t'.bits d

/-- 42 R230: XOR, aliased or not, with its frame and its error. -/
def Obligations.XorStoresTheExclusiveOr : Prop :=
  ∀ (a b d : BufId) (s : State), s.mem.wf →
    let n := (s.len.get a).toNat
    let w := BitVec.ofNat 32
      (0x02 + 0x100 * bufIndex a + 0x1000 * bufIndex b + 0x10000 * bufIndex d)
    decode w = .ok (.xor a b d) ∧
    (s.len.get a ≠ s.len.get b → ∃ k, exec (.xor a b d) s = .next { s with
      err := true, errcode := .lengthMismatch, errinfo := w
      busy := false, stage := .idle, pend := none, draws := k }) ∧
    (s.len.get a = s.len.get b → ∃ t, exec (.xor a b d) s = .next t ∧
      t = { s with
        mem := t.mem
        len := s.len.set d (s.len.get a)
        vstat := s.vstat.set d { s.vstat.get d with valid := false }
        reportValid := false
        done := true, busy := false, stage := .idle, pend := none, draws := t.draws } ∧
      (∀ i, i < n → t.bufBit d i = (s.bufBit a i ^^ s.bufBit b i)) ∧
      (∀ i, n ≤ i → i / 32 < (n + 31) / 32 → t.bufBit d i = false) ∧
      (∀ x, x < bufBase d ∨ bufBase d + 4 * ((n + 31) / 32) ≤ x → t.readByte x = s.readByte x))

/-- 42 R233: the laws of the codec's xor. -/
def Obligations.XorPreservesLengthAndCancels : Prop :=
  ∀ a b : BitString, a.length = b.length →
    (xorBits a b).length = a.length ∧ xorBits a (xorBits a b) = b ∧
      xorBits a a = List.replicate a.length false

/-- 43 R250: DEBIAS, aliased or not, with its frame. It raises no error. -/
def Obligations.DebiasStoresTheUnequalPairs : Prop :=
  ∀ (a d : BufId) (s : State), s.mem.wf →
    let out := (unequalPairs (s.bits a)).map (fun p => (s.bits a).getD (2 * p) false)
    let n := out.length
    decode (BitVec.ofNat 32 (0x03 + 0x100 * bufIndex a + 0x10000 * bufIndex d)) =
      .ok (.debias a d) ∧
    ∃ t, exec (.debias a d) s = .next t ∧
      t = { s with
        mem := t.mem
        len := s.len.set d (BitVec.ofNat 32 n)
        vstat := s.vstat.set d { s.vstat.get d with valid := false }
        reportValid := false
        done := true, busy := false, stage := .idle, pend := none, draws := t.draws } ∧
      t.bits d = out ∧
      (∀ i, n ≤ i → i / 32 < (n + 31) / 32 → t.bufBit d i = false) ∧
      (∀ x, x < bufBase d ∨ bufBase d + 4 * ((n + 31) / 32) ≤ x → t.readByte x = s.readByte x)

/-- 43 R251, R252: the emitted bits are the first bits of the unequal pairs, in order, and there are
at most half as many as input bits. -/
def Obligations.DebiasKeepsFirstBitsOfUnequalPairs : Prop :=
  ∀ bs : BitString,
    vonNeumann bs = (unequalPairs bs).map (fun p => bs.getD (2 * p) false) ∧
    (vonNeumann bs).length = (unequalPairs bs).length ∧
    (vonNeumann bs).length ≤ bs.length / 2

/-- 44 R285: VALIDATE, with its frame. It raises no error. -/
def Obligations.ValidateWritesVerdictAndRecords : Prop :=
  ∀ (a : BufId) (s : State), s.mem.wf → (s.len.get a).toNat ≤ 2 ^ 24 →
    let bs := s.bits a
    let nw := bs.length / 20000
    let fails := ((List.range nw).map
      (fun w => windowTests ((bs.drop (20000 * w)).take 20000))).countP (fun r => !r.winPass)
    decode (BitVec.ofNat 32 (0x04 + 0x100 * bufIndex a)) = .ok (.validate a) ∧
    ∃ t, exec (.validate a) s = .next t ∧
      t = { s with
        mem := t.mem
        vstat := s.vstat.set a (t.vstat.get a)
        vn := s.vn.set a (s.len.get a)
        vnwin := s.vnwin.set a (BitVec.ofNat 32 nw)
        vnfail := s.vnfail.set a (BitVec.ofNat 32 fails)
        done := true, busy := false, stage := .idle, pend := none, draws := t.draws } ∧
      (bs.length < 20000 → t.vstat.get a = ⟨true, false, true⟩ ∧ t.mem = s.mem) ∧
      (20000 ≤ bs.length → t.vstat.get a = ⟨true, fails == 0, false⟩) ∧
      (∀ w, w < nw → ∀ i, i < 32 → t.readWord (recordAddr a w i) =
        (windowTests ((bs.drop (20000 * w)).take 20000)).words.getD i 0) ∧
      (∀ x, x < wresBase a ∨ wresBase a + 128 * nw ≤ x → t.readByte x = s.readByte x)

/-- 45 R328: CLEAR, with its frame. -/
def Obligations.ClearEmptiesStreamsAndResults : Prop :=
  decode 0x00000006 = .ok .clear ∧
  ∀ s : State, ∃ t, exec .clear s = .next t ∧
    t = { s with
      len := t.len, vstat := t.vstat, vn := t.vn, vnwin := t.vnwin, vnfail := t.vnfail
      hexpos := 0, binpos := 0
      done := true, busy := false, stage := .idle, pend := none, draws := t.draws } ∧
    ∀ b, t.len.get b = 0 ∧ t.vstat.get b = ⟨false, false, false⟩ ∧ t.vn.get b = 0 ∧
      t.vnwin.get b = 0 ∧ t.vnfail.get b = 0

/-- 45 R323: PIPELINE, its two errors, its four streams, four results and report, with its frame. -/
def Obligations.PipelineBuildsTheReport : Prop :=
  ∀ s : State, s.cfg.wf = true → s.mem.wf →
    let n := dimWidth s.dimA * dimHeight s.dimA
    let lsbs := fun m => (List.range n).map
      (fun k => (s.readWord (pixelAddr m k)).getLsbD (8 * channelCode s.cfg.channel))
    decode 0x00000005 = .ok .pipeline ∧
    (s.dimA ≠ s.dimB → ∃ k, exec .pipeline s = .next { s with
      err := true, errcode := .mismatchedImageDimensions, errinfo := 0x00000005
      busy := false, stage := .idle, pend := none, draws := k }) ∧
    (s.dimA = s.dimB → s.cfg.maxpix < n → ∃ k, exec .pipeline s = .next { s with
      err := true, errcode := .capacityExceeded, errinfo := 0x00000005
      busy := false, stage := .idle, pend := none, draws := k }) ∧
    (s.dimA = s.dimB → n ≤ s.cfg.maxpix → ∃ t, exec .pipeline s = .next t ∧
      t = { s with
        mem := t.mem, len := t.len, vstat := t.vstat, vn := t.vn, vnwin := t.vnwin
        vnfail := t.vnfail
        reportValid := true
        done := true, busy := false, stage := .idle, pend := none, draws := t.draws } ∧
      t.bits .rawA = lsbs .imageA ∧
      t.bits .rawB = lsbs .imageB ∧
      t.bits .xored = xorBits (lsbs .imageA) (lsbs .imageB) ∧
      t.bits .extracted = vonNeumann (xorBits (lsbs .imageA) (lsbs .imageB)) ∧
      (∀ b, (t.vstat.get b).valid = true ∧ t.Described b) ∧
      (∀ b i, (t.len.get b).toNat ≤ i → i / 32 < ((t.len.get b).toNat + 31) / 32 →
        t.bufBit b i = false) ∧
      (∀ x, (∀ b, (x < bufBase b ∨ bufBase b + 4 * (((t.len.get b).toNat + 31) / 32) ≤ x) ∧
          (x < wresBase b ∨ wresBase b + 128 * ((t.len.get b).toNat / 20000) ≤ x)) →
        t.readByte x = s.readByte x))

/-- 45 R329: "A PIPELINE that raises a fatal error leaves REPORT_VALID = 0", and every buffer, LEN
and result register as it was. -/
def Obligations.FailedPipelineLeavesNoPartialReport : Prop :=
  ∀ s t : State, s.Inv → s.nextTurn = .engine → s.pend = some 0x00000005 →
    step s = .next t → t.err = true →
      t.reportValid = false ∧ t.mem = s.mem ∧ t.len = s.len ∧ t.vstat = s.vstat ∧ t.vn = s.vn ∧
        t.vnwin = s.vnwin ∧ t.vnfail = s.vnfail ∧ t.done = false

/-! ### The battery -/

/-- 44 R281: the accumulator datapath equals the rules R273, R274, R275, R278 and R280 on every
window; and the record it gives holds the verdicts of R271, R273, R276, R279 and R280 and the
statistics where R282 and 10 R52 put them. -/
def Obligations.DatapathEqualsTheBatteryRules : Prop :=
  ∀ win : BitString, win.length = 20000 →
    let r := windowTests win
    let word := fun i => r.words.getD i 0
    let flag := fun j => (word 0).getLsbD j
    let within := fun lo k hi => decide (lo ≤ bucketCount win k ∧ bucketCount win k ≤ hi)
    let ones := win.count true
    let sq := ((List.range 16).map (fun v => nibbleCount win v ^ 2)).sum
    (r.ones = ones ∧ r.f = (List.range 16).map (nibbleCount win) ∧ r.s = sq ∧
      r.runb = (List.range 6).map (fun k => bucketCount win (k + 1)) ∧
      r.longest = longestRun win) ∧
    (flag 0 = decide (9725 < ones ∧ ones < 10275) ∧
      flag 1 = decide (1563176 ≤ sq ∧ sq ≤ 1576928) ∧
      flag 2 = (within 2315 1 2685 && within 1114 2 1386 && within 527 3 723 && within 240 4 384 &&
        within 103 5 209 && within 103 6 209) ∧
      flag 3 = decide (longestRun win < 26) ∧
      flag 4 = (flag 0 && flag 1 && flag 2 && flag 3) ∧ r.winPass = flag 4 ∧
      flag 5 = within 2315 1 2685 ∧ flag 6 = within 1114 2 1386 ∧ flag 7 = within 527 3 723 ∧
      flag 8 = within 240 4 384 ∧ flag 9 = within 103 5 209 ∧ flag 10 = within 103 6 209 ∧
      ∀ j, 11 ≤ j → flag j = false) ∧
    (word 1).toNat = ones ∧ (word 2).toNat = sq ∧ (word 3).toNat = longestRun win ∧
    (∀ k, 1 ≤ k → k ≤ 6 → (word (3 + k)).toNat = bucketCount win k) ∧
    (∀ v, v < 16 → (word (10 + v)).toNat = nibbleCount win v) ∧
    (∀ i, 26 ≤ i → i < 32 → word i = 0) ∧ r.words.length = 32

/-- 44 R277: the runs split a window, in order, into blocks of equal bits; neighbours differ. -/
def Obligations.RunsSplitTheWindow : Prop :=
  ∀ win : BitString,
    (runs win).flatten = win ∧
    (∀ r ∈ runs win, r ≠ [] ∧ ∀ x ∈ r, ∀ y ∈ r, x = y) ∧
    (∀ i, i + 1 < (runs win).length →
      ((runs win).getD i []).getLast? ≠ ((runs win).getD (i + 1) []).head?) ∧
    (runLengths win).sum = win.length

/-- 44 R288: no window can pass, so no buffer does. -/
def Obligations.NoWindowCanPass : Prop :=
  (∀ win : BitString, win.length = 20000 →
    (runsPass (windowTests win).runb && longPass (windowTests win).longest) = false ∧
      (windowTests win).winPass = false) ∧
  (∀ (a : BufId) (s : State), ∃ t, exec (.validate a) s = .next t ∧
    (t.vstat.get a).passed = false ∧ t.vnfail.get a = t.vnwin.get a)

/-- 44 R276: the integer comparator is the exact rational test, and S = 1,563,175 gives exactly
2.16. -/
def Obligations.PokerComparatorIsExact : Prop :=
  (∀ s : Nat,
    (pokerPass s = true ↔ (216 / 100 : Rat) < pokerX s ∧ pokerX s < (4617 / 100 : Rat)) ∧
    pokerX s = (16 * (s : Rat) - 25000000) / 5000 ∧
    ((216 / 100 : Rat) < pokerX s ↔ 25010800 < 16 * s) ∧ (25010800 < 16 * s ↔ 1563176 ≤ s) ∧
    (pokerX s < (4617 / 100 : Rat) ↔ 16 * s < 25230850) ∧ (16 * s < 25230850 ↔ s ≤ 1576928) ∧
    pokerPass s = (decide (1563176 ≤ s) && decide (s ≤ 1576928))) ∧
  pokerX 1563175 = 216 / 100 ∧ pokerPass 1563175 = false

/-- 44 R284: the bounds that let every count fit its register. -/
def Obligations.WindowCountsStayInTheirWidths : Prop :=
  ∀ win : BitString, win.length = 20000 →
    let r := windowTests win
    r.ones ≤ 20000 ∧ r.f.sum = 5000 ∧ (∀ c ∈ r.f, c ≤ 5000) ∧
    1562504 ≤ r.s ∧ r.s ≤ 25000000 ∧ 1 ≤ r.longest ∧ r.longest ≤ 20000 ∧
    (∀ c ∈ r.runb, c ≤ 20000) ∧ r.runb.sum ≤ 20000

/-- 44 R286: the validations of two buffers give the same state in either order. -/
def Obligations.ValidationsCommute : Prop :=
  ∀ (s : State) (a b : BufId), s.Inv → a ≠ b →
    (s.validateBuffer a).validateBuffer b = (s.validateBuffer b).validateBuffer a

/-! ### Errors and flags -/

/-- 60 R377, with the codes of R371: raising an error, in an engine step, a CMD write or a CHAR_IN
write, changes nothing but ERR, ERRCODE, ERRINFO and, in an engine step, what ends the command. -/
def Obligations.RaisedErrorsArePrecise : Prop :=
  (∀ (i : Instr) (s t : State), exec i s = .next t → s.err = false → t.err = true →
    ∃ e, ((e = .lengthMismatch ∧ ∃ a b d, i = .xor a b d) ∨
        (e = .mismatchedImageDimensions ∧ i = .pipeline) ∨
        (e = .capacityExceeded ∧ (i = .pipeline ∨ ∃ m d, i = .extract m d))) ∧
      t = { s with
        err := true, errcode := e, errinfo := encode i
        busy := false, stage := .idle, pend := none, draws := t.draws }) ∧
  (∀ (s : State) (v : Word), s.err = false → (s.writeCmd v).err = true →
    s.writeCmd v = { s with err := true, errcode := .illegalCommand, errinfo := v }) ∧
  (∀ (s : State) (v : Word), s.err = false → (writeCharIn s v).err = true →
    ∃ e, (e = .invalidBitCharacter ∨ e = .capacityExceeded) ∧
      writeCharIn s v = { s with err := true, errcode := e, errinfo := v })

/-- 60 R380: an error never overwrites an earlier unacknowledged one. -/
def Obligations.ErrorsAreNeverOverwritten : Prop :=
  ∀ s t : State, s.Inv → s.err = true → step s = .next t → t.err = true →
    t.errcode = s.errcode ∧ t.errinfo = s.errinfo

/-- 45 R321, 60 R386: an engine step that performs a command ends it and sets exactly one of DONE and
ERR. -/
def Obligations.EngineStepSetsDoneOrErr : Prop :=
  ∀ (s : State) (w : Word), s.Inv → s.nextTurn = .engine → s.pend = some w →
    ∃ t, step s = .next t ∧ t.done = !t.err ∧ t.busy = false ∧ t.stage = .idle ∧ t.pend = none

/-- 10 R37: a STATUS write acts field by field, BUSY or not. -/
def Obligations.StatusWriteClearsFieldByField : Prop :=
  ∀ (s : State) (v : Word),
    s.access ⟨true, .word, 0x00000014, v⟩ = .next { s with
      done := s.done && !v.getLsbD 1
      err := s.err && !v.getLsbD 2
      errcode := if v.getLsbD 2 then .none else s.errcode
      errinfo := if v.getLsbD 2 then 0 else s.errinfo
      cmdRej := s.cmdRej && !v.getLsbD 4
      accRej := s.accRej && !v.getLsbD 5 }

/-- 10 R36: where the fields of STATUS stand, with the error codes of 60 R371. -/
def Obligations.StatusReadShowsTheFields : Prop :=
  ∀ s : State,
    s.statusWord.getLsbD 0 = s.busy ∧ s.statusWord.getLsbD 1 = s.done ∧
    s.statusWord.getLsbD 2 = s.err ∧ s.statusWord.getLsbD 3 = s.reportValid ∧
    s.statusWord.getLsbD 4 = s.cmdRej ∧ s.statusWord.getLsbD 5 = s.accRej ∧
    s.statusWord.getLsbD 6 = false ∧ s.statusWord.getLsbD 7 = false ∧
    s.statusWord.extractLsb' 8 4 =
      (match s.errcode with
        | .none => 0
        | .lengthMismatch => 1
        | .mismatchedImageDimensions => 2
        | .invalidBitCharacter => 3
        | .illegalCommand => 4
        | .capacityExceeded => 5) ∧
    s.statusWord.extractLsb' 12 4 = s.shownStage ∧
    s.statusWord.extractLsb' 16 16 = 0

/-- 10 R38: the stage a STATUS read shows; while BUSY = 1 a draw over the stages of the running
command (log 9). -/
def Obligations.StageReadIsAStageOfTheRunningCommand : Prop :=
  ∀ s : State, s.Inv →
    (s.busy = false → s.shownStage = 0) ∧
    (∀ w, s.pend = some w → w ≠ 0x00000005 → s.shownStage = 7) ∧
    (s.pend = some 0x00000005 → 1 ≤ s.shownStage.toNat ∧ s.shownStage.toNat ≤ 6)

/-- 45 R320: a CMD write is dropped, rejected as illegal, or accepted. -/
def Obligations.CommandWriteIsDroppedRejectedOrAccepted : Prop :=
  ∀ (s : State) (v : Word),
    (s.busy = true ∨ s.err = true →
      s.access ⟨true, .word, 0x00000010, v⟩ = .next { s with cmdRej := true }) ∧
    (s.busy = false → s.err = false → legal v = false →
      s.access ⟨true, .word, 0x00000010, v⟩ =
        .next { s with err := true, errcode := .illegalCommand, errinfo := v }) ∧
    (s.busy = false → s.err = false → legal v = true →
      s.access ⟨true, .word, 0x00000010, v⟩ = .next { s with
        cmd := v
        done := false
        reportValid := if v.extractLsb' 0 8 = 0x00 then s.reportValid else false
        busy := true
        stage := if v.extractLsb' 0 8 = 0x05 then .check else .single
        pend := some v })

/-- 60 R385: the interrupt output. -/
def Obligations.InterruptFollowsDoneAndErr : Prop :=
  (∀ s : State, s.irq =
    ((s.statusWord.getLsbD 1 && s.ierWord.getLsbD 0) ||
      (s.statusWord.getLsbD 2 && s.ierWord.getLsbD 1))) ∧
  (∀ s : State, ∃ t, s.access ⟨true, .word, 0x00000014, 0x00000006⟩ = .next t ∧ t.irq = false) ∧
  (∀ s : State, ∃ t, s.access ⟨true, .word, 0x00000018, 0x00000000⟩ = .next t ∧ t.irq = false) ∧
  (∀ (s : State) (v : Word), s.busy = false → s.err = false → legal v = true →
    ∃ t, s.access ⟨true, .word, 0x00000010, v⟩ = .next t ∧ t.irq = false)

/-! ### The host port -/

/-- 20 R101, R102: the address map, region by region, and nothing else mapped. -/
def Obligations.AddressMapIsExact : Prop :=
  ∀ c : Config, c.wf = true →
    (∀ p ∈ csrMap, target c .word (BitVec.ofNat 32 p.1) = .ok (.csr p.2)) ∧
    (∀ m k, k < c.maxpix → target c .word (BitVec.ofNat 32 (pixelAddr m k)) = .ok (.pixel m k)) ∧
    (∀ b j, j < c.maxpix / 32 →
      target c .word (BitVec.ofNat 32 (bufWordAddr b j)) = .ok (.bufWord b j)) ∧
    (∀ b w i, w < c.maxpix / 20000 → i < 32 →
      target c .word (BitVec.ofNat 32 (recordAddr b w i)) = .ok (.record b w i)) ∧
    (∀ addr l, target c .word addr = .ok l →
      addr.toNat % 4 = 0 ∧
      (addr.toNat < 0x100 ∨
        (∃ m k, k < c.maxpix ∧ addr.toNat = pixelAddr m k ∧ l = .pixel m k) ∨
        (∃ b j, j < c.maxpix / 32 ∧ addr.toNat = bufWordAddr b j ∧ l = .bufWord b j) ∨
        (∃ b w i, w < c.maxpix / 20000 ∧ i < 32 ∧ addr.toNat = recordAddr b w i ∧
          l = .record b w i)))

/-- 20 R103, R105: an access that is not 32 bits wide, not aligned, or to no mapped location completes
with BUSERR, which ends the run. The cause the fault carries, and that the width is named before the
alignment, are the model's own (DEDUCED: log 5). -/
def Obligations.UnsupportedAccessesGetBusError : Prop :=
  ∀ (s : State) (a : Access),
    (a.width ≠ .word → s.access a = .fault (.busError .width a.addr)) ∧
    (a.width = .word → a.addr.toNat % 4 ≠ 0 →
      s.access a = .fault (.busError .misaligned a.addr)) ∧
    (∀ c, target s.cfg a.width a.addr = .error c → s.access a = .fault (.busError c a.addr)) ∧
    (∀ l, target s.cfg a.width a.addr = .ok l → ∃ t, s.access a = .next t)

/-- 20 R112: while BUSY = 1 a write to an engine-owned location is dropped with ACC_REJ, and a read
of one returns a draw and has no side effect (the free value, its counter and the host's list are the
model's: logs 8, 11, 17). The locations, by address: 0x020 to 0x04F (DIM_A, DIM_B, IOSEL, CHAR_IN,
HEX_OUT, BIN_OUT, HEXPOS, BINPOS, LEN), 0x080 to 0x0BF (VSTAT, VN, VNWIN, VNFAIL) and every PIX, BUF and WRES word. -/
def Obligations.BusyBlockOwnsItsState : Prop :=
  ∀ (s : State) (a : Access) (l : Loc), s.busy = true → target s.cfg a.width a.addr = .ok l →
    (0x020 ≤ a.addr.toNat ∧ a.addr.toNat < 0x050 ∨ 0x080 ≤ a.addr.toNat ∧ a.addr.toNat < 0x0C0 ∨
      0x100 ≤ a.addr.toNat) →
      l.engineOwned = true ∧
      (a.we = true → s.access a = .next { s with accRej := true }) ∧
      (a.we = false → ∃ k, s.access a = .next { s with
        obs := Config.busyWord s.draws :: s.obs, draws := k })

/-- 10 R31 to R34, R40: the identification registers read their constants at any time, writes to them
are ignored, and reset leaves the build as it is. -/
def Obligations.IdentificationRegistersAreConstant : Prop :=
  ∀ (s : State) (v : Word),
    let nibbleBit := if s.cfg.partialNibble = .padRight then 1 else 0
    s.access ⟨false, .word, 0x00000000, v⟩ = .next { s with obs := 0x54524E47 :: s.obs } ∧
    s.access ⟨false, .word, 0x00000004, v⟩ = .next { s with obs := 0x00070001 :: s.obs } ∧
    s.access ⟨false, .word, 0x00000008, v⟩ = .next { s with
      obs := BitVec.ofNat 32 (channelCode s.cfg.channel + 256 * nibbleBit) :: s.obs } ∧
    s.access ⟨false, .word, 0x0000000C, v⟩ =
      .next { s with obs := BitVec.ofNat 32 s.cfg.maxpix :: s.obs } ∧
    s.access ⟨false, .word, 0x0000001C, v⟩ =
      .next { s with obs := BitVec.ofNat 32 (s.cfg.maxpix / 20000) :: s.obs } ∧
    s.access ⟨true, .word, 0x00000000, v⟩ = .next s ∧
    s.access ⟨true, .word, 0x00000004, v⟩ = .next s ∧
    s.access ⟨true, .word, 0x00000008, v⟩ = .next s ∧
    s.access ⟨true, .word, 0x0000000C, v⟩ = .next s ∧
    s.access ⟨true, .word, 0x0000001C, v⟩ = .next s ∧
    s.applyReset.cfg = s.cfg

/-- 10 R35, R36, R39, R41 to R47, R58: what a read of each other register returns, with the bits of
VSTAT (R46). -/
def Obligations.RegisterReadsReturnTheirFields : Prop :=
  ∀ (s : State) (v : Word),
    let reads := fun (off : Nat) (x : Word) =>
      s.access ⟨false, .word, BitVec.ofNat 32 off, v⟩ = .next { s with obs := x :: s.obs }
    reads 0x010 s.cmd ∧ reads 0x018 s.ierWord ∧ reads 0x050 s.errinfo ∧
    (s.busy = true → ∃ k, s.access ⟨false, .word, 0x00000014, v⟩ =
      .next { s with obs := s.statusWord :: s.obs, draws := k }) ∧
    (s.busy = false →
      reads 0x014 s.statusWord ∧ reads 0x020 s.dimA ∧ reads 0x024 s.dimB ∧
      reads 0x028 s.ioselWord ∧ reads 0x02C 0 ∧ reads 0x038 s.hexpos ∧ reads 0x03C s.binpos ∧
      ∀ b, reads (0x040 + 4 * bufIndex b) (s.len.get b) ∧
        reads (0x080 + 16 * bufIndex b) (s.vstat.get b).word ∧
        reads (0x084 + 16 * bufIndex b) (s.vn.get b) ∧
        reads (0x088 + 16 * bufIndex b) (s.vnwin.get b) ∧
        reads (0x08C + 16 * bufIndex b) (s.vnfail.get b)) ∧
    ∀ b, (s.vstat.get b).word.getLsbD 0 = (s.vstat.get b).valid ∧
      (s.vstat.get b).word.getLsbD 1 = (s.vstat.get b).passed ∧
      (s.vstat.get b).word.getLsbD 2 = (s.vstat.get b).insuf ∧
      ∀ j, 3 ≤ j → (s.vstat.get b).word.getLsbD j = false

/-- 10 R48, R43, R52: writes to the result registers, to HEX_OUT and BIN_OUT, to window-record words,
to ERRINFO and to reserved offsets are ignored, and reserved offsets read 0. -/
def Obligations.ReadOnlyAndReservedWritesAreIgnored : Prop :=
  ∀ (s : State) (v : Word),
    (∀ (b : BufId) (r : Nat), r < 4 → s.busy = false →
      s.access ⟨true, .word, BitVec.ofNat 32 (0x080 + 16 * bufIndex b + 4 * r), v⟩ = .next s) ∧
    (s.busy = false → s.access ⟨true, .word, 0x00000030, v⟩ = .next s ∧
      s.access ⟨true, .word, 0x00000034, v⟩ = .next s) ∧
    (∀ b w i, s.busy = false → s.cfg.wf = true → w < s.cfg.maxpix / 20000 → i < 32 →
      s.access ⟨true, .word, BitVec.ofNat 32 (recordAddr b w i), v⟩ = .next s) ∧
    s.access ⟨true, .word, 0x00000050, v⟩ = .next s ∧
    (∀ off, (0x054 ≤ off ∧ off < 0x080 ∨ 0x0C0 ≤ off ∧ off < 0x100) → off % 4 = 0 →
      s.access ⟨true, .word, BitVec.ofNat 32 off, v⟩ = .next s ∧
      s.access ⟨false, .word, BitVec.ofNat 32 off, v⟩ = .next { s with obs := 0 :: s.obs })

/-- 10 R45, R54 (a): a LEN write. -/
def Obligations.LenWriteSetsOrRejects : Prop :=
  ∀ (s : State) (b : BufId) (v : Word), s.busy = false →
    (v.toNat ≤ s.cfg.maxpix →
      s.access ⟨true, .word, BitVec.ofNat 32 (0x040 + 4 * bufIndex b), v⟩ = .next { s with
        len := s.len.set b v
        vstat := s.vstat.set b { s.vstat.get b with valid := false }
        reportValid := false }) ∧
    (s.cfg.maxpix < v.toNat →
      s.access ⟨true, .word, BitVec.ofNat 32 (0x040 + 4 * bufIndex b), v⟩ =
        .next { s with accRej := true })

/-- 10 R42: an IOSEL write selects both buffers, restarts both readouts, and reads back its two
fields. -/
def Obligations.IoselWriteRestartsTheReadouts : Prop :=
  ∀ (s : State) (v : Word), s.busy = false →
    ∃ t, s.access ⟨true, .word, 0x00000028, v⟩ = .next t ∧
      t = { s with cinBuf := t.cinBuf, outBuf := t.outBuf, hexpos := 0, binpos := 0 } ∧
      t.cinBuf.field = v.extractLsb' 0 2 ∧ t.outBuf.field = v.extractLsb' 8 2 ∧
      t.ioselWord = v &&& 0x00000303

/-- 10 R41, R44, R39: the plain read-write registers hold what is written, and nothing else changes;
IER takes its write at any time, BUSY included. -/
def Obligations.PlainRegistersHoldWhatIsWritten : Prop :=
  ∀ (s : State) (v : Word),
    (s.busy = false →
      s.access ⟨true, .word, 0x00000020, v⟩ = .next { s with dimA := v } ∧
      s.access ⟨true, .word, 0x00000024, v⟩ = .next { s with dimB := v } ∧
      s.access ⟨true, .word, 0x00000038, v⟩ = .next { s with hexpos := v } ∧
      s.access ⟨true, .word, 0x0000003C, v⟩ = .next { s with binpos := v }) ∧
    ∃ t, s.access ⟨true, .word, 0x00000018, v⟩ = .next t ∧
      t = { s with doneIe := v.getLsbD 0, errIe := v.getLsbD 1 } ∧ t.ierWord = v &&& 0x00000003

/-- 10 R49, R50, R54 (b): a host's read of a pixel or buffer word returns the stored word; a word
written there is what the next read returns, every other byte of memory stays, LEN stays, and only a
buffer word invalidates. -/
def Obligations.MemoryWordWritesReadBack : Prop :=
  ∀ (s : State) (v : Word), s.cfg.wf = true → s.mem.wf → s.busy = false →
    (∀ m k, k < s.cfg.maxpix →
      s.access ⟨false, .word, BitVec.ofNat 32 (pixelAddr m k), 0⟩ =
        .next { s with obs := s.readWord (pixelAddr m k) :: s.obs } ∧
      ∃ t, s.access ⟨true, .word, BitVec.ofNat 32 (pixelAddr m k), v⟩ = .next t ∧
        t = { s with mem := t.mem } ∧ t.readWord (pixelAddr m k) = v ∧
        t.access ⟨false, .word, BitVec.ofNat 32 (pixelAddr m k), 0⟩ =
          .next { t with obs := v :: t.obs } ∧
        ∀ a, a < pixelAddr m k ∨ pixelAddr m k + 4 ≤ a → t.readByte a = s.readByte a) ∧
    (∀ b j, j < s.cfg.maxpix / 32 →
      s.access ⟨false, .word, BitVec.ofNat 32 (bufWordAddr b j), 0⟩ =
        .next { s with obs := s.readWord (bufWordAddr b j) :: s.obs } ∧
      ∃ t, s.access ⟨true, .word, BitVec.ofNat 32 (bufWordAddr b j), v⟩ = .next t ∧
        t = { s with
          mem := t.mem
          vstat := s.vstat.set b { s.vstat.get b with valid := false }
          reportValid := false } ∧
        t.readWord (bufWordAddr b j) = v ∧
        t.access ⟨false, .word, BitVec.ofNat 32 (bufWordAddr b j), 0⟩ =
          .next { t with obs := v :: t.obs } ∧
        (∀ r, r < 32 → t.bufBit b (32 * j + r) = v.getLsbD (31 - r)) ∧
        ∀ a, a < bufWordAddr b j ∨ bufWordAddr b j + 4 ≤ a → t.readByte a = s.readByte a)

/-- 20 R109: writing the same value twice equals writing it once, but for CMD and CHAR_IN; reading
leaves the block as it was, but for HEX_OUT and BIN_OUT (the draw counter is the model's: log 8). -/
def Obligations.RepeatedAccessesChangeNothingMore : Prop :=
  (∀ (s : State) (l : Loc) (v : Word), s.mem.wf → l ≠ .csr .cmd → l ≠ .csr .charIn →
    (s.writeLoc l v).writeLoc l v = s.writeLoc l v) ∧
  (∀ (s : State) (l : Loc), l ≠ .csr .hexOut → l ≠ .csr .binOut →
    ∃ k, (s.readLoc l).2 = { s with draws := k }) ∧
  (∀ (s : State) (l : Loc), s.busy = false → l ≠ .csr .hexOut → l ≠ .csr .binOut →
    (s.readLoc l).2 = s)

/-- 10 R52, R57: what a record read returns while BUSY = 0: a record with a meaning, its word; a word
not written since reset, the word drawn at reset (93 I6); the reserved words, 0. -/
def Obligations.RecordReadsShowMeaningfulWords : Prop :=
  ∀ (s : State) (b : BufId) (w i : Nat), s.cfg.wf = true → s.busy = false →
    w < s.cfg.maxpix / 20000 → i < 32 →
    (26 ≤ i → s.access ⟨false, .word, BitVec.ofNat 32 (recordAddr b w i), 0⟩ =
      .next { s with obs := 0 :: s.obs }) ∧
    (i < 26 → ((s.vstat.get b).valid = true ∧ w < (s.vnwin.get b).toNat) ∨
        s.mem.written (recordAddr b w i) = false →
      s.access ⟨false, .word, BitVec.ofNat 32 (recordAddr b w i), 0⟩ =
        .next { s with obs := s.readWord (recordAddr b w i) :: s.obs })

/-- 41 R215, 10 R49: no engine step changes a pixel word. -/
def Obligations.EngineNeverWritesPixels : Prop :=
  ∀ s t : State, s.Inv → s.nextTurn = .engine → step s = .next t →
    ∀ m k, k < s.cfg.maxpix → t.readWord (pixelAddr m k) = s.readWord (pixelAddr m k)

/-! ### The bit codec and the character ports -/

/-- 40 R180: a CHAR_IN write is dropped, raises an error, or appends exactly one bit. -/
def Obligations.CharInDropsRaisesOrAppends : Prop :=
  ∀ (s : State) (v : Word), s.mem.wf →
    let c : Byte := v.extractLsb' 0 8
    let b := s.cinBuf
    let n := (s.len.get b).toNat
    (s.busy = true ∨ s.err = true →
      s.access ⟨true, .word, 0x0000002C, v⟩ = .next { s with accRej := true }) ∧
    (s.busy = false → s.err = false → c ≠ 0x30 → c ≠ 0x31 →
      s.access ⟨true, .word, 0x0000002C, v⟩ =
        .next { s with err := true, errcode := .invalidBitCharacter, errinfo := v }) ∧
    (s.busy = false → s.err = false → (c = 0x30 ∨ c = 0x31) → n = s.cfg.maxpix →
      s.access ⟨true, .word, 0x0000002C, v⟩ =
        .next { s with err := true, errcode := .capacityExceeded, errinfo := v }) ∧
    (s.busy = false → s.err = false → (c = 0x30 ∨ c = 0x31) → n ≠ s.cfg.maxpix →
      ∃ t, s.access ⟨true, .word, 0x0000002C, v⟩ = .next t ∧
        t = { s with
          mem := t.mem
          len := s.len.set b (s.len.get b + 1)
          vstat := s.vstat.set b { s.vstat.get b with valid := false }
          reportValid := false } ∧
        t.bufBit b n = decide (c = 0x31) ∧
        (∀ a, a ≠ streamByteAddr b n → t.readByte a = s.readByte a) ∧
        (∀ k, k < 8 → k ≠ streamBitOfByte n →
          (t.readByte (streamByteAddr b n)).getLsbD k =
            (s.readByte (streamByteAddr b n)).getLsbD k))

/-- 40 R186, R187: a HEX_OUT read. -/
def Obligations.HexOutReturnsTheNextDigit : Prop :=
  ∀ (s : State) (v : Word),
    let n := ((s.len.get s.outBuf).toNat + 3) / 4
    (s.busy = true → ∃ x k, s.access ⟨false, .word, 0x00000030, v⟩ =
      .next { s with obs := x :: s.obs, draws := k }) ∧
    (s.busy = false → s.hexpos.toNat < n →
      ∃ ch, (toHex s.cfg.partialNibble (s.bits s.outBuf))[s.hexpos.toNat]? = some ch ∧
        s.access ⟨false, .word, 0x00000030, v⟩ = .next { s with
          hexpos := s.hexpos + 1
          obs := BitVec.ofNat 32 (0x100 + ch.toNat) :: s.obs }) ∧
    (s.busy = false → n ≤ s.hexpos.toNat →
      s.access ⟨false, .word, 0x00000030, v⟩ = .next { s with obs := 0 :: s.obs })

/-- 40 R188, R185: a BIN_OUT read. -/
def Obligations.BinOutReturnsTheNextBit : Prop :=
  ∀ (s : State) (v : Word),
    let n := (s.len.get s.outBuf).toNat
    (s.busy = true → ∃ x k, s.access ⟨false, .word, 0x00000034, v⟩ =
      .next { s with obs := x :: s.obs, draws := k }) ∧
    (s.busy = false → s.binpos.toNat < n →
      s.access ⟨false, .word, 0x00000034, v⟩ = .next { s with
        binpos := s.binpos + 1
        obs := (if s.bufBit s.outBuf s.binpos.toNat then 0x131 else 0x130) :: s.obs }) ∧
    (s.busy = false → n ≤ s.binpos.toNat →
      s.access ⟨false, .word, 0x00000034, v⟩ = .next { s with obs := 0 :: s.obs })

/-- 40 R192, R193: the length of toHex, and reading its digits back for a multiple of 4. -/
def Obligations.HexLengthIsCeilOfQuarterAndReadsBack : Prop :=
  ∀ (p : PartialNibble) (bs : BitString),
    (toHex p bs).length = (bs.length + 3) / 4 ∧
    (bs.length % 4 = 0 → (toHex p bs).flatMap hexDigitBits = bs)

/-- 40 R191: the last digit of a length that is no multiple of 4, by the rule's sums (its example
differs from them: log 24). -/
def Obligations.PartialNibbleDigit : Prop :=
  ∀ (p : PartialNibble) (bs t : BitString), bs.length % 4 = 0 → 1 ≤ t.length → t.length ≤ 3 →
    toHex p (bs ++ t) = toHex p bs ++ [hexChar
      (match p with
        | .numeral => ((List.range t.length).map
            (fun q => (t.getD q false).toNat * 2 ^ (t.length - 1 - q))).sum
        | .padRight => ((List.range t.length).map
            (fun q => (t.getD q false).toNat * 2 ^ (3 - q))).sum)]

/-- 40 R196: padBinary is the base-2 numeral in exactly `width` characters, and is refused outside its
domain. -/
def Obligations.PadBinaryIsTheNumeral : Prop :=
  ∀ value width : Nat,
    (1 ≤ width → value < 2 ^ width → ∃ l, padBinary value width = some l ∧ l.length = width ∧
      (∀ ch ∈ l, ch = 0x30 ∨ ch = 0x31) ∧
      l.foldl (fun n ch => 2 * n + (ch.toNat - 0x30)) 0 = value) ∧
    (width = 0 ∨ 2 ^ width ≤ value → padBinary value width = none)

/-- 40 R197: padHexByte is two lowercase hex digits, and is refused outside its domain. -/
def Obligations.PadHexByteIsTwoDigits : Prop :=
  ∀ value : Nat,
    (value ≤ 255 → ∃ h l, padHexByte value = some [h, l] ∧
      (0x30 ≤ h.toNat ∧ h.toNat ≤ 0x39 ∨ 0x61 ≤ h.toNat ∧ h.toNat ≤ 0x66) ∧
      (0x30 ≤ l.toNat ∧ l.toNat ≤ 0x39 ∨ 0x61 ≤ l.toNat ∧ l.toNat ≤ 0x66) ∧
      value = 16 * hexDigitValue h + hexDigitValue l) ∧
    (255 < value → padHexByte value = none)

/-- 45 R330: the message of an insufficient stream: the decimal digits of N with no leading zero, then
" of 20000 required". -/
def Obligations.InsufficientMessageIsDecimal : Prop :=
  ∀ n : Nat, ∃ l, insufMessage n = l ++ ofRequired ∧
    (∀ ch ∈ l, 0x30 ≤ ch.toNat ∧ ch.toNat ≤ 0x39) ∧
    l.foldl (fun k ch => 10 * k + (ch.toNat - 0x30)) 0 = n ∧
    (n = 0 → l = [0x30]) ∧ (n ≠ 0 → l.head? ≠ some 0x30)
end

