-- ==== Sys2Proof/Laws/Encoding.lean ====
section
/-!
SUPPORT. The fields of assembled words and the words of fields (30 R150, R156).
-/

namespace Sys2Proof

/-- The fields of an assembled word are what it was assembled from, the reserved ones 0. -/
theorem Command.ofWord_assemble (op : BitVec 8) (ra rb rd : BitVec 2) :
    Command.ofWord (assemble op ra rb rd) = ⟨op, ra, 0, rb, 0, rd, 0⟩ := by
  have field (s n : Nat) (f : BitVec n) (hs : s + n ≤ 32)
      (h : ∀ i, i < n → (assemble op ra rb rd).getLsbD (s + i) = f.getLsbD i) :
      (assemble op ra rb rd).extractLsb' s n = f := by
    apply BitVec.eq_of_getLsbD_eq
    intro i hi
    rw [BitVec.getLsbD_extractLsb', h i hi]
    simp [hi]
  unfold Command.ofWord
  rw [field 0 8 op (by omega), field 8 2 ra (by omega), field 10 2 0 (by omega),
    field 12 2 rb (by omega), field 14 2 0 (by omega), field 16 2 rd (by omega),
    field 18 14 0 (by omega)]
  all_goals
    intro i hi
    simp only [assemble, BitVec.getLsbD_or, BitVec.getLsbD_shiftLeft, BitVec.getLsbD_setWidth]
    interval_cases i <;> simp [BitVec.getLsbD_of_ge]

/-- A word whose reserved bits are 0 is assembled from its fields. -/
theorem assemble_ofWord {w : Word} (h1 : w.extractLsb' 10 2 = 0) (h2 : w.extractLsb' 14 2 = 0)
    (h3 : w.extractLsb' 18 14 = 0) :
    assemble (w.extractLsb' 0 8) (w.extractLsb' 8 2) (w.extractLsb' 12 2) (w.extractLsb' 16 2) =
      w := by
  have clear {s n : Nat} (h : w.extractLsb' s n = 0) (i : Nat) (hs : s ≤ i) (hi : i < s + n) :
      w.getLsbD i = false := by
    have := congrArg (fun x : BitVec n => x.getLsbD (i - s)) h
    simp only [BitVec.getLsbD_extractLsb', show i - s < n by omega, decide_true, Bool.true_and,
      show s + (i - s) = i by omega] at this
    simpa using this
  apply BitVec.eq_of_getLsbD_eq
  intro i hi
  have c1 := clear h1 i
  have c2 := clear h2 i
  have c3 := clear h3 i
  simp only [assemble, BitVec.getLsbD_or, BitVec.getLsbD_shiftLeft, BitVec.getLsbD_setWidth,
    BitVec.getLsbD_extractLsb']
  interval_cases i <;> simp_all

@[simp] theorem BufId.ofField_field (b : BufId) : BufId.ofField b.field = b := by
  cases b <;> rfl

@[simp] theorem BufId.field_ofField (f : BitVec 2) : (BufId.ofField f).field = f := by
  revert f; decide

@[simp] theorem Image.ofField_field (m : Image) : Image.ofField m.field = m := by
  cases m <;> rfl

/-- An image select field whose high bit is 0 is the field of its image. -/
theorem Image.field_ofField {f : BitVec 2} (h : f.getLsbD 1 = false) :
    (Image.ofField f).field = f := by
  revert f; decide

end Sys2Proof
end

