-- ==== Sys2Proof/Laws/Memory.lean ====
section
/-!
SUPPORT. The laws of the byte store: reads after writes, frames, the canonical form, and what a bit,
a byte and a word of memory have to do with each other.
-/

namespace Sys2Proof.Machine

/-! ### Lists of cells -/

theorem cellGet_cellSet_ne (m : List Host.Cell) {a b : Nat} (v : Byte) (h : b ≠ a) :
    cellGet (cellSet m a v) b = cellGet m b := by
  induction m with
  | nil => unfold cellSet; split <;> simp [cellGet, Ne.symm h]
  | cons c rest ih =>
    obtain ⟨k, w⟩ := c
    unfold cellSet
    split
    · simp only [cellGet, ih]
    · split
      · rename_i hk
        subst hk
        split <;> simp [cellGet, Ne.symm h]
      · split <;> simp [cellGet, Ne.symm h]

theorem cellGet_eq_zero_of_lt {m : List Host.Cell} {a : Nat} (h : ∀ c ∈ m, a < c.1) :
    cellGet m a = 0 := by
  induction m with
  | nil => rfl
  | cons c rest ih =>
    have hc := h c (by simp)
    simp only [cellGet, if_neg (Nat.ne_of_gt hc)]
    exact ih fun d hd => h d (by simp [hd])

theorem cellGet_cellSet_same {m : List Host.Cell} (hm : cellsCanonical m) (a : Nat) (v : Byte) :
    cellGet (cellSet m a v) a = v := by
  induction m with
  | nil => unfold cellSet; split <;> simp_all [cellGet]
  | cons c rest ih =>
    obtain ⟨k, w⟩ := c
    obtain ⟨hs, hz⟩ := hm
    rw [List.pairwise_cons] at hs
    have hrest : cellsCanonical rest := ⟨hs.2, fun d hd => hz d (by simp [hd])⟩
    unfold cellSet
    split
    · rename_i hlt
      simp only [cellGet, if_neg (Nat.ne_of_lt hlt), ih hrest]
    · rename_i hlt
      split
      · rename_i hk
        subst hk
        split
        · rename_i hv
          rw [hv]; exact cellGet_eq_zero_of_lt fun d hd => hs.1 d hd
        · simp [cellGet]
      · rename_i hk
        split
        · rename_i hv
          rw [hv]
          apply cellGet_eq_zero_of_lt
          intro d hd
          rcases List.mem_cons.1 hd with rfl | hd
          · exact Nat.lt_of_le_of_ne (Nat.le_of_not_lt hlt) (Ne.symm hk)
          · exact Nat.lt_trans (Nat.lt_of_le_of_ne (Nat.le_of_not_lt hlt) (Ne.symm hk)) (hs.1 d hd)
        · simp [cellGet]

theorem cellGet_cellSet {m : List Host.Cell} (hm : cellsCanonical m) (a b : Nat) (v : Byte) :
    cellGet (cellSet m a v) b = if b = a then v else cellGet m b := by
  split
  · rename_i h; subst h; exact cellGet_cellSet_same hm b v
  · rename_i h; exact cellGet_cellSet_ne m v h

/-- Every cell of the new list is the new one or one of the old list. -/
theorem mem_cellSet {m : List Host.Cell} {a : Nat} {v : Byte} {c : Host.Cell}
    (h : c ∈ cellSet m a v) : (c = (a, v) ∧ v ≠ 0) ∨ c ∈ m := by
  induction m with
  | nil =>
    unfold cellSet at h
    split at h
    · simp at h
    · exact .inl ⟨by simpa using h, by assumption⟩
  | cons d rest ih =>
    obtain ⟨k, w⟩ := d
    unfold cellSet at h
    split at h
    · rcases List.mem_cons.1 h with h | h
      · exact .inr (by simp [h])
      · rcases ih h with h | h
        · exact .inl h
        · exact .inr (by simp [h])
    · split at h
      · split at h
        · exact .inr (by simp [h])
        · rcases List.mem_cons.1 h with h | h
          · exact .inl ⟨h, by assumption⟩
          · exact .inr (by simp [h])
      · split at h
        · exact .inr h
        · rcases List.mem_cons.1 h with h | h
          · exact .inl ⟨h, by assumption⟩
          · exact .inr h

/-- A write keeps the canonical form. -/
theorem cellSet_canonical {m : List Host.Cell} (hm : cellsCanonical m) (a : Nat) (v : Byte) :
    cellsCanonical (cellSet m a v) := by
  refine ⟨?_, fun c hc => ?_⟩
  · induction m with
    | nil => unfold cellSet; split <;> simp
    | cons d rest ih =>
      obtain ⟨k, w⟩ := d
      obtain ⟨hs, hz⟩ := hm
      have hs' := List.pairwise_cons.1 hs
      have hrest : cellsCanonical rest := ⟨hs'.2, fun d hd => hz d (by simp [hd])⟩
      unfold cellSet
      split
      · rename_i hlt
        refine List.pairwise_cons.2 ⟨fun c hc => ?_, ih hrest⟩
        rcases mem_cellSet hc with ⟨rfl, -⟩ | hc
        · exact hlt
        · exact hs'.1 c hc
      · rename_i hlt
        split
        · rename_i hk
          subst hk
          split
          · exact hs'.2
          · exact List.pairwise_cons.2 ⟨fun c hc => hs'.1 c hc, hs'.2⟩
        · rename_i hk
          split
          · exact hs
          · refine List.pairwise_cons.2 ⟨fun c hc => ?_, hs⟩
            have hak : a < k := Nat.lt_of_le_of_ne (Nat.le_of_not_lt hlt) (Ne.symm hk)
            rcases List.mem_cons.1 hc with rfl | hc
            · exact hak
            · exact Nat.lt_trans hak (hs'.1 c hc)
  · rcases mem_cellSet hc with ⟨rfl, hv⟩ | hc
    · exact hv
    · exact hm.2 c hc

/-- A listed cell is what the list gives at its address. -/
theorem cellGet_of_mem {m : List Host.Cell} (hm : cellsCanonical m) {c : Host.Cell} (hc : c ∈ m) :
    cellGet m c.1 = c.2 := by
  induction m with
  | nil => simp at hc
  | cons d rest ih =>
    obtain ⟨k, w⟩ := d
    obtain ⟨hs, hz⟩ := hm
    rw [List.pairwise_cons] at hs
    rcases List.mem_cons.1 hc with rfl | hc
    · simp [cellGet]
    · have := hs.1 c hc
      simp only [cellGet, if_neg (Nat.ne_of_lt this)]
      exact ih ⟨hs.2, fun d hd => hz d (by simp [hd])⟩ hc

/-- An address whose byte is not 0 is listed. -/
theorem mem_of_cellGet_ne_zero {m : List Host.Cell} {a : Nat} (h : cellGet m a ≠ 0) :
    (a, cellGet m a) ∈ m := by
  induction m with
  | nil => exact absurd rfl h
  | cons d rest ih =>
    obtain ⟨k, w⟩ := d
    unfold cellGet at h ⊢
    split
    · rename_i hk; subst hk; simp
    · rename_i hk
      rw [if_neg hk] at h
      exact List.mem_cons_of_mem _ (ih h)

/-- No value is held for a bit that was not written, said address by address. -/
theorem Memory.wf_value {m : Memory} (hm : m.wf) (a : Nat) :
    cellGet m.value a &&& ~~~(cellGet m.known a) = 0 := by
  by_cases h : cellGet m.value a = 0
  · rw [h]; exact BitVec.zero_and
  · exact hm.2.2 _ (mem_of_cellGet_ne_zero h)

/-! ### The canonical form is kept -/

theorem Memory.wf_of_get {v k : List Host.Cell} (hv : cellsCanonical v) (hk : cellsCanonical k)
    (h : ∀ a, cellGet v a &&& ~~~(cellGet k a) = 0) : Memory.wf ⟨v, k⟩ := by
  refine ⟨hv, hk, fun c hc => ?_⟩
  have := h c.1
  rwa [cellGet_of_mem hv hc] at this

theorem Memory.wf_writeByte {m : Memory} (hm : m.wf) (a : Nat) (v : Byte) :
    (m.writeByte a v).wf := by
  refine Memory.wf_of_get (cellSet_canonical hm.1 _ _) (cellSet_canonical hm.2.1 _ _) fun b => ?_
  rw [cellGet_cellSet hm.1, cellGet_cellSet hm.2.1]
  split
  · have : ~~~(0xFF : Byte) = 0 := by decide
    rw [this]; exact BitVec.and_zero
  · exact Memory.wf_value hm b

theorem Memory.wf_writeBit {m : Memory} (hm : m.wf) (a k : Nat) (b : Bool) :
    (m.writeBit a k b).wf := by
  refine Memory.wf_of_get (cellSet_canonical hm.1 _ _) (cellSet_canonical hm.2.1 _ _) fun c => ?_
  rw [cellGet_cellSet hm.1, cellGet_cellSet hm.2.1]
  have hv := Memory.wf_value hm
  split
  · have ha := hv a
    apply BitVec.eq_of_getLsbD_eq
    intro i hi
    have hai := congrArg (fun x : Byte => x.getLsbD i) ha
    cases b <;>
      simp only [BitVec.getLsbD_and, BitVec.getLsbD_or, BitVec.getLsbD_not,
        hi, decide_true, Bool.true_and, if_true, if_false, Bool.false_eq_true]
        at hai ⊢ <;>
      cases (1#8 <<< k).getLsbD i <;> simp_all
  · exact hv c

theorem Memory.wf_writeWord {m : Memory} (hm : m.wf) (a : Nat) (v : Word) :
    (m.writeWord a v).wf :=
  Memory.wf_writeByte (Memory.wf_writeByte (Memory.wf_writeByte (Memory.wf_writeByte hm _ _) _ _)
    _ _) _ _

theorem Memory.wf_writeWords {m : Memory} (hm : m.wf) (a : Nat) (ws : List Word) :
    (m.writeWords a ws).wf := by
  induction ws generalizing m a with
  | nil => exact hm
  | cons w ws ih => exact ih (Memory.wf_writeWord hm a w) (a + 4)

/-! ### Bits and bytes -/

theorem Memory.getLsbD_readByte (m : Memory) (draw a : Nat) {k : Nat} (hk : k < 8) :
    (m.readByte draw a).getLsbD k = m.bit draw a k := by
  unfold Memory.readByte Memory.bit
  dsimp only
  split
  · rename_i h
    rw [h]
    have : (255#8).getLsbD k = true := by
      have : k = 0 ∨ k = 1 ∨ k = 2 ∨ k = 3 ∨ k = 4 ∨ k = 5 ∨ k = 6 ∨ k = 7 := by omega
      rcases this with rfl | rfl | rfl | rfl | rfl | rfl | rfl | rfl <;> rfl
    simp [this]
  · simp only [BitVec.getLsbD_or, BitVec.getLsbD_and, BitVec.getLsbD_not, hk, decide_true,
      Bool.true_and]
    cases (cellGet m.known a).getLsbD k <;> simp

/-- Two bytes of memory are equal when their bits are. -/
theorem Memory.readByte_eq_of_bit {m n : Memory} {d e a b : Nat}
    (h : ∀ k, k < 8 → m.bit d a k = n.bit e b k) : m.readByte d a = n.readByte e b := by
  apply BitVec.eq_of_getLsbD_eq
  intro k hk
  rw [Memory.getLsbD_readByte _ _ _ hk, Memory.getLsbD_readByte _ _ _ hk, h k hk]

theorem Memory.bit_eq_of_readByte {m n : Memory} {d e a b : Nat}
    (h : m.readByte d a = n.readByte e b) {k : Nat} (hk : k < 8) :
    m.bit d a k = n.bit e b k := by
  rw [← Memory.getLsbD_readByte _ _ _ hk, ← Memory.getLsbD_readByte _ _ _ hk, h]

/-- A byte is written exactly when it was before or is the one being written. -/
theorem Memory.written_writeByte {m : Memory} (hm : m.wf) (a b : Nat) (v : Byte) :
    (m.writeByte a v).written b = (decide (b = a) || m.written b) := by
  unfold Memory.written Memory.writeByte
  rw [cellGet_cellSet hm.2.1]
  split <;> simp [*]

/-- Right after reset nothing is written. -/
@[simp] theorem Memory.written_nil (a : Nat) : Memory.written ⟨[], []⟩ a = false := rfl

theorem Memory.bit_writeByte_ne (m : Memory) (draw : Nat) {a b : Nat} (v : Byte) (k : Nat)
    (h : b ≠ a) : (m.writeByte a v).bit draw b k = m.bit draw b k := by
  simp only [Memory.bit, Memory.writeByte, cellGet_cellSet_ne _ _ h]

theorem Memory.bit_writeByte_same {m : Memory} (hm : m.wf) (draw a : Nat) (v : Byte) {k : Nat}
    (hk : k < 8) : (m.writeByte a v).bit draw a k = v.getLsbD k := by
  have : (0xFF : Byte).getLsbD k = true := by
    have : k = 0 ∨ k = 1 ∨ k = 2 ∨ k = 3 ∨ k = 4 ∨ k = 5 ∨ k = 6 ∨ k = 7 := by omega
    rcases this with rfl | rfl | rfl | rfl | rfl | rfl | rfl | rfl <;> rfl
  simp only [Memory.bit, Memory.writeByte, cellGet_cellSet_same hm.1, cellGet_cellSet_same hm.2.1,
    this, if_true]

theorem Memory.readByte_writeByte_same {m : Memory} (hm : m.wf) (draw a : Nat) (v : Byte) :
    (m.writeByte a v).readByte draw a = v := by
  apply BitVec.eq_of_getLsbD_eq
  intro k hk
  rw [Memory.getLsbD_readByte _ _ _ hk, Memory.bit_writeByte_same hm _ _ _ hk]

theorem Memory.readByte_writeByte_ne (m : Memory) (draw : Nat) {a b : Nat} (v : Byte)
    (h : b ≠ a) : (m.writeByte a v).readByte draw b = m.readByte draw b :=
  Memory.readByte_eq_of_bit fun k _ => Memory.bit_writeByte_ne m draw v k h

theorem Memory.bit_writeBit_other (m : Memory) (draw : Nat) {a b : Nat} (k : Nat) (v : Bool)
    (j : Nat) (h : b ≠ a) : (m.writeBit a k v).bit draw b j = m.bit draw b j := by
  simp only [Memory.bit, Memory.writeBit, cellGet_cellSet_ne _ _ h]

theorem Memory.bit_writeBit_same {m : Memory} (hm : m.wf) (draw a : Nat) {k : Nat} (hk : k < 8)
    (v : Bool) : (m.writeBit a k v).bit draw a k = v := by
  have hb : (1#8 <<< k).getLsbD k = true := by simp [hk]
  cases v <;>
    simp [Memory.bit, Memory.writeBit, cellGet_cellSet_same hm.1, cellGet_cellSet_same hm.2.1, hb]

/-- The other bits of a byte keep their values when one bit is written (40 R180). -/
theorem Memory.bit_writeBit_ne {m : Memory} (hm : m.wf) (draw a : Nat) {j k : Nat}
    (hj : j < 8) (v : Bool) (h : j ≠ k) :
    (m.writeBit a k v).bit draw a j = m.bit draw a j := by
  have hb : (1#8 <<< k).getLsbD j = false := by
    simp only [BitVec.getLsbD_shiftLeft, BitVec.getLsbD_one]
    by_cases hjk : j < k
    · simp [hjk]
    · have : j - k ≠ 0 := by omega
      simp [hjk, this]
  have hz : (0 : Byte).getLsbD j = false := by simp
  cases v <;>
    simp only [Memory.bit, Memory.writeBit, cellGet_cellSet_same hm.1,
      cellGet_cellSet_same hm.2.1, BitVec.getLsbD_or, BitVec.getLsbD_and, BitVec.getLsbD_not, hb,
      hj, decide_true, Bool.not_false, Bool.and_true, Bool.or_false, if_true, if_false,
      Bool.false_eq_true, hz]

/-! ### Words -/

theorem Memory.readByte_writeWord_ne (m : Memory) (draw : Nat) {a b : Nat} (v : Word)
    (h : b < a ∨ a + 4 ≤ b) : (m.writeWord a v).readByte draw b = m.readByte draw b := by
  unfold Memory.writeWord
  rw [Memory.readByte_writeByte_ne _ _ _ (by omega), Memory.readByte_writeByte_ne _ _ _ (by omega),
    Memory.readByte_writeByte_ne _ _ _ (by omega), Memory.readByte_writeByte_ne _ _ _ (by omega)]

/-- The four bytes of a written word. -/
theorem Memory.readByte_writeWord_same {m : Memory} (hm : m.wf) (draw a : Nat) (v : Word) :
    (m.writeWord a v).readByte draw a = v.extractLsb' 0 8 ∧
    (m.writeWord a v).readByte draw (a + 1) = v.extractLsb' 8 8 ∧
    (m.writeWord a v).readByte draw (a + 2) = v.extractLsb' 16 8 ∧
    (m.writeWord a v).readByte draw (a + 3) = v.extractLsb' 24 8 := by
  have h0 := Memory.wf_writeByte hm a (v.extractLsb' 0 8)
  have h1 := Memory.wf_writeByte h0 (a + 1) (v.extractLsb' 8 8)
  have h2 := Memory.wf_writeByte h1 (a + 2) (v.extractLsb' 16 8)
  unfold Memory.writeWord
  refine ⟨?_, ?_, ?_, Memory.readByte_writeByte_same h2 _ _ _⟩
  · rw [Memory.readByte_writeByte_ne _ _ _ (by omega),
      Memory.readByte_writeByte_ne _ _ _ (by omega), Memory.readByte_writeByte_ne _ _ _ (by omega),
      Memory.readByte_writeByte_same hm]
  · rw [Memory.readByte_writeByte_ne _ _ _ (by omega),
      Memory.readByte_writeByte_ne _ _ _ (by omega), Memory.readByte_writeByte_same h0]
  · rw [Memory.readByte_writeByte_ne _ _ _ (by omega), Memory.readByte_writeByte_same h1]

/-- A word is its four bytes. -/
theorem word_of_bytes (v : Word) :
    v.extractLsb' 24 8 ++ v.extractLsb' 16 8 ++ v.extractLsb' 8 8 ++ v.extractLsb' 0 8 = v := by
  apply BitVec.eq_of_getLsbD_eq
  intro i hi
  simp only [BitVec.getLsbD_append, BitVec.getLsbD_extractLsb']
  by_cases h0 : i < 8
  · simp [h0]
  · by_cases h1 : i - 8 < 8
    · have : 8 + (i - 8) = i := by omega
      simp [h0, h1, this]
    · by_cases h2 : i - 8 - 8 < 8
      · have : 16 + (i - 8 - 8) = i := by omega
        simp [h0, h1, h2, this]
      · have h3 : i - 8 - 8 - 8 < 8 := by omega
        have : 24 + (i - 8 - 8 - 8) = i := by omega
        simp [h0, h1, h2, h3, this]

theorem Memory.readWord_writeWord_same {m : Memory} (hm : m.wf) (draw a : Nat) (v : Word) :
    (m.writeWord a v).readWord draw a = v := by
  obtain ⟨h0, h1, h2, h3⟩ := Memory.readByte_writeWord_same hm draw a v
  unfold Memory.readWord
  rw [h0, h1, h2, h3]
  exact word_of_bytes v

/-- Two words of memory are equal when their bytes are. -/
theorem Memory.readWord_eq_of_readByte {m n : Memory} {d e a : Nat}
    (h : ∀ b, a ≤ b → b < a + 4 → m.readByte d b = n.readByte e b) :
    m.readWord d a = n.readWord e a := by
  unfold Memory.readWord
  rw [h a (by omega) (by omega), h (a + 1) (by omega) (by omega), h (a + 2) (by omega) (by omega),
    h (a + 3) (by omega) (by omega)]

/-- Bit `8c + k` of the word at `a` is bit `k` of the byte at `a + c` (20 R106). -/
theorem Memory.getLsbD_readWord (m : Memory) (draw a : Nat) {i : Nat} (hi : i < 32) :
    (m.readWord draw a).getLsbD i = m.bit draw (a + i / 8) (i % 8) := by
  unfold Memory.readWord
  simp only [BitVec.getLsbD_append]
  by_cases h0 : i < 8
  · rw [if_pos h0, Memory.getLsbD_readByte _ _ _ h0]
    rw [show i / 8 = 0 by omega, show i % 8 = i by omega]; rfl
  · rw [if_neg h0]
    by_cases h1 : i - 8 < 8
    · rw [if_pos h1, Memory.getLsbD_readByte _ _ _ h1]
      rw [show i / 8 = 1 by omega, show i % 8 = i - 8 by omega]
    · rw [if_neg h1]
      by_cases h2 : i - 8 - 8 < 8
      · rw [if_pos h2, Memory.getLsbD_readByte _ _ _ h2]
        rw [show i / 8 = 2 by omega, show i % 8 = i - 8 - 8 by omega]
      · rw [if_neg h2, Memory.getLsbD_readByte _ _ _ (by omega)]
        rw [show i / 8 = 3 by omega, show i % 8 = i - 8 - 8 - 8 by omega]

theorem Memory.readByte_writeWords_ne (m : Memory) (draw : Nat) {a b : Nat} (ws : List Word)
    (h : b < a ∨ a + 4 * ws.length ≤ b) :
    (m.writeWords a ws).readByte draw b = m.readByte draw b := by
  induction ws generalizing m a with
  | nil => rfl
  | cons w ws ih =>
    simp only [List.length_cons] at h
    rw [Memory.writeWords, ih (m.writeWord a w) (a := a + 4) (by omega),
      Memory.readByte_writeWord_ne _ _ _ (by omega)]

/-- Word `j` of consecutive written words reads as written. -/
theorem Memory.readWord_writeWords {m : Memory} (hm : m.wf) (draw a : Nat) (ws : List Word)
    {j : Nat} (hj : j < ws.length) :
    (m.writeWords a ws).readWord draw (a + 4 * j) = ws[j] := by
  induction ws generalizing m a j with
  | nil => simp at hj
  | cons w ws ih =>
    cases j with
    | zero =>
      rw [Memory.writeWords, Memory.readWord_eq_of_readByte (n := m.writeWord a w) (e := draw)
        (fun b _ hb => Memory.readByte_writeWords_ne _ _ _ (by omega))]
      exact Memory.readWord_writeWord_same hm draw a w
    | succ j =>
      have := ih (Memory.wf_writeWord hm a w) (a + 4) (j := j) (by simpa using hj)
      rw [show a + 4 * (j + 1) = a + 4 + 4 * j by omega]
      simpa [Memory.writeWords] using this

/-! ### Equal contents, equal data -/

/-- Canonical lists of cells that give the same byte at every address are the same list. -/
theorem cells_ext {m n : List Host.Cell} (hm : cellsCanonical m) (hn : cellsCanonical n)
    (h : ∀ a, cellGet m a = cellGet n a) : m = n := by
  induction m generalizing n with
  | nil =>
    cases n with
    | nil => rfl
    | cons d n =>
      have := h d.1
      rw [cellGet_of_mem hn (c := d) (by simp)] at this
      exact absurd this.symm (hn.2 d (by simp))
  | cons c m ih =>
    have hm' : cellsCanonical m :=
      ⟨(List.pairwise_cons.1 hm.1).2, fun d hd => hm.2 d (by simp [hd])⟩
    have hcm := (List.pairwise_cons.1 hm.1).1
    cases n with
    | nil =>
      have := h c.1
      rw [cellGet_of_mem hm (c := c) (by simp)] at this
      exact absurd this (hm.2 c (by simp))
    | cons d n =>
      have hn' : cellsCanonical n :=
        ⟨(List.pairwise_cons.1 hn.1).2, fun e he => hn.2 e (by simp [he])⟩
      have hdn := (List.pairwise_cons.1 hn.1).1
      have hc := h c.1
      have hd := h d.1
      rw [cellGet_of_mem hm (c := c) (by simp)] at hc
      rw [cellGet_of_mem hn (c := d) (by simp)] at hd
      have hk : c.1 = d.1 := by
        rcases Nat.lt_trichotomy c.1 d.1 with hlt | heq | hgt
        · exfalso
          refine hm.2 c (by simp) (hc.trans (cellGet_eq_zero_of_lt fun e he => ?_))
          rcases List.mem_cons.1 he with rfl | he
          · exact hlt
          · exact Nat.lt_trans hlt (hdn e he)
        · exact heq
        · exfalso
          refine hn.2 d (by simp) (hd.symm.trans (cellGet_eq_zero_of_lt fun e he => ?_))
          rcases List.mem_cons.1 he with rfl | he
          · exact hgt
          · exact Nat.lt_trans hgt (hcm e he)
      have hv : c.2 = d.2 := by
        rw [hk, cellGet_of_mem hn (c := d) (by simp)] at hc
        exact hc
      have hcd : c = d := Prod.ext hk hv
      subst hcd
      rw [ih hm' hn' fun a => ?_]
      have ha := h a
      by_cases hac : c.1 = a
      · subst hac
        rw [cellGet_eq_zero_of_lt hcm, cellGet_eq_zero_of_lt hdn]
      · obtain ⟨k, w⟩ := c
        simpa only [cellGet, if_neg hac] using ha

/-- Canonical stores that hold the same value and the same written bits are the same data (log 7). -/
theorem Memory.ext_get {m n : Memory} (hm : m.wf) (hn : n.wf)
    (h : ∀ a, cellGet m.value a = cellGet n.value a ∧ cellGet m.known a = cellGet n.known a) :
    m = n := by
  have h1 := cells_ext hm.1 hn.1 fun a => (h a).1
  have h2 := cells_ext hm.2.1 hn.2.1 fun a => (h a).2
  cases m; cases n; simp_all

/-- The two bytes a store holds for an address: the value and which of its bits were written. -/
def Memory.cell (m : Memory) (a : Nat) : Byte × Byte := (cellGet m.value a, cellGet m.known a)

theorem Memory.ext_cell {m n : Memory} (hm : m.wf) (hn : n.wf) (h : ∀ a, m.cell a = n.cell a) :
    m = n :=
  Memory.ext_get hm hn fun a => Prod.mk.inj (h a)

theorem Memory.cell_writeByte {m : Memory} (hm : m.wf) (a b : Nat) (v : Byte) :
    (m.writeByte a v).cell b = if b = a then (v, 0xFF) else m.cell b := by
  unfold Memory.cell Memory.writeByte
  rw [cellGet_cellSet hm.1, cellGet_cellSet hm.2.1]
  split <;> rfl

theorem Memory.cell_writeWord_ne (m : Memory) {a b : Nat} (v : Word) (h : b < a ∨ a + 4 ≤ b) :
    (m.writeWord a v).cell b = m.cell b := by
  have ne (m : Memory) {a b : Nat} (v : Byte) (h : b ≠ a) : (m.writeByte a v).cell b = m.cell b := by
    simp only [Memory.cell, Memory.writeByte, cellGet_cellSet_ne _ _ h]
  unfold Memory.writeWord
  rw [ne _ _ (by omega), ne _ _ (by omega), ne _ _ (by omega), ne _ _ (by omega)]

/-- What a word write leaves does not depend on what stood at its four bytes. -/
theorem Memory.cell_writeWord_congr {m n : Memory} (hm : m.wf) (hn : n.wf) (a b : Nat) (v : Word)
    (h : (b < a ∨ a + 4 ≤ b) → m.cell b = n.cell b) :
    (m.writeWord a v).cell b = (n.writeWord a v).cell b := by
  by_cases hb : b < a ∨ a + 4 ≤ b
  · rw [Memory.cell_writeWord_ne _ _ hb, Memory.cell_writeWord_ne _ _ hb, h hb]
  · have step {m n : Memory} (hm : m.wf) (hn : n.wf) (c : Nat) (v : Byte)
        (h : b ≠ c → m.cell b = n.cell b) : (m.writeByte c v).cell b = (n.writeByte c v).cell b := by
      rw [Memory.cell_writeByte hm, Memory.cell_writeByte hn]
      split
      · rfl
      · rename_i hc; exact h hc
    have m1 := Memory.wf_writeByte hm a (v.extractLsb' 0 8)
    have n1 := Memory.wf_writeByte hn a (v.extractLsb' 0 8)
    have m2 := Memory.wf_writeByte m1 (a + 1) (v.extractLsb' 8 8)
    have n2 := Memory.wf_writeByte n1 (a + 1) (v.extractLsb' 8 8)
    have m3 := Memory.wf_writeByte m2 (a + 2) (v.extractLsb' 16 8)
    have n3 := Memory.wf_writeByte n2 (a + 2) (v.extractLsb' 16 8)
    unfold Memory.writeWord
    refine step m3 n3 _ _ fun h3 => step m2 n2 _ _ fun h2 => step m1 n1 _ _ fun h1 =>
      step hm hn _ _ fun h0 => ?_
    omega

theorem Memory.cell_writeWords_ne (m : Memory) {a b : Nat} (ws : List Word)
    (h : b < a ∨ a + 4 * ws.length ≤ b) : (m.writeWords a ws).cell b = m.cell b := by
  induction ws generalizing m a with
  | nil => rfl
  | cons w ws ih =>
    simp only [List.length_cons] at h
    rw [Memory.writeWords, ih (m.writeWord a w) (a := a + 4) (by omega),
      Memory.cell_writeWord_ne _ _ (by omega)]

/-- What writing consecutive words leaves does not depend on what stood at their bytes. -/
theorem Memory.cell_writeWords_congr {m n : Memory} (hm : m.wf) (hn : n.wf) (a b : Nat)
    (ws : List Word) (h : (b < a ∨ a + 4 * ws.length ≤ b) → m.cell b = n.cell b) :
    (m.writeWords a ws).cell b = (n.writeWords a ws).cell b := by
  induction ws generalizing m n a with
  | nil => exact h (by simp only [List.length_nil]; omega)
  | cons w ws ih =>
    refine ih (Memory.wf_writeWord hm _ _) (Memory.wf_writeWord hn _ _) (a + 4) fun hb => ?_
    refine Memory.cell_writeWord_congr hm hn a b w fun hb' => h ?_
    simp only [List.length_cons]
    omega

/-- Writing the same word twice equals writing it once (20 R109). -/
theorem Memory.writeWord_writeWord_same {m : Memory} (hm : m.wf) (a : Nat) (v : Word) :
    (m.writeWord a v).writeWord a v = m.writeWord a v := by
  have h1 := Memory.wf_writeWord hm a v
  refine Memory.ext_cell (Memory.wf_writeWord h1 a v) h1 fun b => ?_
  exact Memory.cell_writeWord_congr h1 hm a b v fun hb => Memory.cell_writeWord_ne m v hb

/-- Writes of words to places apart may be swapped. -/
theorem Memory.writeWords_comm {m : Memory} (hm : m.wf) {a b : Nat} (ws vs : List Word)
    (h : a + 4 * ws.length ≤ b ∨ b + 4 * vs.length ≤ a) :
    (m.writeWords a ws).writeWords b vs = (m.writeWords b vs).writeWords a ws := by
  have h1 := Memory.wf_writeWords hm a ws
  have h2 := Memory.wf_writeWords hm b vs
  refine Memory.ext_cell (Memory.wf_writeWords h1 b vs) (Memory.wf_writeWords h2 a ws)
    fun c => ?_
  by_cases hc : c < b ∨ b + 4 * vs.length ≤ c
  · rw [Memory.cell_writeWords_ne _ _ hc]
    exact Memory.cell_writeWords_congr hm h2 a c ws fun _ =>
      (Memory.cell_writeWords_ne _ _ hc).symm
  · have hc' : c < a ∨ a + 4 * ws.length ≤ c := by omega
    rw [Memory.cell_writeWords_ne _ ws hc']
    exact Memory.cell_writeWords_congr h1 hm b c vs fun _ => Memory.cell_writeWords_ne _ _ hc'

end Sys2Proof.Machine
end

