-- ==== Sys2Proof/Laws/State.lean ====
section
/-!
SUPPORT. One lemma per field per update of State, each true by rfl and a simp lemma, and the lemmas
of the per-buffer registers.
-/

namespace Sys2Proof.Machine

@[simp] theorem PerBuf.get_all {α : Type} (x : α) (b : BufId) : (PerBuf.all x).get b = x := by
  cases b <;> rfl

@[simp] theorem PerBuf.get_set_same {α : Type} (p : PerBuf α) (b : BufId) (x : α) :
    (p.set b x).get b = x := by
  cases b <;> rfl

theorem PerBuf.get_set_ne {α : Type} (p : PerBuf α) {b c : BufId} (x : α) (h : c ≠ b) :
    (p.set b x).get c = p.get c := by
  cases b <;> cases c <;> first | rfl | exact absurd rfl h

theorem PerBuf.get_set {α : Type} (p : PerBuf α) (b c : BufId) (x : α) :
    (p.set b x).get c = if c = b then x else p.get c := by
  cases b <;> cases c <;> rfl

theorem PerBuf.set_set_same {α : Type} (p : PerBuf α) (b : BufId) (x y : α) :
    (p.set b x).set b y = p.set b y := by
  cases b <;> rfl

theorem PerBuf.set_set_comm {α : Type} (p : PerBuf α) {b c : BufId} (x y : α) (h : c ≠ b) :
    (p.set b x).set c y = (p.set c y).set b x := by
  cases b <;> cases c <;> first | rfl | exact absurd rfl h

/-- Two per-buffer registers with the same entries are the same. -/
theorem PerBuf.ext_get {α : Type} {p q : PerBuf α} (h : ∀ b, p.get b = q.get b) : p = q := by
  cases p; cases q
  have h0 := h .rawA; have h1 := h .rawB; have h2 := h .xored; have h3 := h .extracted
  simp only [PerBuf.get] at h0 h1 h2 h3
  subst h0; subst h1; subst h2; subst h3; rfl

/-! `State.raise`, field by field. -/

@[simp] theorem State.raise_cfg (s : State) (e : ErrKind) (info : Word) :
    (s.raise e info).cfg = s.cfg := rfl
@[simp] theorem State.raise_cmd (s : State) (e : ErrKind) (info : Word) :
    (s.raise e info).cmd = s.cmd := rfl
@[simp] theorem State.raise_busy (s : State) (e : ErrKind) (info : Word) :
    (s.raise e info).busy = s.busy := rfl
@[simp] theorem State.raise_done (s : State) (e : ErrKind) (info : Word) :
    (s.raise e info).done = s.done := rfl
@[simp] theorem State.raise_err (s : State) (e : ErrKind) (info : Word) :
    (s.raise e info).err = true := rfl
@[simp] theorem State.raise_reportValid (s : State) (e : ErrKind) (info : Word) :
    (s.raise e info).reportValid = s.reportValid := rfl
@[simp] theorem State.raise_cmdRej (s : State) (e : ErrKind) (info : Word) :
    (s.raise e info).cmdRej = s.cmdRej := rfl
@[simp] theorem State.raise_accRej (s : State) (e : ErrKind) (info : Word) :
    (s.raise e info).accRej = s.accRej := rfl
@[simp] theorem State.raise_errcode (s : State) (e : ErrKind) (info : Word) :
    (s.raise e info).errcode = e := rfl
@[simp] theorem State.raise_stage (s : State) (e : ErrKind) (info : Word) :
    (s.raise e info).stage = s.stage := rfl
@[simp] theorem State.raise_doneIe (s : State) (e : ErrKind) (info : Word) :
    (s.raise e info).doneIe = s.doneIe := rfl
@[simp] theorem State.raise_errIe (s : State) (e : ErrKind) (info : Word) :
    (s.raise e info).errIe = s.errIe := rfl
@[simp] theorem State.raise_dimA (s : State) (e : ErrKind) (info : Word) :
    (s.raise e info).dimA = s.dimA := rfl
@[simp] theorem State.raise_dimB (s : State) (e : ErrKind) (info : Word) :
    (s.raise e info).dimB = s.dimB := rfl
@[simp] theorem State.raise_cinBuf (s : State) (e : ErrKind) (info : Word) :
    (s.raise e info).cinBuf = s.cinBuf := rfl
@[simp] theorem State.raise_outBuf (s : State) (e : ErrKind) (info : Word) :
    (s.raise e info).outBuf = s.outBuf := rfl
@[simp] theorem State.raise_hexpos (s : State) (e : ErrKind) (info : Word) :
    (s.raise e info).hexpos = s.hexpos := rfl
@[simp] theorem State.raise_binpos (s : State) (e : ErrKind) (info : Word) :
    (s.raise e info).binpos = s.binpos := rfl
@[simp] theorem State.raise_len (s : State) (e : ErrKind) (info : Word) :
    (s.raise e info).len = s.len := rfl
@[simp] theorem State.raise_errinfo (s : State) (e : ErrKind) (info : Word) :
    (s.raise e info).errinfo = info := rfl
@[simp] theorem State.raise_vstat (s : State) (e : ErrKind) (info : Word) :
    (s.raise e info).vstat = s.vstat := rfl
@[simp] theorem State.raise_vn (s : State) (e : ErrKind) (info : Word) :
    (s.raise e info).vn = s.vn := rfl
@[simp] theorem State.raise_vnwin (s : State) (e : ErrKind) (info : Word) :
    (s.raise e info).vnwin = s.vnwin := rfl
@[simp] theorem State.raise_vnfail (s : State) (e : ErrKind) (info : Word) :
    (s.raise e info).vnfail = s.vnfail := rfl
@[simp] theorem State.raise_mem (s : State) (e : ErrKind) (info : Word) :
    (s.raise e info).mem = s.mem := rfl
@[simp] theorem State.raise_pend (s : State) (e : ErrKind) (info : Word) :
    (s.raise e info).pend = s.pend := rfl
@[simp] theorem State.raise_memDraw (s : State) (e : ErrKind) (info : Word) :
    (s.raise e info).memDraw = s.memDraw := rfl
@[simp] theorem State.raise_draws (s : State) (e : ErrKind) (info : Word) :
    (s.raise e info).draws = s.draws := rfl
@[simp] theorem State.raise_host (s : State) (e : ErrKind) (info : Word) :
    (s.raise e info).host = s.host := rfl
@[simp] theorem State.raise_sched (s : State) (e : ErrKind) (info : Word) :
    (s.raise e info).sched = s.sched := rfl
@[simp] theorem State.raise_obs (s : State) (e : ErrKind) (info : Word) :
    (s.raise e info).obs = s.obs := rfl
@[simp] theorem State.raise_readByte (s : State) (e : ErrKind) (info : Word) (a : Nat) :
    (s.raise e info).readByte a = s.readByte a := rfl
@[simp] theorem State.raise_readWord (s : State) (e : ErrKind) (info : Word) (a : Nat) :
    (s.raise e info).readWord a = s.readWord a := rfl
@[simp] theorem State.raise_bufBit (s : State) (e : ErrKind) (info : Word) (c : BufId) (j : Nat) :
    (s.raise e info).bufBit c j = s.bufBit c j := rfl
@[simp] theorem State.raise_bits (s : State) (e : ErrKind) (info : Word) (c : BufId) :
    (s.raise e info).bits c = s.bits c := rfl

/-! `State.acknowledge`, field by field. -/

@[simp] theorem State.acknowledge_cfg (s : State) : s.acknowledge.cfg = s.cfg := rfl
@[simp] theorem State.acknowledge_cmd (s : State) : s.acknowledge.cmd = s.cmd := rfl
@[simp] theorem State.acknowledge_busy (s : State) : s.acknowledge.busy = s.busy := rfl
@[simp] theorem State.acknowledge_done (s : State) : s.acknowledge.done = s.done := rfl
@[simp] theorem State.acknowledge_err (s : State) : s.acknowledge.err = false := rfl
@[simp] theorem State.acknowledge_reportValid (s : State) :
    s.acknowledge.reportValid = s.reportValid := rfl
@[simp] theorem State.acknowledge_cmdRej (s : State) : s.acknowledge.cmdRej = s.cmdRej := rfl
@[simp] theorem State.acknowledge_accRej (s : State) : s.acknowledge.accRej = s.accRej := rfl
@[simp] theorem State.acknowledge_errcode (s : State) : s.acknowledge.errcode = .none := rfl
@[simp] theorem State.acknowledge_stage (s : State) : s.acknowledge.stage = s.stage := rfl
@[simp] theorem State.acknowledge_doneIe (s : State) : s.acknowledge.doneIe = s.doneIe := rfl
@[simp] theorem State.acknowledge_errIe (s : State) : s.acknowledge.errIe = s.errIe := rfl
@[simp] theorem State.acknowledge_dimA (s : State) : s.acknowledge.dimA = s.dimA := rfl
@[simp] theorem State.acknowledge_dimB (s : State) : s.acknowledge.dimB = s.dimB := rfl
@[simp] theorem State.acknowledge_cinBuf (s : State) : s.acknowledge.cinBuf = s.cinBuf := rfl
@[simp] theorem State.acknowledge_outBuf (s : State) : s.acknowledge.outBuf = s.outBuf := rfl
@[simp] theorem State.acknowledge_hexpos (s : State) : s.acknowledge.hexpos = s.hexpos := rfl
@[simp] theorem State.acknowledge_binpos (s : State) : s.acknowledge.binpos = s.binpos := rfl
@[simp] theorem State.acknowledge_len (s : State) : s.acknowledge.len = s.len := rfl
@[simp] theorem State.acknowledge_errinfo (s : State) : s.acknowledge.errinfo = 0 := rfl
@[simp] theorem State.acknowledge_vstat (s : State) : s.acknowledge.vstat = s.vstat := rfl
@[simp] theorem State.acknowledge_vn (s : State) : s.acknowledge.vn = s.vn := rfl
@[simp] theorem State.acknowledge_vnwin (s : State) : s.acknowledge.vnwin = s.vnwin := rfl
@[simp] theorem State.acknowledge_vnfail (s : State) : s.acknowledge.vnfail = s.vnfail := rfl
@[simp] theorem State.acknowledge_mem (s : State) : s.acknowledge.mem = s.mem := rfl
@[simp] theorem State.acknowledge_pend (s : State) : s.acknowledge.pend = s.pend := rfl
@[simp] theorem State.acknowledge_memDraw (s : State) : s.acknowledge.memDraw = s.memDraw := rfl
@[simp] theorem State.acknowledge_draws (s : State) : s.acknowledge.draws = s.draws := rfl
@[simp] theorem State.acknowledge_host (s : State) : s.acknowledge.host = s.host := rfl
@[simp] theorem State.acknowledge_sched (s : State) : s.acknowledge.sched = s.sched := rfl
@[simp] theorem State.acknowledge_obs (s : State) : s.acknowledge.obs = s.obs := rfl
@[simp] theorem State.acknowledge_readByte (s : State) (a : Nat) :
    s.acknowledge.readByte a = s.readByte a := rfl
@[simp] theorem State.acknowledge_readWord (s : State) (a : Nat) :
    s.acknowledge.readWord a = s.readWord a := rfl
@[simp] theorem State.acknowledge_bufBit (s : State) (c : BufId) (j : Nat) :
    s.acknowledge.bufBit c j = s.bufBit c j := rfl
@[simp] theorem State.acknowledge_bits (s : State) (c : BufId) :
    s.acknowledge.bits c = s.bits c := rfl

/-! `State.finish`, field by field. -/

@[simp] theorem State.finish_cfg (s : State) : s.finish.cfg = s.cfg := rfl
@[simp] theorem State.finish_cmd (s : State) : s.finish.cmd = s.cmd := rfl
@[simp] theorem State.finish_busy (s : State) : s.finish.busy = false := rfl
@[simp] theorem State.finish_done (s : State) : s.finish.done = s.done := rfl
@[simp] theorem State.finish_err (s : State) : s.finish.err = s.err := rfl
@[simp] theorem State.finish_reportValid (s : State) : s.finish.reportValid = s.reportValid := rfl
@[simp] theorem State.finish_cmdRej (s : State) : s.finish.cmdRej = s.cmdRej := rfl
@[simp] theorem State.finish_accRej (s : State) : s.finish.accRej = s.accRej := rfl
@[simp] theorem State.finish_errcode (s : State) : s.finish.errcode = s.errcode := rfl
@[simp] theorem State.finish_stage (s : State) : s.finish.stage = .idle := rfl
@[simp] theorem State.finish_doneIe (s : State) : s.finish.doneIe = s.doneIe := rfl
@[simp] theorem State.finish_errIe (s : State) : s.finish.errIe = s.errIe := rfl
@[simp] theorem State.finish_dimA (s : State) : s.finish.dimA = s.dimA := rfl
@[simp] theorem State.finish_dimB (s : State) : s.finish.dimB = s.dimB := rfl
@[simp] theorem State.finish_cinBuf (s : State) : s.finish.cinBuf = s.cinBuf := rfl
@[simp] theorem State.finish_outBuf (s : State) : s.finish.outBuf = s.outBuf := rfl
@[simp] theorem State.finish_hexpos (s : State) : s.finish.hexpos = s.hexpos := rfl
@[simp] theorem State.finish_binpos (s : State) : s.finish.binpos = s.binpos := rfl
@[simp] theorem State.finish_len (s : State) : s.finish.len = s.len := rfl
@[simp] theorem State.finish_errinfo (s : State) : s.finish.errinfo = s.errinfo := rfl
@[simp] theorem State.finish_vstat (s : State) : s.finish.vstat = s.vstat := rfl
@[simp] theorem State.finish_vn (s : State) : s.finish.vn = s.vn := rfl
@[simp] theorem State.finish_vnwin (s : State) : s.finish.vnwin = s.vnwin := rfl
@[simp] theorem State.finish_vnfail (s : State) : s.finish.vnfail = s.vnfail := rfl
@[simp] theorem State.finish_mem (s : State) : s.finish.mem = s.mem := rfl
@[simp] theorem State.finish_pend (s : State) : s.finish.pend = none := rfl
@[simp] theorem State.finish_memDraw (s : State) : s.finish.memDraw = s.memDraw := rfl
@[simp] theorem State.finish_draws (s : State) : s.finish.draws = s.draws + 1 := rfl
@[simp] theorem State.finish_host (s : State) : s.finish.host = s.host := rfl
@[simp] theorem State.finish_sched (s : State) : s.finish.sched = s.sched := rfl
@[simp] theorem State.finish_obs (s : State) : s.finish.obs = s.obs := rfl
@[simp] theorem State.finish_readByte (s : State) (a : Nat) :
    s.finish.readByte a = s.readByte a := rfl
@[simp] theorem State.finish_readWord (s : State) (a : Nat) :
    s.finish.readWord a = s.readWord a := rfl
@[simp] theorem State.finish_bufBit (s : State) (c : BufId) (j : Nat) :
    s.finish.bufBit c j = s.bufBit c j := rfl
@[simp] theorem State.finish_bits (s : State) (c : BufId) :
    s.finish.bits c = s.bits c := rfl

/-! `State.complete`, field by field. -/

@[simp] theorem State.complete_cfg (s : State) : s.complete.cfg = s.cfg := rfl
@[simp] theorem State.complete_cmd (s : State) : s.complete.cmd = s.cmd := rfl
@[simp] theorem State.complete_busy (s : State) : s.complete.busy = false := rfl
@[simp] theorem State.complete_done (s : State) : s.complete.done = true := rfl
@[simp] theorem State.complete_err (s : State) : s.complete.err = s.err := rfl
@[simp] theorem State.complete_reportValid (s : State) :
    s.complete.reportValid = s.reportValid := rfl
@[simp] theorem State.complete_cmdRej (s : State) : s.complete.cmdRej = s.cmdRej := rfl
@[simp] theorem State.complete_accRej (s : State) : s.complete.accRej = s.accRej := rfl
@[simp] theorem State.complete_errcode (s : State) : s.complete.errcode = s.errcode := rfl
@[simp] theorem State.complete_stage (s : State) : s.complete.stage = .idle := rfl
@[simp] theorem State.complete_doneIe (s : State) : s.complete.doneIe = s.doneIe := rfl
@[simp] theorem State.complete_errIe (s : State) : s.complete.errIe = s.errIe := rfl
@[simp] theorem State.complete_dimA (s : State) : s.complete.dimA = s.dimA := rfl
@[simp] theorem State.complete_dimB (s : State) : s.complete.dimB = s.dimB := rfl
@[simp] theorem State.complete_cinBuf (s : State) : s.complete.cinBuf = s.cinBuf := rfl
@[simp] theorem State.complete_outBuf (s : State) : s.complete.outBuf = s.outBuf := rfl
@[simp] theorem State.complete_hexpos (s : State) : s.complete.hexpos = s.hexpos := rfl
@[simp] theorem State.complete_binpos (s : State) : s.complete.binpos = s.binpos := rfl
@[simp] theorem State.complete_len (s : State) : s.complete.len = s.len := rfl
@[simp] theorem State.complete_errinfo (s : State) : s.complete.errinfo = s.errinfo := rfl
@[simp] theorem State.complete_vstat (s : State) : s.complete.vstat = s.vstat := rfl
@[simp] theorem State.complete_vn (s : State) : s.complete.vn = s.vn := rfl
@[simp] theorem State.complete_vnwin (s : State) : s.complete.vnwin = s.vnwin := rfl
@[simp] theorem State.complete_vnfail (s : State) : s.complete.vnfail = s.vnfail := rfl
@[simp] theorem State.complete_mem (s : State) : s.complete.mem = s.mem := rfl
@[simp] theorem State.complete_pend (s : State) : s.complete.pend = none := rfl
@[simp] theorem State.complete_memDraw (s : State) : s.complete.memDraw = s.memDraw := rfl
@[simp] theorem State.complete_draws (s : State) : s.complete.draws = s.draws + 1 := rfl
@[simp] theorem State.complete_host (s : State) : s.complete.host = s.host := rfl
@[simp] theorem State.complete_sched (s : State) : s.complete.sched = s.sched := rfl
@[simp] theorem State.complete_obs (s : State) : s.complete.obs = s.obs := rfl
@[simp] theorem State.complete_readByte (s : State) (a : Nat) :
    s.complete.readByte a = s.readByte a := rfl
@[simp] theorem State.complete_readWord (s : State) (a : Nat) :
    s.complete.readWord a = s.readWord a := rfl
@[simp] theorem State.complete_bufBit (s : State) (c : BufId) (j : Nat) :
    s.complete.bufBit c j = s.bufBit c j := rfl
@[simp] theorem State.complete_bits (s : State) (c : BufId) :
    s.complete.bits c = s.bits c := rfl

/-! `State.abort`, field by field. -/

@[simp] theorem State.abort_cfg (s : State) (e : ErrKind) (i : Instr) :
    (s.abort e i).cfg = s.cfg := rfl
@[simp] theorem State.abort_cmd (s : State) (e : ErrKind) (i : Instr) :
    (s.abort e i).cmd = s.cmd := rfl
@[simp] theorem State.abort_busy (s : State) (e : ErrKind) (i : Instr) :
    (s.abort e i).busy = false := rfl
@[simp] theorem State.abort_done (s : State) (e : ErrKind) (i : Instr) :
    (s.abort e i).done = s.done := rfl
@[simp] theorem State.abort_err (s : State) (e : ErrKind) (i : Instr) :
    (s.abort e i).err = true := rfl
@[simp] theorem State.abort_reportValid (s : State) (e : ErrKind) (i : Instr) :
    (s.abort e i).reportValid = s.reportValid := rfl
@[simp] theorem State.abort_cmdRej (s : State) (e : ErrKind) (i : Instr) :
    (s.abort e i).cmdRej = s.cmdRej := rfl
@[simp] theorem State.abort_accRej (s : State) (e : ErrKind) (i : Instr) :
    (s.abort e i).accRej = s.accRej := rfl
@[simp] theorem State.abort_errcode (s : State) (e : ErrKind) (i : Instr) :
    (s.abort e i).errcode = e := rfl
@[simp] theorem State.abort_stage (s : State) (e : ErrKind) (i : Instr) :
    (s.abort e i).stage = .idle := rfl
@[simp] theorem State.abort_doneIe (s : State) (e : ErrKind) (i : Instr) :
    (s.abort e i).doneIe = s.doneIe := rfl
@[simp] theorem State.abort_errIe (s : State) (e : ErrKind) (i : Instr) :
    (s.abort e i).errIe = s.errIe := rfl
@[simp] theorem State.abort_dimA (s : State) (e : ErrKind) (i : Instr) :
    (s.abort e i).dimA = s.dimA := rfl
@[simp] theorem State.abort_dimB (s : State) (e : ErrKind) (i : Instr) :
    (s.abort e i).dimB = s.dimB := rfl
@[simp] theorem State.abort_cinBuf (s : State) (e : ErrKind) (i : Instr) :
    (s.abort e i).cinBuf = s.cinBuf := rfl
@[simp] theorem State.abort_outBuf (s : State) (e : ErrKind) (i : Instr) :
    (s.abort e i).outBuf = s.outBuf := rfl
@[simp] theorem State.abort_hexpos (s : State) (e : ErrKind) (i : Instr) :
    (s.abort e i).hexpos = s.hexpos := rfl
@[simp] theorem State.abort_binpos (s : State) (e : ErrKind) (i : Instr) :
    (s.abort e i).binpos = s.binpos := rfl
@[simp] theorem State.abort_len (s : State) (e : ErrKind) (i : Instr) :
    (s.abort e i).len = s.len := rfl
@[simp] theorem State.abort_errinfo (s : State) (e : ErrKind) (i : Instr) :
    (s.abort e i).errinfo = encode i := rfl
@[simp] theorem State.abort_vstat (s : State) (e : ErrKind) (i : Instr) :
    (s.abort e i).vstat = s.vstat := rfl
@[simp] theorem State.abort_vn (s : State) (e : ErrKind) (i : Instr) :
    (s.abort e i).vn = s.vn := rfl
@[simp] theorem State.abort_vnwin (s : State) (e : ErrKind) (i : Instr) :
    (s.abort e i).vnwin = s.vnwin := rfl
@[simp] theorem State.abort_vnfail (s : State) (e : ErrKind) (i : Instr) :
    (s.abort e i).vnfail = s.vnfail := rfl
@[simp] theorem State.abort_mem (s : State) (e : ErrKind) (i : Instr) :
    (s.abort e i).mem = s.mem := rfl
@[simp] theorem State.abort_pend (s : State) (e : ErrKind) (i : Instr) :
    (s.abort e i).pend = none := rfl
@[simp] theorem State.abort_memDraw (s : State) (e : ErrKind) (i : Instr) :
    (s.abort e i).memDraw = s.memDraw := rfl
@[simp] theorem State.abort_draws (s : State) (e : ErrKind) (i : Instr) :
    (s.abort e i).draws = s.draws + 1 := rfl
@[simp] theorem State.abort_host (s : State) (e : ErrKind) (i : Instr) :
    (s.abort e i).host = s.host := rfl
@[simp] theorem State.abort_sched (s : State) (e : ErrKind) (i : Instr) :
    (s.abort e i).sched = s.sched := rfl
@[simp] theorem State.abort_obs (s : State) (e : ErrKind) (i : Instr) :
    (s.abort e i).obs = s.obs := rfl
@[simp] theorem State.abort_readByte (s : State) (e : ErrKind) (i : Instr) (a : Nat) :
    (s.abort e i).readByte a = s.readByte a := rfl
@[simp] theorem State.abort_readWord (s : State) (e : ErrKind) (i : Instr) (a : Nat) :
    (s.abort e i).readWord a = s.readWord a := rfl
@[simp] theorem State.abort_bufBit (s : State) (e : ErrKind) (i : Instr) (c : BufId) (j : Nat) :
    (s.abort e i).bufBit c j = s.bufBit c j := rfl
@[simp] theorem State.abort_bits (s : State) (e : ErrKind) (i : Instr) (c : BufId) :
    (s.abort e i).bits c = s.bits c := rfl

/-! `State.invalidate`, field by field. -/

@[simp] theorem State.invalidate_cfg (s : State) (b : BufId) : (s.invalidate b).cfg = s.cfg := rfl
@[simp] theorem State.invalidate_cmd (s : State) (b : BufId) : (s.invalidate b).cmd = s.cmd := rfl
@[simp] theorem State.invalidate_busy (s : State) (b : BufId) :
    (s.invalidate b).busy = s.busy := rfl
@[simp] theorem State.invalidate_done (s : State) (b : BufId) :
    (s.invalidate b).done = s.done := rfl
@[simp] theorem State.invalidate_err (s : State) (b : BufId) : (s.invalidate b).err = s.err := rfl
@[simp] theorem State.invalidate_reportValid (s : State) (b : BufId) :
    (s.invalidate b).reportValid = false := rfl
@[simp] theorem State.invalidate_cmdRej (s : State) (b : BufId) :
    (s.invalidate b).cmdRej = s.cmdRej := rfl
@[simp] theorem State.invalidate_accRej (s : State) (b : BufId) :
    (s.invalidate b).accRej = s.accRej := rfl
@[simp] theorem State.invalidate_errcode (s : State) (b : BufId) :
    (s.invalidate b).errcode = s.errcode := rfl
@[simp] theorem State.invalidate_stage (s : State) (b : BufId) :
    (s.invalidate b).stage = s.stage := rfl
@[simp] theorem State.invalidate_doneIe (s : State) (b : BufId) :
    (s.invalidate b).doneIe = s.doneIe := rfl
@[simp] theorem State.invalidate_errIe (s : State) (b : BufId) :
    (s.invalidate b).errIe = s.errIe := rfl
@[simp] theorem State.invalidate_dimA (s : State) (b : BufId) :
    (s.invalidate b).dimA = s.dimA := rfl
@[simp] theorem State.invalidate_dimB (s : State) (b : BufId) :
    (s.invalidate b).dimB = s.dimB := rfl
@[simp] theorem State.invalidate_cinBuf (s : State) (b : BufId) :
    (s.invalidate b).cinBuf = s.cinBuf := rfl
@[simp] theorem State.invalidate_outBuf (s : State) (b : BufId) :
    (s.invalidate b).outBuf = s.outBuf := rfl
@[simp] theorem State.invalidate_hexpos (s : State) (b : BufId) :
    (s.invalidate b).hexpos = s.hexpos := rfl
@[simp] theorem State.invalidate_binpos (s : State) (b : BufId) :
    (s.invalidate b).binpos = s.binpos := rfl
@[simp] theorem State.invalidate_len (s : State) (b : BufId) : (s.invalidate b).len = s.len := rfl
@[simp] theorem State.invalidate_errinfo (s : State) (b : BufId) :
    (s.invalidate b).errinfo = s.errinfo := rfl
@[simp] theorem State.invalidate_vstat (s : State) (b : BufId) :
    (s.invalidate b).vstat = s.vstat.set b { s.vstat.get b with valid := false } := rfl
@[simp] theorem State.invalidate_vn (s : State) (b : BufId) : (s.invalidate b).vn = s.vn := rfl
@[simp] theorem State.invalidate_vnwin (s : State) (b : BufId) :
    (s.invalidate b).vnwin = s.vnwin := rfl
@[simp] theorem State.invalidate_vnfail (s : State) (b : BufId) :
    (s.invalidate b).vnfail = s.vnfail := rfl
@[simp] theorem State.invalidate_mem (s : State) (b : BufId) : (s.invalidate b).mem = s.mem := rfl
@[simp] theorem State.invalidate_pend (s : State) (b : BufId) :
    (s.invalidate b).pend = s.pend := rfl
@[simp] theorem State.invalidate_memDraw (s : State) (b : BufId) :
    (s.invalidate b).memDraw = s.memDraw := rfl
@[simp] theorem State.invalidate_draws (s : State) (b : BufId) :
    (s.invalidate b).draws = s.draws := rfl
@[simp] theorem State.invalidate_host (s : State) (b : BufId) :
    (s.invalidate b).host = s.host := rfl
@[simp] theorem State.invalidate_sched (s : State) (b : BufId) :
    (s.invalidate b).sched = s.sched := rfl
@[simp] theorem State.invalidate_obs (s : State) (b : BufId) : (s.invalidate b).obs = s.obs := rfl
@[simp] theorem State.invalidate_readByte (s : State) (b : BufId) (a : Nat) :
    (s.invalidate b).readByte a = s.readByte a := rfl
@[simp] theorem State.invalidate_readWord (s : State) (b : BufId) (a : Nat) :
    (s.invalidate b).readWord a = s.readWord a := rfl
@[simp] theorem State.invalidate_bufBit (s : State) (b : BufId) (c : BufId) (j : Nat) :
    (s.invalidate b).bufBit c j = s.bufBit c j := rfl
@[simp] theorem State.invalidate_bits (s : State) (b : BufId) (c : BufId) :
    (s.invalidate b).bits c = s.bits c := rfl

/-! `State.storeStream`, field by field. -/

@[simp] theorem State.storeStream_cfg (s : State) (d : BufId) (bs : BitString) :
    (s.storeStream d bs).cfg = s.cfg := rfl
@[simp] theorem State.storeStream_cmd (s : State) (d : BufId) (bs : BitString) :
    (s.storeStream d bs).cmd = s.cmd := rfl
@[simp] theorem State.storeStream_busy (s : State) (d : BufId) (bs : BitString) :
    (s.storeStream d bs).busy = s.busy := rfl
@[simp] theorem State.storeStream_done (s : State) (d : BufId) (bs : BitString) :
    (s.storeStream d bs).done = s.done := rfl
@[simp] theorem State.storeStream_err (s : State) (d : BufId) (bs : BitString) :
    (s.storeStream d bs).err = s.err := rfl
@[simp] theorem State.storeStream_reportValid (s : State) (d : BufId) (bs : BitString) :
    (s.storeStream d bs).reportValid = false := rfl
@[simp] theorem State.storeStream_cmdRej (s : State) (d : BufId) (bs : BitString) :
    (s.storeStream d bs).cmdRej = s.cmdRej := rfl
@[simp] theorem State.storeStream_accRej (s : State) (d : BufId) (bs : BitString) :
    (s.storeStream d bs).accRej = s.accRej := rfl
@[simp] theorem State.storeStream_errcode (s : State) (d : BufId) (bs : BitString) :
    (s.storeStream d bs).errcode = s.errcode := rfl
@[simp] theorem State.storeStream_stage (s : State) (d : BufId) (bs : BitString) :
    (s.storeStream d bs).stage = s.stage := rfl
@[simp] theorem State.storeStream_doneIe (s : State) (d : BufId) (bs : BitString) :
    (s.storeStream d bs).doneIe = s.doneIe := rfl
@[simp] theorem State.storeStream_errIe (s : State) (d : BufId) (bs : BitString) :
    (s.storeStream d bs).errIe = s.errIe := rfl
@[simp] theorem State.storeStream_dimA (s : State) (d : BufId) (bs : BitString) :
    (s.storeStream d bs).dimA = s.dimA := rfl
@[simp] theorem State.storeStream_dimB (s : State) (d : BufId) (bs : BitString) :
    (s.storeStream d bs).dimB = s.dimB := rfl
@[simp] theorem State.storeStream_cinBuf (s : State) (d : BufId) (bs : BitString) :
    (s.storeStream d bs).cinBuf = s.cinBuf := rfl
@[simp] theorem State.storeStream_outBuf (s : State) (d : BufId) (bs : BitString) :
    (s.storeStream d bs).outBuf = s.outBuf := rfl
@[simp] theorem State.storeStream_hexpos (s : State) (d : BufId) (bs : BitString) :
    (s.storeStream d bs).hexpos = s.hexpos := rfl
@[simp] theorem State.storeStream_binpos (s : State) (d : BufId) (bs : BitString) :
    (s.storeStream d bs).binpos = s.binpos := rfl
@[simp] theorem State.storeStream_len (s : State) (d : BufId) (bs : BitString) :
    (s.storeStream d bs).len = s.len.set d (BitVec.ofNat 32 bs.length) := rfl
@[simp] theorem State.storeStream_errinfo (s : State) (d : BufId) (bs : BitString) :
    (s.storeStream d bs).errinfo = s.errinfo := rfl
@[simp] theorem State.storeStream_vstat (s : State) (d : BufId) (bs : BitString) :
    (s.storeStream d bs).vstat = s.vstat.set d { s.vstat.get d with valid := false } := rfl
@[simp] theorem State.storeStream_vn (s : State) (d : BufId) (bs : BitString) :
    (s.storeStream d bs).vn = s.vn := rfl
@[simp] theorem State.storeStream_vnwin (s : State) (d : BufId) (bs : BitString) :
    (s.storeStream d bs).vnwin = s.vnwin := rfl
@[simp] theorem State.storeStream_vnfail (s : State) (d : BufId) (bs : BitString) :
    (s.storeStream d bs).vnfail = s.vnfail := rfl
@[simp] theorem State.storeStream_mem (s : State) (d : BufId) (bs : BitString) :
    (s.storeStream d bs).mem = s.mem.writeWords (bufBase d) (packStream bs) := rfl
@[simp] theorem State.storeStream_pend (s : State) (d : BufId) (bs : BitString) :
    (s.storeStream d bs).pend = s.pend := rfl
@[simp] theorem State.storeStream_memDraw (s : State) (d : BufId) (bs : BitString) :
    (s.storeStream d bs).memDraw = s.memDraw := rfl
@[simp] theorem State.storeStream_draws (s : State) (d : BufId) (bs : BitString) :
    (s.storeStream d bs).draws = s.draws := rfl
@[simp] theorem State.storeStream_host (s : State) (d : BufId) (bs : BitString) :
    (s.storeStream d bs).host = s.host := rfl
@[simp] theorem State.storeStream_sched (s : State) (d : BufId) (bs : BitString) :
    (s.storeStream d bs).sched = s.sched := rfl
@[simp] theorem State.storeStream_obs (s : State) (d : BufId) (bs : BitString) :
    (s.storeStream d bs).obs = s.obs := rfl

/-! `State.setResult`, field by field. -/

@[simp] theorem State.setResult_cfg (s : State) (b : BufId) (v : Verdict) (n k f : Word) :
    (s.setResult b v n k f).cfg = s.cfg := rfl
@[simp] theorem State.setResult_cmd (s : State) (b : BufId) (v : Verdict) (n k f : Word) :
    (s.setResult b v n k f).cmd = s.cmd := rfl
@[simp] theorem State.setResult_busy (s : State) (b : BufId) (v : Verdict) (n k f : Word) :
    (s.setResult b v n k f).busy = s.busy := rfl
@[simp] theorem State.setResult_done (s : State) (b : BufId) (v : Verdict) (n k f : Word) :
    (s.setResult b v n k f).done = s.done := rfl
@[simp] theorem State.setResult_err (s : State) (b : BufId) (v : Verdict) (n k f : Word) :
    (s.setResult b v n k f).err = s.err := rfl
@[simp] theorem State.setResult_reportValid (s : State) (b : BufId) (v : Verdict) (n k f : Word) :
    (s.setResult b v n k f).reportValid = s.reportValid := rfl
@[simp] theorem State.setResult_cmdRej (s : State) (b : BufId) (v : Verdict) (n k f : Word) :
    (s.setResult b v n k f).cmdRej = s.cmdRej := rfl
@[simp] theorem State.setResult_accRej (s : State) (b : BufId) (v : Verdict) (n k f : Word) :
    (s.setResult b v n k f).accRej = s.accRej := rfl
@[simp] theorem State.setResult_errcode (s : State) (b : BufId) (v : Verdict) (n k f : Word) :
    (s.setResult b v n k f).errcode = s.errcode := rfl
@[simp] theorem State.setResult_stage (s : State) (b : BufId) (v : Verdict) (n k f : Word) :
    (s.setResult b v n k f).stage = s.stage := rfl
@[simp] theorem State.setResult_doneIe (s : State) (b : BufId) (v : Verdict) (n k f : Word) :
    (s.setResult b v n k f).doneIe = s.doneIe := rfl
@[simp] theorem State.setResult_errIe (s : State) (b : BufId) (v : Verdict) (n k f : Word) :
    (s.setResult b v n k f).errIe = s.errIe := rfl
@[simp] theorem State.setResult_dimA (s : State) (b : BufId) (v : Verdict) (n k f : Word) :
    (s.setResult b v n k f).dimA = s.dimA := rfl
@[simp] theorem State.setResult_dimB (s : State) (b : BufId) (v : Verdict) (n k f : Word) :
    (s.setResult b v n k f).dimB = s.dimB := rfl
@[simp] theorem State.setResult_cinBuf (s : State) (b : BufId) (v : Verdict) (n k f : Word) :
    (s.setResult b v n k f).cinBuf = s.cinBuf := rfl
@[simp] theorem State.setResult_outBuf (s : State) (b : BufId) (v : Verdict) (n k f : Word) :
    (s.setResult b v n k f).outBuf = s.outBuf := rfl
@[simp] theorem State.setResult_hexpos (s : State) (b : BufId) (v : Verdict) (n k f : Word) :
    (s.setResult b v n k f).hexpos = s.hexpos := rfl
@[simp] theorem State.setResult_binpos (s : State) (b : BufId) (v : Verdict) (n k f : Word) :
    (s.setResult b v n k f).binpos = s.binpos := rfl
@[simp] theorem State.setResult_len (s : State) (b : BufId) (v : Verdict) (n k f : Word) :
    (s.setResult b v n k f).len = s.len := rfl
@[simp] theorem State.setResult_errinfo (s : State) (b : BufId) (v : Verdict) (n k f : Word) :
    (s.setResult b v n k f).errinfo = s.errinfo := rfl
@[simp] theorem State.setResult_vstat (s : State) (b : BufId) (v : Verdict) (n k f : Word) :
    (s.setResult b v n k f).vstat = s.vstat.set b v := rfl
@[simp] theorem State.setResult_vn (s : State) (b : BufId) (v : Verdict) (n k f : Word) :
    (s.setResult b v n k f).vn = s.vn.set b n := rfl
@[simp] theorem State.setResult_vnwin (s : State) (b : BufId) (v : Verdict) (n k f : Word) :
    (s.setResult b v n k f).vnwin = s.vnwin.set b k := rfl
@[simp] theorem State.setResult_vnfail (s : State) (b : BufId) (v : Verdict) (n k f : Word) :
    (s.setResult b v n k f).vnfail = s.vnfail.set b f := rfl
@[simp] theorem State.setResult_mem (s : State) (b : BufId) (v : Verdict) (n k f : Word) :
    (s.setResult b v n k f).mem = s.mem := rfl
@[simp] theorem State.setResult_pend (s : State) (b : BufId) (v : Verdict) (n k f : Word) :
    (s.setResult b v n k f).pend = s.pend := rfl
@[simp] theorem State.setResult_memDraw (s : State) (b : BufId) (v : Verdict) (n k f : Word) :
    (s.setResult b v n k f).memDraw = s.memDraw := rfl
@[simp] theorem State.setResult_draws (s : State) (b : BufId) (v : Verdict) (n k f : Word) :
    (s.setResult b v n k f).draws = s.draws := rfl
@[simp] theorem State.setResult_host (s : State) (b : BufId) (v : Verdict) (n k f : Word) :
    (s.setResult b v n k f).host = s.host := rfl
@[simp] theorem State.setResult_sched (s : State) (b : BufId) (v : Verdict) (n k f : Word) :
    (s.setResult b v n k f).sched = s.sched := rfl
@[simp] theorem State.setResult_obs (s : State) (b : BufId) (v : Verdict) (n k f : Word) :
    (s.setResult b v n k f).obs = s.obs := rfl
@[simp] theorem State.setResult_readByte (s : State) (b : BufId) (v : Verdict) (n k f : Word) (a : Nat) :
    (s.setResult b v n k f).readByte a = s.readByte a := rfl
@[simp] theorem State.setResult_readWord (s : State) (b : BufId) (v : Verdict) (n k f : Word) (a : Nat) :
    (s.setResult b v n k f).readWord a = s.readWord a := rfl
@[simp] theorem State.setResult_bufBit (s : State) (b : BufId) (v : Verdict) (n k f : Word) (c : BufId) (j : Nat) :
    (s.setResult b v n k f).bufBit c j = s.bufBit c j := rfl
@[simp] theorem State.setResult_bits (s : State) (b : BufId) (v : Verdict) (n k f : Word) (c : BufId) :
    (s.setResult b v n k f).bits c = s.bits c := rfl

/-! `State.writeRecords`, field by field. -/

@[simp] theorem State.writeRecords_cfg (s : State) (b : BufId) (rs : List WindowRecord) :
    (s.writeRecords b rs).cfg = s.cfg := rfl
@[simp] theorem State.writeRecords_cmd (s : State) (b : BufId) (rs : List WindowRecord) :
    (s.writeRecords b rs).cmd = s.cmd := rfl
@[simp] theorem State.writeRecords_busy (s : State) (b : BufId) (rs : List WindowRecord) :
    (s.writeRecords b rs).busy = s.busy := rfl
@[simp] theorem State.writeRecords_done (s : State) (b : BufId) (rs : List WindowRecord) :
    (s.writeRecords b rs).done = s.done := rfl
@[simp] theorem State.writeRecords_err (s : State) (b : BufId) (rs : List WindowRecord) :
    (s.writeRecords b rs).err = s.err := rfl
@[simp] theorem State.writeRecords_reportValid (s : State) (b : BufId) (rs : List WindowRecord) :
    (s.writeRecords b rs).reportValid = s.reportValid := rfl
@[simp] theorem State.writeRecords_cmdRej (s : State) (b : BufId) (rs : List WindowRecord) :
    (s.writeRecords b rs).cmdRej = s.cmdRej := rfl
@[simp] theorem State.writeRecords_accRej (s : State) (b : BufId) (rs : List WindowRecord) :
    (s.writeRecords b rs).accRej = s.accRej := rfl
@[simp] theorem State.writeRecords_errcode (s : State) (b : BufId) (rs : List WindowRecord) :
    (s.writeRecords b rs).errcode = s.errcode := rfl
@[simp] theorem State.writeRecords_stage (s : State) (b : BufId) (rs : List WindowRecord) :
    (s.writeRecords b rs).stage = s.stage := rfl
@[simp] theorem State.writeRecords_doneIe (s : State) (b : BufId) (rs : List WindowRecord) :
    (s.writeRecords b rs).doneIe = s.doneIe := rfl
@[simp] theorem State.writeRecords_errIe (s : State) (b : BufId) (rs : List WindowRecord) :
    (s.writeRecords b rs).errIe = s.errIe := rfl
@[simp] theorem State.writeRecords_dimA (s : State) (b : BufId) (rs : List WindowRecord) :
    (s.writeRecords b rs).dimA = s.dimA := rfl
@[simp] theorem State.writeRecords_dimB (s : State) (b : BufId) (rs : List WindowRecord) :
    (s.writeRecords b rs).dimB = s.dimB := rfl
@[simp] theorem State.writeRecords_cinBuf (s : State) (b : BufId) (rs : List WindowRecord) :
    (s.writeRecords b rs).cinBuf = s.cinBuf := rfl
@[simp] theorem State.writeRecords_outBuf (s : State) (b : BufId) (rs : List WindowRecord) :
    (s.writeRecords b rs).outBuf = s.outBuf := rfl
@[simp] theorem State.writeRecords_hexpos (s : State) (b : BufId) (rs : List WindowRecord) :
    (s.writeRecords b rs).hexpos = s.hexpos := rfl
@[simp] theorem State.writeRecords_binpos (s : State) (b : BufId) (rs : List WindowRecord) :
    (s.writeRecords b rs).binpos = s.binpos := rfl
@[simp] theorem State.writeRecords_len (s : State) (b : BufId) (rs : List WindowRecord) :
    (s.writeRecords b rs).len = s.len := rfl
@[simp] theorem State.writeRecords_errinfo (s : State) (b : BufId) (rs : List WindowRecord) :
    (s.writeRecords b rs).errinfo = s.errinfo := rfl
@[simp] theorem State.writeRecords_vstat (s : State) (b : BufId) (rs : List WindowRecord) :
    (s.writeRecords b rs).vstat = s.vstat := rfl
@[simp] theorem State.writeRecords_vn (s : State) (b : BufId) (rs : List WindowRecord) :
    (s.writeRecords b rs).vn = s.vn := rfl
@[simp] theorem State.writeRecords_vnwin (s : State) (b : BufId) (rs : List WindowRecord) :
    (s.writeRecords b rs).vnwin = s.vnwin := rfl
@[simp] theorem State.writeRecords_vnfail (s : State) (b : BufId) (rs : List WindowRecord) :
    (s.writeRecords b rs).vnfail = s.vnfail := rfl
@[simp] theorem State.writeRecords_mem (s : State) (b : BufId) (rs : List WindowRecord) :
    (s.writeRecords b rs).mem = s.mem.writeWords (wresBase b) (rs.flatMap WindowRecord.words) := rfl
@[simp] theorem State.writeRecords_pend (s : State) (b : BufId) (rs : List WindowRecord) :
    (s.writeRecords b rs).pend = s.pend := rfl
@[simp] theorem State.writeRecords_memDraw (s : State) (b : BufId) (rs : List WindowRecord) :
    (s.writeRecords b rs).memDraw = s.memDraw := rfl
@[simp] theorem State.writeRecords_draws (s : State) (b : BufId) (rs : List WindowRecord) :
    (s.writeRecords b rs).draws = s.draws := rfl
@[simp] theorem State.writeRecords_host (s : State) (b : BufId) (rs : List WindowRecord) :
    (s.writeRecords b rs).host = s.host := rfl
@[simp] theorem State.writeRecords_sched (s : State) (b : BufId) (rs : List WindowRecord) :
    (s.writeRecords b rs).sched = s.sched := rfl
@[simp] theorem State.writeRecords_obs (s : State) (b : BufId) (rs : List WindowRecord) :
    (s.writeRecords b rs).obs = s.obs := rfl

/-! `State.publish`, field by field. -/

@[simp] theorem State.publish_cfg (s : State) : s.publish.cfg = s.cfg := rfl
@[simp] theorem State.publish_cmd (s : State) : s.publish.cmd = s.cmd := rfl
@[simp] theorem State.publish_busy (s : State) : s.publish.busy = s.busy := rfl
@[simp] theorem State.publish_done (s : State) : s.publish.done = s.done := rfl
@[simp] theorem State.publish_err (s : State) : s.publish.err = s.err := rfl
@[simp] theorem State.publish_reportValid (s : State) : s.publish.reportValid = true := rfl
@[simp] theorem State.publish_cmdRej (s : State) : s.publish.cmdRej = s.cmdRej := rfl
@[simp] theorem State.publish_accRej (s : State) : s.publish.accRej = s.accRej := rfl
@[simp] theorem State.publish_errcode (s : State) : s.publish.errcode = s.errcode := rfl
@[simp] theorem State.publish_stage (s : State) : s.publish.stage = s.stage := rfl
@[simp] theorem State.publish_doneIe (s : State) : s.publish.doneIe = s.doneIe := rfl
@[simp] theorem State.publish_errIe (s : State) : s.publish.errIe = s.errIe := rfl
@[simp] theorem State.publish_dimA (s : State) : s.publish.dimA = s.dimA := rfl
@[simp] theorem State.publish_dimB (s : State) : s.publish.dimB = s.dimB := rfl
@[simp] theorem State.publish_cinBuf (s : State) : s.publish.cinBuf = s.cinBuf := rfl
@[simp] theorem State.publish_outBuf (s : State) : s.publish.outBuf = s.outBuf := rfl
@[simp] theorem State.publish_hexpos (s : State) : s.publish.hexpos = s.hexpos := rfl
@[simp] theorem State.publish_binpos (s : State) : s.publish.binpos = s.binpos := rfl
@[simp] theorem State.publish_len (s : State) : s.publish.len = s.len := rfl
@[simp] theorem State.publish_errinfo (s : State) : s.publish.errinfo = s.errinfo := rfl
@[simp] theorem State.publish_vstat (s : State) : s.publish.vstat = s.vstat := rfl
@[simp] theorem State.publish_vn (s : State) : s.publish.vn = s.vn := rfl
@[simp] theorem State.publish_vnwin (s : State) : s.publish.vnwin = s.vnwin := rfl
@[simp] theorem State.publish_vnfail (s : State) : s.publish.vnfail = s.vnfail := rfl
@[simp] theorem State.publish_mem (s : State) : s.publish.mem = s.mem := rfl
@[simp] theorem State.publish_pend (s : State) : s.publish.pend = s.pend := rfl
@[simp] theorem State.publish_memDraw (s : State) : s.publish.memDraw = s.memDraw := rfl
@[simp] theorem State.publish_draws (s : State) : s.publish.draws = s.draws := rfl
@[simp] theorem State.publish_host (s : State) : s.publish.host = s.host := rfl
@[simp] theorem State.publish_sched (s : State) : s.publish.sched = s.sched := rfl
@[simp] theorem State.publish_obs (s : State) : s.publish.obs = s.obs := rfl
@[simp] theorem State.publish_readByte (s : State) (a : Nat) :
    s.publish.readByte a = s.readByte a := rfl
@[simp] theorem State.publish_readWord (s : State) (a : Nat) :
    s.publish.readWord a = s.readWord a := rfl
@[simp] theorem State.publish_bufBit (s : State) (c : BufId) (j : Nat) :
    s.publish.bufBit c j = s.bufBit c j := rfl
@[simp] theorem State.publish_bits (s : State) (c : BufId) :
    s.publish.bits c = s.bits c := rfl

/-! `State.accept`, field by field. -/

@[simp] theorem State.accept_cfg (s : State) (v : Word) : (s.accept v).cfg = s.cfg := rfl
@[simp] theorem State.accept_cmd (s : State) (v : Word) : (s.accept v).cmd = v := rfl
@[simp] theorem State.accept_busy (s : State) (v : Word) : (s.accept v).busy = true := rfl
@[simp] theorem State.accept_done (s : State) (v : Word) : (s.accept v).done = false := rfl
@[simp] theorem State.accept_err (s : State) (v : Word) : (s.accept v).err = s.err := rfl
@[simp] theorem State.accept_reportValid (s : State) (v : Word) :
    (s.accept v).reportValid = (if opField v ≠ 0x00 then false else s.reportValid) := rfl
@[simp] theorem State.accept_cmdRej (s : State) (v : Word) : (s.accept v).cmdRej = s.cmdRej := rfl
@[simp] theorem State.accept_accRej (s : State) (v : Word) : (s.accept v).accRej = s.accRej := rfl
@[simp] theorem State.accept_errcode (s : State) (v : Word) :
    (s.accept v).errcode = s.errcode := rfl
@[simp] theorem State.accept_stage (s : State) (v : Word) :
    (s.accept v).stage = acceptedStage v := rfl
@[simp] theorem State.accept_doneIe (s : State) (v : Word) : (s.accept v).doneIe = s.doneIe := rfl
@[simp] theorem State.accept_errIe (s : State) (v : Word) : (s.accept v).errIe = s.errIe := rfl
@[simp] theorem State.accept_dimA (s : State) (v : Word) : (s.accept v).dimA = s.dimA := rfl
@[simp] theorem State.accept_dimB (s : State) (v : Word) : (s.accept v).dimB = s.dimB := rfl
@[simp] theorem State.accept_cinBuf (s : State) (v : Word) : (s.accept v).cinBuf = s.cinBuf := rfl
@[simp] theorem State.accept_outBuf (s : State) (v : Word) : (s.accept v).outBuf = s.outBuf := rfl
@[simp] theorem State.accept_hexpos (s : State) (v : Word) : (s.accept v).hexpos = s.hexpos := rfl
@[simp] theorem State.accept_binpos (s : State) (v : Word) : (s.accept v).binpos = s.binpos := rfl
@[simp] theorem State.accept_len (s : State) (v : Word) : (s.accept v).len = s.len := rfl
@[simp] theorem State.accept_errinfo (s : State) (v : Word) :
    (s.accept v).errinfo = s.errinfo := rfl
@[simp] theorem State.accept_vstat (s : State) (v : Word) : (s.accept v).vstat = s.vstat := rfl
@[simp] theorem State.accept_vn (s : State) (v : Word) : (s.accept v).vn = s.vn := rfl
@[simp] theorem State.accept_vnwin (s : State) (v : Word) : (s.accept v).vnwin = s.vnwin := rfl
@[simp] theorem State.accept_vnfail (s : State) (v : Word) : (s.accept v).vnfail = s.vnfail := rfl
@[simp] theorem State.accept_mem (s : State) (v : Word) : (s.accept v).mem = s.mem := rfl
@[simp] theorem State.accept_pend (s : State) (v : Word) : (s.accept v).pend = some v := rfl
@[simp] theorem State.accept_memDraw (s : State) (v : Word) :
    (s.accept v).memDraw = s.memDraw := rfl
@[simp] theorem State.accept_draws (s : State) (v : Word) : (s.accept v).draws = s.draws := rfl
@[simp] theorem State.accept_host (s : State) (v : Word) : (s.accept v).host = s.host := rfl
@[simp] theorem State.accept_sched (s : State) (v : Word) : (s.accept v).sched = s.sched := rfl
@[simp] theorem State.accept_obs (s : State) (v : Word) : (s.accept v).obs = s.obs := rfl
@[simp] theorem State.accept_readByte (s : State) (v : Word) (a : Nat) :
    (s.accept v).readByte a = s.readByte a := rfl
@[simp] theorem State.accept_readWord (s : State) (v : Word) (a : Nat) :
    (s.accept v).readWord a = s.readWord a := rfl
@[simp] theorem State.accept_bufBit (s : State) (v : Word) (c : BufId) (j : Nat) :
    (s.accept v).bufBit c j = s.bufBit c j := rfl
@[simp] theorem State.accept_bits (s : State) (v : Word) (c : BufId) :
    (s.accept v).bits c = s.bits c := rfl

/-! `State.clearAll`, field by field. -/

@[simp] theorem State.clearAll_cfg (s : State) : s.clearAll.cfg = s.cfg := rfl
@[simp] theorem State.clearAll_cmd (s : State) : s.clearAll.cmd = s.cmd := rfl
@[simp] theorem State.clearAll_busy (s : State) : s.clearAll.busy = s.busy := rfl
@[simp] theorem State.clearAll_done (s : State) : s.clearAll.done = s.done := rfl
@[simp] theorem State.clearAll_err (s : State) : s.clearAll.err = s.err := rfl
@[simp] theorem State.clearAll_reportValid (s : State) :
    s.clearAll.reportValid = s.reportValid := rfl
@[simp] theorem State.clearAll_cmdRej (s : State) : s.clearAll.cmdRej = s.cmdRej := rfl
@[simp] theorem State.clearAll_accRej (s : State) : s.clearAll.accRej = s.accRej := rfl
@[simp] theorem State.clearAll_errcode (s : State) : s.clearAll.errcode = s.errcode := rfl
@[simp] theorem State.clearAll_stage (s : State) : s.clearAll.stage = s.stage := rfl
@[simp] theorem State.clearAll_doneIe (s : State) : s.clearAll.doneIe = s.doneIe := rfl
@[simp] theorem State.clearAll_errIe (s : State) : s.clearAll.errIe = s.errIe := rfl
@[simp] theorem State.clearAll_dimA (s : State) : s.clearAll.dimA = s.dimA := rfl
@[simp] theorem State.clearAll_dimB (s : State) : s.clearAll.dimB = s.dimB := rfl
@[simp] theorem State.clearAll_cinBuf (s : State) : s.clearAll.cinBuf = s.cinBuf := rfl
@[simp] theorem State.clearAll_outBuf (s : State) : s.clearAll.outBuf = s.outBuf := rfl
@[simp] theorem State.clearAll_hexpos (s : State) : s.clearAll.hexpos = 0 := rfl
@[simp] theorem State.clearAll_binpos (s : State) : s.clearAll.binpos = 0 := rfl
@[simp] theorem State.clearAll_len (s : State) : s.clearAll.len = .all 0 := rfl
@[simp] theorem State.clearAll_errinfo (s : State) : s.clearAll.errinfo = s.errinfo := rfl
@[simp] theorem State.clearAll_vstat (s : State) :
    s.clearAll.vstat = .all ⟨false, false, false⟩ := rfl
@[simp] theorem State.clearAll_vn (s : State) : s.clearAll.vn = .all 0 := rfl
@[simp] theorem State.clearAll_vnwin (s : State) : s.clearAll.vnwin = .all 0 := rfl
@[simp] theorem State.clearAll_vnfail (s : State) : s.clearAll.vnfail = .all 0 := rfl
@[simp] theorem State.clearAll_mem (s : State) : s.clearAll.mem = s.mem := rfl
@[simp] theorem State.clearAll_pend (s : State) : s.clearAll.pend = s.pend := rfl
@[simp] theorem State.clearAll_memDraw (s : State) : s.clearAll.memDraw = s.memDraw := rfl
@[simp] theorem State.clearAll_draws (s : State) : s.clearAll.draws = s.draws := rfl
@[simp] theorem State.clearAll_host (s : State) : s.clearAll.host = s.host := rfl
@[simp] theorem State.clearAll_sched (s : State) : s.clearAll.sched = s.sched := rfl
@[simp] theorem State.clearAll_obs (s : State) : s.clearAll.obs = s.obs := rfl
@[simp] theorem State.clearAll_readByte (s : State) (a : Nat) :
    s.clearAll.readByte a = s.readByte a := rfl
@[simp] theorem State.clearAll_readWord (s : State) (a : Nat) :
    s.clearAll.readWord a = s.readWord a := rfl
@[simp] theorem State.clearAll_bufBit (s : State) (c : BufId) (j : Nat) :
    s.clearAll.bufBit c j = s.bufBit c j := rfl

/-! `State.takeTurn`, field by field. -/

@[simp] theorem State.takeTurn_cfg (s : State) : s.takeTurn.cfg = s.cfg := rfl
@[simp] theorem State.takeTurn_cmd (s : State) : s.takeTurn.cmd = s.cmd := rfl
@[simp] theorem State.takeTurn_busy (s : State) : s.takeTurn.busy = s.busy := rfl
@[simp] theorem State.takeTurn_done (s : State) : s.takeTurn.done = s.done := rfl
@[simp] theorem State.takeTurn_err (s : State) : s.takeTurn.err = s.err := rfl
@[simp] theorem State.takeTurn_reportValid (s : State) :
    s.takeTurn.reportValid = s.reportValid := rfl
@[simp] theorem State.takeTurn_cmdRej (s : State) : s.takeTurn.cmdRej = s.cmdRej := rfl
@[simp] theorem State.takeTurn_accRej (s : State) : s.takeTurn.accRej = s.accRej := rfl
@[simp] theorem State.takeTurn_errcode (s : State) : s.takeTurn.errcode = s.errcode := rfl
@[simp] theorem State.takeTurn_stage (s : State) : s.takeTurn.stage = s.stage := rfl
@[simp] theorem State.takeTurn_doneIe (s : State) : s.takeTurn.doneIe = s.doneIe := rfl
@[simp] theorem State.takeTurn_errIe (s : State) : s.takeTurn.errIe = s.errIe := rfl
@[simp] theorem State.takeTurn_dimA (s : State) : s.takeTurn.dimA = s.dimA := rfl
@[simp] theorem State.takeTurn_dimB (s : State) : s.takeTurn.dimB = s.dimB := rfl
@[simp] theorem State.takeTurn_cinBuf (s : State) : s.takeTurn.cinBuf = s.cinBuf := rfl
@[simp] theorem State.takeTurn_outBuf (s : State) : s.takeTurn.outBuf = s.outBuf := rfl
@[simp] theorem State.takeTurn_hexpos (s : State) : s.takeTurn.hexpos = s.hexpos := rfl
@[simp] theorem State.takeTurn_binpos (s : State) : s.takeTurn.binpos = s.binpos := rfl
@[simp] theorem State.takeTurn_len (s : State) : s.takeTurn.len = s.len := rfl
@[simp] theorem State.takeTurn_errinfo (s : State) : s.takeTurn.errinfo = s.errinfo := rfl
@[simp] theorem State.takeTurn_vstat (s : State) : s.takeTurn.vstat = s.vstat := rfl
@[simp] theorem State.takeTurn_vn (s : State) : s.takeTurn.vn = s.vn := rfl
@[simp] theorem State.takeTurn_vnwin (s : State) : s.takeTurn.vnwin = s.vnwin := rfl
@[simp] theorem State.takeTurn_vnfail (s : State) : s.takeTurn.vnfail = s.vnfail := rfl
@[simp] theorem State.takeTurn_mem (s : State) : s.takeTurn.mem = s.mem := rfl
@[simp] theorem State.takeTurn_pend (s : State) : s.takeTurn.pend = s.pend := rfl
@[simp] theorem State.takeTurn_memDraw (s : State) : s.takeTurn.memDraw = s.memDraw := rfl
@[simp] theorem State.takeTurn_draws (s : State) : s.takeTurn.draws = s.draws := rfl
@[simp] theorem State.takeTurn_host (s : State) : s.takeTurn.host = s.host := rfl
@[simp] theorem State.takeTurn_sched (s : State) : s.takeTurn.sched = s.sched.tail := rfl
@[simp] theorem State.takeTurn_obs (s : State) : s.takeTurn.obs = s.obs := rfl
@[simp] theorem State.takeTurn_readByte (s : State) (a : Nat) :
    s.takeTurn.readByte a = s.readByte a := rfl
@[simp] theorem State.takeTurn_readWord (s : State) (a : Nat) :
    s.takeTurn.readWord a = s.readWord a := rfl
@[simp] theorem State.takeTurn_bufBit (s : State) (c : BufId) (j : Nat) :
    s.takeTurn.bufBit c j = s.bufBit c j := rfl
@[simp] theorem State.takeTurn_bits (s : State) (c : BufId) :
    s.takeTurn.bits c = s.bits c := rfl

/-! `State.writeIosel`, field by field. -/

@[simp] theorem State.writeIosel_cfg (s : State) (v : Word) : (s.writeIosel v).cfg = s.cfg := rfl
@[simp] theorem State.writeIosel_cmd (s : State) (v : Word) : (s.writeIosel v).cmd = s.cmd := rfl
@[simp] theorem State.writeIosel_busy (s : State) (v : Word) : (s.writeIosel v).busy = s.busy := rfl
@[simp] theorem State.writeIosel_done (s : State) (v : Word) : (s.writeIosel v).done = s.done := rfl
@[simp] theorem State.writeIosel_err (s : State) (v : Word) : (s.writeIosel v).err = s.err := rfl
@[simp] theorem State.writeIosel_reportValid (s : State) (v : Word) :
    (s.writeIosel v).reportValid = s.reportValid := rfl
@[simp] theorem State.writeIosel_cmdRej (s : State) (v : Word) :
    (s.writeIosel v).cmdRej = s.cmdRej := rfl
@[simp] theorem State.writeIosel_accRej (s : State) (v : Word) :
    (s.writeIosel v).accRej = s.accRej := rfl
@[simp] theorem State.writeIosel_errcode (s : State) (v : Word) :
    (s.writeIosel v).errcode = s.errcode := rfl
@[simp] theorem State.writeIosel_stage (s : State) (v : Word) :
    (s.writeIosel v).stage = s.stage := rfl
@[simp] theorem State.writeIosel_doneIe (s : State) (v : Word) :
    (s.writeIosel v).doneIe = s.doneIe := rfl
@[simp] theorem State.writeIosel_errIe (s : State) (v : Word) :
    (s.writeIosel v).errIe = s.errIe := rfl
@[simp] theorem State.writeIosel_dimA (s : State) (v : Word) : (s.writeIosel v).dimA = s.dimA := rfl
@[simp] theorem State.writeIosel_dimB (s : State) (v : Word) : (s.writeIosel v).dimB = s.dimB := rfl
@[simp] theorem State.writeIosel_cinBuf (s : State) (v : Word) :
    (s.writeIosel v).cinBuf = .ofField (v.extractLsb' 0 2) := rfl
@[simp] theorem State.writeIosel_outBuf (s : State) (v : Word) :
    (s.writeIosel v).outBuf = .ofField (v.extractLsb' 8 2) := rfl
@[simp] theorem State.writeIosel_hexpos (s : State) (v : Word) : (s.writeIosel v).hexpos = 0 := rfl
@[simp] theorem State.writeIosel_binpos (s : State) (v : Word) : (s.writeIosel v).binpos = 0 := rfl
@[simp] theorem State.writeIosel_len (s : State) (v : Word) : (s.writeIosel v).len = s.len := rfl
@[simp] theorem State.writeIosel_errinfo (s : State) (v : Word) :
    (s.writeIosel v).errinfo = s.errinfo := rfl
@[simp] theorem State.writeIosel_vstat (s : State) (v : Word) :
    (s.writeIosel v).vstat = s.vstat := rfl
@[simp] theorem State.writeIosel_vn (s : State) (v : Word) : (s.writeIosel v).vn = s.vn := rfl
@[simp] theorem State.writeIosel_vnwin (s : State) (v : Word) :
    (s.writeIosel v).vnwin = s.vnwin := rfl
@[simp] theorem State.writeIosel_vnfail (s : State) (v : Word) :
    (s.writeIosel v).vnfail = s.vnfail := rfl
@[simp] theorem State.writeIosel_mem (s : State) (v : Word) : (s.writeIosel v).mem = s.mem := rfl
@[simp] theorem State.writeIosel_pend (s : State) (v : Word) : (s.writeIosel v).pend = s.pend := rfl
@[simp] theorem State.writeIosel_memDraw (s : State) (v : Word) :
    (s.writeIosel v).memDraw = s.memDraw := rfl
@[simp] theorem State.writeIosel_draws (s : State) (v : Word) :
    (s.writeIosel v).draws = s.draws := rfl
@[simp] theorem State.writeIosel_host (s : State) (v : Word) : (s.writeIosel v).host = s.host := rfl
@[simp] theorem State.writeIosel_sched (s : State) (v : Word) :
    (s.writeIosel v).sched = s.sched := rfl
@[simp] theorem State.writeIosel_obs (s : State) (v : Word) : (s.writeIosel v).obs = s.obs := rfl
@[simp] theorem State.writeIosel_readByte (s : State) (v : Word) (a : Nat) :
    (s.writeIosel v).readByte a = s.readByte a := rfl
@[simp] theorem State.writeIosel_readWord (s : State) (v : Word) (a : Nat) :
    (s.writeIosel v).readWord a = s.readWord a := rfl
@[simp] theorem State.writeIosel_bufBit (s : State) (v : Word) (c : BufId) (j : Nat) :
    (s.writeIosel v).bufBit c j = s.bufBit c j := rfl
@[simp] theorem State.writeIosel_bits (s : State) (v : Word) (c : BufId) :
    (s.writeIosel v).bits c = s.bits c := rfl

end Sys2Proof.Machine
end

