-- ==== Sys2Proof/Laws/Streams.lean ====
section
/-!
SUPPORT. Streams in buffers: numerals and packed words, what a stored stream reads back as, and which
places of memory it leaves alone (10 R50, R51; 20 R107).
-/

namespace Sys2Proof.Machine

/-! ### Numerals of bits -/

theorem numeral_lt (k : Nat) (bs : BitString) : numeral k bs < 2 ^ k := by
  induction k generalizing bs with
  | zero => simp [numeral]
  | succ k ih =>
    have := ih bs.tail
    have hb : (bs.headD false).toNat ≤ 1 := Bool.toNat_le _
    have : (bs.headD false).toNat * 2 ^ k ≤ 1 * 2 ^ k := Nat.mul_le_mul_right _ hb
    simp only [numeral, Nat.pow_succ]
    omega

/-- Bit `k − 1 − i` of the numeral is bit `i` of the string (40 R190: first bit most significant). -/
theorem testBit_numeral (k : Nat) (bs : BitString) {i : Nat} (hi : i < k) :
    (numeral k bs).testBit (k - 1 - i) = bs.getD i false := by
  induction k generalizing bs i with
  | zero => omega
  | succ k ih =>
    have hlt := numeral_lt k bs.tail
    simp only [numeral, Nat.add_sub_cancel]
    rw [Nat.mul_comm]
    cases i with
    | zero =>
      rw [Nat.sub_zero, Nat.testBit_two_pow_mul_add _ hlt, if_neg (Nat.lt_irrefl k), Nat.sub_self]
      cases bs with
      | nil => rfl
      | cons b bs => cases b <;> simp
    | succ i =>
      rw [Nat.testBit_two_pow_mul_add _ hlt, if_pos (by omega),
        show k - (i + 1) = k - 1 - i by omega, ih bs.tail (by omega)]
      cases bs with
      | nil => simp
      | cons b bs => simp

/-! ### Packed words -/

@[simp] theorem length_packWords (k : Nat) (bs : BitString) : (packWords k bs).length = k := by
  induction k generalizing bs with
  | zero => rfl
  | succ k ih => simp [packWords, ih]

@[simp] theorem length_packStream (bs : BitString) :
    (packStream bs).length = (bs.length + 31) / 32 := length_packWords _ _

theorem getElem_packWords (k : Nat) (bs : BitString) {j : Nat} (hj : j < (packWords k bs).length) :
    (packWords k bs)[j] = BitVec.ofNat 32 (numeral 32 (bs.drop (32 * j))) := by
  induction k generalizing bs j with
  | zero => simp at hj
  | succ k ih =>
    cases j with
    | zero => simp [packWords]
    | succ j =>
      simp only [packWords, List.getElem_cons_succ]
      rw [ih, List.drop_drop, show 32 + 32 * j = 32 * (j + 1) by omega]

/-- Bit `31 − r` of packed word `j` is bit `32j + r` of the string, 0 past its end (20 R107,
10 R51). -/
theorem getLsbD_packWords (k : Nat) (bs : BitString) {j r : Nat}
    (hj : j < (packWords k bs).length) (hr : r < 32) :
    (packWords k bs)[j].getLsbD (31 - r) = bs.getD (32 * j + r) false := by
  rw [getElem_packWords, BitVec.getLsbD_ofNat, show 31 - r = 32 - 1 - r by omega,
    testBit_numeral 32 _ hr, List.getD_eq_getElem?_getD, List.getElem?_drop,
    ← List.getD_eq_getElem?_getD]
  simp; omega

/-! ### Places -/

theorem bufIndex_lt (b : BufId) : bufIndex b < 4 := by cases b <;> decide

theorem bufIndex_injective {b c : BufId} (h : bufIndex b = bufIndex c) : b = c := by
  cases b <;> cases c <;> first | rfl | exact absurd h (by decide)

/-- Bit `i` of a buffer lies in the four bytes of its word. -/
theorem streamByteAddr_bounds (b : BufId) (i : Nat) :
    bufWordAddr b (i / 32) ≤ streamByteAddr b i ∧
      streamByteAddr b i < bufWordAddr b (i / 32) + 4 := by
  unfold streamByteAddr streamBitOfWord
  omega

theorem streamBitOfByte_lt (i : Nat) : streamBitOfByte i < 8 := by
  unfold streamBitOfByte; omega

/-- Different bits of the buffers are stored in different places. -/
theorem streamPlace_injective {b : BufId} {i j : Nat}
    (ha : streamByteAddr b i = streamByteAddr b j) (hk : streamBitOfByte i = streamBitOfByte j) :
    i = j := by
  unfold streamByteAddr bufWordAddr streamBitOfWord at ha
  unfold streamBitOfByte streamBitOfWord at hk
  omega

/-- Where a buffer bit of a legal index lies: in its own buffer's window (20 R101). -/
theorem streamByteAddr_window (b : BufId) {i : Nat} (hi : i < 2 ^ 24) :
    bufBase b ≤ streamByteAddr b i ∧ streamByteAddr b i < bufBase b + 0x200000 := by
  have := streamByteAddr_bounds b i
  unfold bufWordAddr at this
  omega

/-- The buffers' windows are disjoint and lie between the pixels and the records. -/
theorem bufBase_spread (b c : BufId) :
    0x30000000 ≤ bufBase b ∧ bufBase b + 0x01000000 ≤ 0x40000000 ∧
      (b = c ∨ bufBase b + 0x01000000 ≤ bufBase c ∨ bufBase c + 0x01000000 ≤ bufBase b) := by
  cases b <;> cases c <;> decide

/-- The records' windows are disjoint and lie above the buffers. -/
theorem wresBase_spread (b c : BufId) :
    0x40000000 ≤ wresBase b ∧ wresBase b + 0x01000000 ≤ 0x50000000 ∧
      (b = c ∨ wresBase b + 0x01000000 ≤ wresBase c ∨ wresBase c + 0x01000000 ≤ wresBase b) := by
  cases b <;> cases c <;> decide

theorem pixBase_spread (m : Image) :
    0x10000000 ≤ pixBase m ∧ pixBase m + 0x10000000 ≤ 0x30000000 := by
  cases m <;> decide

/-! ### Bits, words and strings of a state -/

/-- A buffer bit is a bit of its word (20 R107). -/
theorem State.bufBit_eq_readWord (s : State) (b : BufId) (i : Nat) :
    s.bufBit b i = (s.readWord (bufWordAddr b (i / 32))).getLsbD (31 - i % 32) := by
  unfold State.bufBit State.readWord
  rw [Memory.getLsbD_readWord _ _ _ (by omega)]
  rfl

/-- A pixel's tapped bit is bit `8·P_CHANNEL` of its word (41 R210). -/
theorem State.pixelBit_eq_readWord (s : State) (m : Image) (k : Nat) :
    s.pixelBit m k =
      (s.readWord (pixelAddr m k)).getLsbD (8 * channelCode s.cfg.channel) := by
  have hc : channelCode s.cfg.channel < 4 := by cases s.cfg.channel <;> decide
  unfold State.pixelBit State.readWord
  rw [Memory.getLsbD_readWord _ _ _ (by omega),
    show 8 * channelCode s.cfg.channel / 8 = channelCode s.cfg.channel by omega,
    show 8 * channelCode s.cfg.channel % 8 = 0 by omega]

@[simp] theorem State.length_bits (s : State) (b : BufId) :
    (s.bits b).length = (s.len.get b).toNat := by
  simp [State.bits]

@[simp] theorem State.length_lsb (s : State) (m : Image) (n : Nat) : (s.lsb m n).length = n := by
  simp [State.lsb]

theorem State.getElem_bits (s : State) (b : BufId) {i : Nat} (hi : i < (s.bits b).length) :
    (s.bits b)[i] = s.bufBit b i := by
  simp [State.bits]

theorem State.getD_bits (s : State) (b : BufId) {i : Nat} (hi : i < (s.len.get b).toNat) :
    (s.bits b).getD i false = s.bufBit b i := by
  simp [State.bits, hi]

/-- Two streams are equal when their lengths and their bits are. -/
theorem State.bits_congr {s t : State} {b c : BufId} (hl : s.len.get b = t.len.get c)
    (hb : ∀ i, i < (s.len.get b).toNat → s.bufBit b i = t.bufBit c i) : s.bits b = t.bits c := by
  unfold State.bits
  rw [← hl]
  exact List.map_congr_left fun i hi => hb i (by simpa using hi)

/-- A buffer bit depends on one byte of memory. -/
theorem State.bufBit_congr {s t : State} {b : BufId} {i : Nat}
    (h : s.readByte (streamByteAddr b i) = t.readByte (streamByteAddr b i)) :
    s.bufBit b i = t.bufBit b i :=
  Memory.bit_eq_of_readByte h (streamBitOfByte_lt i)

/-- Memory that reads the same through a buffer's window holds the same stream there. -/
theorem State.bits_congr_window {s t : State} {b : BufId} (hl : s.len.get b = t.len.get b)
    (hn : (s.len.get b).toNat ≤ 2 ^ 24)
    (h : ∀ a, bufBase b ≤ a → a < bufBase b + 0x200000 → s.readByte a = t.readByte a) :
    s.bits b = t.bits b := by
  refine State.bits_congr hl fun i hi => State.bufBit_congr ?_
  have := streamByteAddr_window b (i := i) (by omega)
  exact h _ this.1 this.2

/-! ### What a stored stream does (10 R51) -/

theorem State.wf_storeStream {s : State} (hm : s.mem.wf) (d : BufId) (bs : BitString) :
    (s.storeStream d bs).mem.wf :=
  Memory.wf_writeWords hm _ _

/-- Outside the words it writes, a stored stream changes no byte of memory. -/
theorem State.readByte_storeStream_ne (s : State) (d : BufId) (bs : BitString) {a : Nat}
    (h : a < bufBase d ∨ bufBase d + 4 * ((bs.length + 31) / 32) ≤ a) :
    (s.storeStream d bs).readByte a = s.readByte a := by
  show (s.mem.writeWords (bufBase d) (packStream bs)).readByte s.memDraw a = _
  exact Memory.readByte_writeWords_ne _ _ _ (by rw [length_packStream]; exact h)

/-- Word `j` of a stored stream reads as packed. -/
theorem State.readWord_storeStream {s : State} (hm : s.mem.wf) (d : BufId) (bs : BitString)
    {j : Nat} (hj : j < (packStream bs).length) :
    (s.storeStream d bs).readWord (bufWordAddr d j) = (packStream bs)[j] :=
  Memory.readWord_writeWords hm _ _ _ hj

/-- The bits of the words written: the string's, and 0 for the padding of the last word (10 R51). -/
theorem State.bufBit_storeStream {s : State} (hm : s.mem.wf) (d : BufId) (bs : BitString) {i : Nat}
    (hi : i / 32 < (bs.length + 31) / 32) :
    (s.storeStream d bs).bufBit d i = bs.getD i false := by
  have hj : i / 32 < (packStream bs).length := by rw [length_packStream]; exact hi
  rw [State.bufBit_eq_readWord, State.readWord_storeStream hm d bs hj]
  have := getLsbD_packWords ((bs.length + 31) / 32) bs (j := i / 32) hj
    (r := i % 32) (by omega)
  rw [show (packStream bs)[i / 32] = (packWords ((bs.length + 31) / 32) bs)[i / 32]'hj from rfl,
    this, show 32 * (i / 32) + i % 32 = i by omega]

/-- A stored stream reads back as itself. -/
theorem State.bits_storeStream_same {s : State} (hm : s.mem.wf) (d : BufId) {bs : BitString}
    (hn : bs.length < 2 ^ 32) : (s.storeStream d bs).bits d = bs := by
  have hl : ((s.storeStream d bs).len.get d).toNat = bs.length := by
    simp only [State.storeStream_len, PerBuf.get_set_same, BitVec.toNat_ofNat]
    exact Nat.mod_eq_of_lt hn
  apply List.ext_getElem
  · simpa using hl
  · intro i hi hi'
    rw [State.getElem_bits, State.bufBit_storeStream hm d bs (by omega),
      List.getD_eq_getElem _ _ hi']

/-- The streams of the other buffers stay. -/
theorem State.bits_storeStream_ne (s : State) {b d : BufId} (bs : BitString) (hbd : b ≠ d)
    (hn : (s.len.get b).toNat ≤ 2 ^ 24) (hbs : bs.length ≤ 2 ^ 24) :
    (s.storeStream d bs).bits b = s.bits b := by
  have hl : (s.storeStream d bs).len.get b = s.len.get b := by
    simp [PerBuf.get_set_ne _ _ hbd]
  refine State.bits_congr_window hl (by rw [hl]; exact hn) fun a h1 h2 =>
    State.readByte_storeStream_ne s d bs ?_
  have hs := bufBase_spread b d
  rcases hs.2.2 with h | h | h
  · exact absurd h hbd
  · omega
  · omega

/-- The pixels stay: the engine never writes them (10 R49, 41 R215). -/
theorem State.readWord_pixel_storeStream (s : State) (d : BufId) (bs : BitString) (m : Image)
    {k : Nat} (hk : k ≤ 2 ^ 24) :
    (s.storeStream d bs).readWord (pixelAddr m k) = s.readWord (pixelAddr m k) := by
  have hp := pixBase_spread m
  have hd := bufBase_spread d d
  refine Memory.readWord_eq_of_readByte fun b _ h2 =>
    State.readByte_storeStream_ne s d bs (.inl ?_)
  unfold pixelAddr at h2
  omega

/-- The LSB stream of an image depends on its pixel words alone (41 R213). -/
theorem State.lsb_congr {s t : State} {m : Image} {n : Nat} (hc : s.cfg = t.cfg)
    (h : ∀ k, k < n → s.readWord (pixelAddr m k) = t.readWord (pixelAddr m k)) :
    s.lsb m n = t.lsb m n := by
  unfold State.lsb
  refine List.map_congr_left fun k hk => ?_
  rw [State.pixelBit_eq_readWord, State.pixelBit_eq_readWord, hc, h k (by simpa using hk)]

/-! ### The debiaser's and the combiner's lengths -/

theorem length_vonNeumann_le (bs : BitString) : (vonNeumann bs).length ≤ bs.length / 2 := by
  induction bs using vonNeumann.induct with
  | case1 x rest ih =>
    rw [vonNeumann, if_pos rfl]
    simp only [List.length_cons]
    omega
  | case2 x y rest hxy ih =>
    rw [vonNeumann, if_neg hxy]
    simp only [List.length_cons]
    omega
  | case3 bs h =>
    unfold vonNeumann
    split
    · exact absurd rfl (h _ _ _)
    · simp

@[simp] theorem length_xorBits (a b : BitString) :
    (xorBits a b).length = min a.length b.length := by
  simp [xorBits]

end Sys2Proof.Machine
end

