-- ==== Sys2Proof/Laws/Validate.lean ====
section
/-!
SUPPORT. What one validation does (44 R285): the lists of the battery have their lengths, a record has
32 words, the records read back as written, and everything else stays.
-/

namespace Sys2Proof.Machine

/-! ### Shapes -/

@[simp] theorem Tally.length_f_step (t : Tally) (x : Bool) : (t.step x).f.length = t.f.length := by
  unfold Tally.step Tally.run Tally.count Tally.close
  dsimp only
  split <;> split <;> simp

@[simp] theorem Tally.length_runb_step (t : Tally) (x : Bool) :
    (t.step x).runb.length = t.runb.length := by
  unfold Tally.step Tally.run Tally.count Tally.close
  dsimp only
  split <;> split <;> simp

theorem Tally.length_foldl (win : BitString) (t : Tally) :
    (win.foldl Tally.step t).f.length = t.f.length ∧
      (win.foldl Tally.step t).runb.length = t.runb.length := by
  induction win generalizing t with
  | nil => exact ⟨rfl, rfl⟩
  | cons x win ih =>
    have := ih (t.step x)
    simpa using this

theorem length_tally (win : BitString) :
    (tally win).f.length = 16 ∧ (tally win).runb.length = 6 := by
  have := Tally.length_foldl win (Tally.start win)
  simpa [tally, Tally.close, Tally.start] using this

/-- A window record has 32 words (10 R52). -/
@[simp] theorem length_windowTests_words (win : BitString) :
    (windowTests win).words.length = 32 := by
  have := length_tally win
  simp [WindowRecord.words, windowTests, this.1, this.2]

@[simp] theorem length_windowResults (bs : BitString) :
    (windowResults bs).length = bs.length / windowBits := by
  simp [windowResults]

theorem length_window {bs : BitString} {w : Nat} (hw : w < bs.length / windowBits) :
    (window bs w).length = windowBits := by
  unfold window windowBits at *
  simp only [List.length_take, List.length_drop]
  omega

theorem mem_windowResults {bs : BitString} {r : WindowRecord} (hr : r ∈ windowResults bs) :
    ∃ w, w < bs.length / windowBits ∧ r = windowTests (window bs w) := by
  unfold windowResults at hr
  obtain ⟨w, hw, rfl⟩ := List.mem_map.1 hr
  exact ⟨w, by simpa using hw, rfl⟩

/-! ### The words of consecutive records -/

theorem length_flatMap_words {rs : List WindowRecord} (h : ∀ r ∈ rs, r.words.length = 32) :
    (rs.flatMap WindowRecord.words).length = 32 * rs.length := by
  induction rs with
  | nil => rfl
  | cons r rs ih =>
    rw [List.flatMap_cons, List.length_append, h r (by simp),
      ih fun q hq => h q (by simp [hq]), List.length_cons]
    omega

theorem getElem?_flatMap_words {rs : List WindowRecord} (h : ∀ r ∈ rs, r.words.length = 32)
    {w i : Nat} (hw : w < rs.length) (hi : i < 32) :
    (rs.flatMap WindowRecord.words)[32 * w + i]? = some (rs[w].words.getD i 0) := by
  induction rs generalizing w with
  | nil => simp at hw
  | cons r rs ih =>
    have hr := h r (by simp)
    rw [List.flatMap_cons]
    cases w with
    | zero =>
      rw [Nat.mul_zero, Nat.zero_add, List.getElem?_append_left (by omega)]
      simp [List.getElem?_eq_getElem (show i < r.words.length by omega)]
    | succ w =>
      rw [List.getElem?_append_right (by omega), hr,
        show 32 * (w + 1) + i - 32 = 32 * w + i by omega,
        ih (fun q hq => h q (by simp [hq])) (by simpa using hw)]
      simp

theorem length_flatMap_windowResults (bs : BitString) :
    ((windowResults bs).flatMap WindowRecord.words).length = 32 * (bs.length / windowBits) := by
  rw [length_flatMap_words, length_windowResults]
  intro r hr
  obtain ⟨w, -, rfl⟩ := mem_windowResults hr
  simp

/-- The records written for a stream read back as its windows' records. -/
theorem State.readWord_writeRecords {s : State} (hm : s.mem.wf) (b : BufId) (bs : BitString)
    {w i : Nat} (hw : w < bs.length / windowBits) (hi : i < 32) :
    (s.writeRecords b (windowResults bs)).readWord (recordAddr b w i) =
      (windowTests (window bs w)).words.getD i 0 := by
  have hlen := length_flatMap_windowResults bs
  have hj : 32 * w + i < ((windowResults bs).flatMap WindowRecord.words).length := by
    rw [hlen]; omega
  have h1 := Memory.readWord_writeWords hm s.memDraw (wresBase b)
    ((windowResults bs).flatMap WindowRecord.words) hj
  have h2 : ((windowResults bs).flatMap WindowRecord.words)[32 * w + i]? =
      some (((windowResults bs)[w]'(by simpa using hw)).words.getD i 0) :=
    getElem?_flatMap_words (fun r hr => by obtain ⟨v, -, rfl⟩ := mem_windowResults hr; simp)
      (by simpa using hw) hi
  rw [List.getElem?_eq_getElem hj, Option.some_inj] at h2
  unfold recordAddr
  rw [show wresBase b + 128 * w + 4 * i = wresBase b + 4 * (32 * w + i) by omega]
  refine (h1.trans h2).trans ?_
  simp [windowResults]

/-- Outside the records written, no byte changes. -/
theorem State.readByte_writeRecords_ne (s : State) (b : BufId) (bs : BitString) {a : Nat}
    (h : a < wresBase b ∨ wresBase b + 128 * (bs.length / windowBits) ≤ a) :
    (s.writeRecords b (windowResults bs)).readByte a = s.readByte a := by
  refine Memory.readByte_writeWords_ne _ _ _ ?_
  rw [length_flatMap_windowResults]
  omega

/-! ### One validation -/

@[simp] theorem State.validateBuffer_cfg (s : State) (b : BufId) :
    (s.validateBuffer b).cfg = s.cfg := by
  unfold State.validateBuffer; dsimp only; split <;> rfl
@[simp] theorem State.validateBuffer_cmd (s : State) (b : BufId) :
    (s.validateBuffer b).cmd = s.cmd := by
  unfold State.validateBuffer; dsimp only; split <;> rfl
@[simp] theorem State.validateBuffer_busy (s : State) (b : BufId) :
    (s.validateBuffer b).busy = s.busy := by
  unfold State.validateBuffer; dsimp only; split <;> rfl
@[simp] theorem State.validateBuffer_done (s : State) (b : BufId) :
    (s.validateBuffer b).done = s.done := by
  unfold State.validateBuffer; dsimp only; split <;> rfl
@[simp] theorem State.validateBuffer_err (s : State) (b : BufId) :
    (s.validateBuffer b).err = s.err := by
  unfold State.validateBuffer; dsimp only; split <;> rfl
@[simp] theorem State.validateBuffer_reportValid (s : State) (b : BufId) :
    (s.validateBuffer b).reportValid = s.reportValid := by
  unfold State.validateBuffer; dsimp only; split <;> rfl
@[simp] theorem State.validateBuffer_cmdRej (s : State) (b : BufId) :
    (s.validateBuffer b).cmdRej = s.cmdRej := by
  unfold State.validateBuffer; dsimp only; split <;> rfl
@[simp] theorem State.validateBuffer_accRej (s : State) (b : BufId) :
    (s.validateBuffer b).accRej = s.accRej := by
  unfold State.validateBuffer; dsimp only; split <;> rfl
@[simp] theorem State.validateBuffer_errcode (s : State) (b : BufId) :
    (s.validateBuffer b).errcode = s.errcode := by
  unfold State.validateBuffer; dsimp only; split <;> rfl
@[simp] theorem State.validateBuffer_stage (s : State) (b : BufId) :
    (s.validateBuffer b).stage = s.stage := by
  unfold State.validateBuffer; dsimp only; split <;> rfl
@[simp] theorem State.validateBuffer_doneIe (s : State) (b : BufId) :
    (s.validateBuffer b).doneIe = s.doneIe := by
  unfold State.validateBuffer; dsimp only; split <;> rfl
@[simp] theorem State.validateBuffer_errIe (s : State) (b : BufId) :
    (s.validateBuffer b).errIe = s.errIe := by
  unfold State.validateBuffer; dsimp only; split <;> rfl
@[simp] theorem State.validateBuffer_dimA (s : State) (b : BufId) :
    (s.validateBuffer b).dimA = s.dimA := by
  unfold State.validateBuffer; dsimp only; split <;> rfl
@[simp] theorem State.validateBuffer_dimB (s : State) (b : BufId) :
    (s.validateBuffer b).dimB = s.dimB := by
  unfold State.validateBuffer; dsimp only; split <;> rfl
@[simp] theorem State.validateBuffer_cinBuf (s : State) (b : BufId) :
    (s.validateBuffer b).cinBuf = s.cinBuf := by
  unfold State.validateBuffer; dsimp only; split <;> rfl
@[simp] theorem State.validateBuffer_outBuf (s : State) (b : BufId) :
    (s.validateBuffer b).outBuf = s.outBuf := by
  unfold State.validateBuffer; dsimp only; split <;> rfl
@[simp] theorem State.validateBuffer_hexpos (s : State) (b : BufId) :
    (s.validateBuffer b).hexpos = s.hexpos := by
  unfold State.validateBuffer; dsimp only; split <;> rfl
@[simp] theorem State.validateBuffer_binpos (s : State) (b : BufId) :
    (s.validateBuffer b).binpos = s.binpos := by
  unfold State.validateBuffer; dsimp only; split <;> rfl
@[simp] theorem State.validateBuffer_len (s : State) (b : BufId) :
    (s.validateBuffer b).len = s.len := by
  unfold State.validateBuffer; dsimp only; split <;> rfl
@[simp] theorem State.validateBuffer_errinfo (s : State) (b : BufId) :
    (s.validateBuffer b).errinfo = s.errinfo := by
  unfold State.validateBuffer; dsimp only; split <;> rfl
@[simp] theorem State.validateBuffer_pend (s : State) (b : BufId) :
    (s.validateBuffer b).pend = s.pend := by
  unfold State.validateBuffer; dsimp only; split <;> rfl
@[simp] theorem State.validateBuffer_memDraw (s : State) (b : BufId) :
    (s.validateBuffer b).memDraw = s.memDraw := by
  unfold State.validateBuffer; dsimp only; split <;> rfl
@[simp] theorem State.validateBuffer_draws (s : State) (b : BufId) :
    (s.validateBuffer b).draws = s.draws := by
  unfold State.validateBuffer; dsimp only; split <;> rfl
@[simp] theorem State.validateBuffer_host (s : State) (b : BufId) :
    (s.validateBuffer b).host = s.host := by
  unfold State.validateBuffer; dsimp only; split <;> rfl
@[simp] theorem State.validateBuffer_sched (s : State) (b : BufId) :
    (s.validateBuffer b).sched = s.sched := by
  unfold State.validateBuffer; dsimp only; split <;> rfl
@[simp] theorem State.validateBuffer_obs (s : State) (b : BufId) :
    (s.validateBuffer b).obs = s.obs := by
  unfold State.validateBuffer; dsimp only; split <;> rfl

theorem State.validateBuffer_insufficient (s : State) (b : BufId)
    (h : (s.len.get b).toNat < windowBits) :
    s.validateBuffer b = s.setResult b ⟨true, false, true⟩ (s.len.get b) 0 0 := by
  unfold State.validateBuffer
  dsimp only
  rw [if_pos (by simpa using h)]

theorem State.validateBuffer_tested (s : State) (b : BufId)
    (h : windowBits ≤ (s.len.get b).toNat) :
    s.validateBuffer b =
      (s.writeRecords b (windowResults (s.bits b))).setResult b
        ⟨true, (windowResults (s.bits b)).countP (fun r => !r.winPass) == 0, false⟩ (s.len.get b)
        (BitVec.ofNat 32 (windowResults (s.bits b)).length)
        (BitVec.ofNat 32 ((windowResults (s.bits b)).countP (fun r => !r.winPass))) := by
  unfold State.validateBuffer
  dsimp only
  rw [if_neg (by simpa using h)]

theorem State.validateBuffer_results_ne (s : State) {b c : BufId} (h : c ≠ b) :
    (s.validateBuffer b).vstat.get c = s.vstat.get c ∧
    (s.validateBuffer b).vn.get c = s.vn.get c ∧
    (s.validateBuffer b).vnwin.get c = s.vnwin.get c ∧
    (s.validateBuffer b).vnfail.get c = s.vnfail.get c := by
  unfold State.validateBuffer
  dsimp only
  split <;> simp [PerBuf.get_set_ne _ _ h]

/-- VALID is 1 after a validation (44 R285). -/
@[simp] theorem State.validateBuffer_valid (s : State) (b : BufId) :
    ((s.validateBuffer b).vstat.get b).valid = true := by
  unfold State.validateBuffer
  dsimp only
  split <;> simp

theorem State.wf_validateBuffer {s : State} (hm : s.mem.wf) (b : BufId) :
    (s.validateBuffer b).mem.wf := by
  unfold State.validateBuffer
  dsimp only
  split
  · exact hm
  · exact Memory.wf_writeWords hm _ _

/-- A validation changes no byte outside its own window records (44 R286). -/
theorem State.readByte_validateBuffer_ne (s : State) (b : BufId) {a : Nat}
    (h : a < wresBase b ∨ wresBase b + 128 * ((s.len.get b).toNat / windowBits) ≤ a) :
    (s.validateBuffer b).readByte a = s.readByte a := by
  by_cases hn : (s.len.get b).toNat < windowBits
  · rw [State.validateBuffer_insufficient s b hn]; rfl
  · rw [State.validateBuffer_tested s b (by omega)]
    exact State.readByte_writeRecords_ne s b (s.bits b) (by simpa using h)

/-- A validation changes no stream (44 R285: "The buffer and LEN[a] are not changed"). -/
theorem State.bits_validateBuffer (s : State) (b c : BufId) (hc : (s.len.get c).toNat ≤ 2 ^ 24) :
    (s.validateBuffer b).bits c = s.bits c := by
  refine State.bits_congr_window (by simp) (by simpa using hc) fun a _ h2 =>
    State.readByte_validateBuffer_ne s b (.inl ?_)
  have := bufBase_spread c c
  have := wresBase_spread b b
  omega

/-- A count of failures is 0 exactly when every window passes (44 R287). -/
theorem countP_fails_eq_zero (rs : List WindowRecord) :
    (rs.countP (fun r => !r.winPass) == 0) = rs.all (·.winPass) := by
  induction rs with
  | nil => rfl
  | cons r rs ih => cases h : r.winPass <;> simp_all

/-- After a validation the results of the buffer describe its contents (10 R54, 44 R285). -/
theorem State.described_validateBuffer {s : State} (hm : s.mem.wf) (b : BufId)
    (hn : (s.len.get b).toNat ≤ 2 ^ 24) : (s.validateBuffer b).Described b := by
  unfold State.Described
  rw [State.bits_validateBuffer s b b hn]
  by_cases h : (s.len.get b).toNat < windowBits
  · rw [State.validateBuffer_insufficient s b h]
    simp [h]
  · rw [State.validateBuffer_tested s b (by omega), if_neg (by simpa using h)]
    refine ⟨by simp, ?_, by simp, by simp, ?_⟩
    · simp only [State.setResult_vstat, PerBuf.get_set_same, countP_fails_eq_zero]
    · intro w hw i hi
      exact State.readWord_writeRecords hm b (s.bits b) hw hi

/-- A description carries over to a state with the same stream, registers and records. -/
theorem State.Described.congr {s t : State} {b : BufId} (h : s.Described b)
    (hl : t.len.get b = s.len.get b) (hb : t.bits b = s.bits b)
    (hv : t.vstat.get b = s.vstat.get b) (hn : t.vn.get b = s.vn.get b)
    (hw : t.vnwin.get b = s.vnwin.get b) (hf : t.vnfail.get b = s.vnfail.get b)
    (hr : ∀ w i, w < (s.bits b).length / windowBits → i < 32 →
      t.readWord (recordAddr b w i) = s.readWord (recordAddr b w i)) : t.Described b := by
  unfold State.Described at h ⊢
  rw [hl, hb, hv, hn, hw, hf]
  refine ⟨h.1, ?_⟩
  have h2 := h.2
  split
  · rename_i hlt
    rw [if_pos hlt] at h2
    exact h2
  · rename_i hlt
    rw [if_neg hlt] at h2
    exact ⟨h2.1, h2.2.1, h2.2.2.1, fun w hw' i hi => (hr w i hw' hi).trans (h2.2.2.2 w hw' i hi)⟩

end Sys2Proof.Machine
end

