-- ==== Sys2Proof/Laws/Pipeline.lean ====
section
/-!
SUPPORT. The stages of PIPELINE (45 R323): each stage's streams in terms of the two images, and what
the four validations leave.
-/

namespace Sys2Proof.Machine

/-- Validations in a row: the stream of every buffer stays (44 R285). -/
theorem State.bits_stageValidate {s : State} (h : ∀ b, (s.len.get b).toNat ≤ 2 ^ 24) (b : BufId) :
    s.stageValidate.bits b = s.bits b := by
  unfold State.stageValidate
  rw [State.bits_validateBuffer _ _ _ (by simpa using h b),
    State.bits_validateBuffer _ _ _ (by simpa using h b),
    State.bits_validateBuffer _ _ _ (by simpa using h b), State.bits_validateBuffer _ _ _ (h b)]

/-- The validation of one buffer leaves the description of another (44 R286). -/
theorem State.Described.validateBuffer_ne {s : State} {b c : BufId} (hd : s.Described c)
    (hbc : c ≠ b) (hb : (s.len.get b).toNat ≤ 2 ^ 24) (hc : (s.len.get c).toNat ≤ 2 ^ 24) :
    (s.validateBuffer b).Described c := by
  obtain ⟨h1, h2, h3, h4⟩ := State.validateBuffer_results_ne s hbc
  refine hd.congr (by simp) (State.bits_validateBuffer s b c hc) h1 h2 h3 h4 fun w i hw hi => ?_
  refine Memory.readWord_eq_of_readByte fun a ha1 ha2 => ?_
  have e := State.readByte_validateBuffer_ne s b (a := a) ?_
  · exact e
  · have hs := wresBase_spread b c
    unfold recordAddr at ha1 ha2
    rw [State.length_bits] at hw
    unfold windowBits at hw ⊢
    rcases hs.2.2 with h | h | h
    · exact absurd h.symm hbc
    · omega
    · omega

/-- After the four validations every result describes its buffer (10 R54, 44 R285). -/
theorem State.described_stageValidate {s : State} (hm : s.mem.wf)
    (h : ∀ b, (s.len.get b).toNat ≤ 2 ^ 24) (b : BufId) : s.stageValidate.Described b := by
  have h0 := State.described_validateBuffer hm .rawA (h .rawA)
  have m1 := State.wf_validateBuffer hm .rawA
  have h1 := State.described_validateBuffer m1 .rawB (by simpa using h .rawB)
  have m2 := State.wf_validateBuffer m1 .rawB
  have h2 := State.described_validateBuffer m2 .xored (by simpa using h .xored)
  have m3 := State.wf_validateBuffer m2 .xored
  have h3 := State.described_validateBuffer m3 .extracted (by simpa using h .extracted)
  unfold State.stageValidate
  cases b with
  | rawA =>
    exact ((h0.validateBuffer_ne (by decide) (by simpa using h _) (by simpa using h _)
      ).validateBuffer_ne (by decide) (by simpa using h _) (by simpa using h _)
      ).validateBuffer_ne (by decide) (by simpa using h _) (by simpa using h _)
  | rawB =>
    exact (h1.validateBuffer_ne (by decide) (by simpa using h _) (by simpa using h _)
      ).validateBuffer_ne (by decide) (by simpa using h _) (by simpa using h _)
  | xored => exact h2.validateBuffer_ne (by decide) (by simpa using h _) (by simpa using h _)
  | extracted => exact h3

/-- After the four validations every result is valid (45 R326). -/
theorem State.valid_stageValidate (s : State) (b : BufId) :
    (s.stageValidate.vstat.get b).valid = true := by
  unfold State.stageValidate
  cases b with
  | rawA =>
    rw [(State.validateBuffer_results_ne _ (b := .extracted) (c := .rawA) (by decide)).1,
      (State.validateBuffer_results_ne _ (b := .xored) (c := .rawA) (by decide)).1,
      (State.validateBuffer_results_ne _ (b := .rawB) (c := .rawA) (by decide)).1,
      State.validateBuffer_valid]
  | rawB =>
    rw [(State.validateBuffer_results_ne _ (b := .extracted) (c := .rawB) (by decide)).1,
      (State.validateBuffer_results_ne _ (b := .xored) (c := .rawB) (by decide)).1,
      State.validateBuffer_valid]
  | xored =>
    rw [(State.validateBuffer_results_ne _ (b := .extracted) (c := .xored) (by decide)).1,
      State.validateBuffer_valid]
  | extracted => exact State.validateBuffer_valid _ _

/-- The four validations change no byte outside the four sets of records. -/
theorem State.readByte_stageValidate_ne (s : State) {a : Nat}
    (h : ∀ b, a < wresBase b ∨ wresBase b + 128 * ((s.len.get b).toNat / windowBits) ≤ a) :
    s.stageValidate.readByte a = s.readByte a := by
  unfold State.stageValidate
  rw [State.readByte_validateBuffer_ne _ _ (by simpa using h .extracted),
    State.readByte_validateBuffer_ne _ _ (by simpa using h .xored),
    State.readByte_validateBuffer_ne _ _ (by simpa using h .rawB),
    State.readByte_validateBuffer_ne _ _ (h .rawA)]

theorem State.wf_stageValidate {s : State} (hm : s.mem.wf) : s.stageValidate.mem.wf := by
  unfold State.stageValidate
  exact State.wf_validateBuffer (State.wf_validateBuffer (State.wf_validateBuffer
    (State.wf_validateBuffer hm .rawA) .rawB) .xored) .extracted

/-- What the four validations may change: memory and the result registers (44 R286). -/
theorem State.stageValidate_frame (s : State) :
    s.stageValidate = { s with
      mem := s.stageValidate.mem, vstat := s.stageValidate.vstat, vn := s.stageValidate.vn
      vnwin := s.stageValidate.vnwin, vnfail := s.stageValidate.vnfail } := by
  apply State.ext <;> simp [State.stageValidate]

/-- The four streams of a PIPELINE over images of `n` pixels, stored one after the other. -/
def State.fourStreams (s : State) (n : Nat) : State :=
  let a := s.lsb .imageA n
  let b := s.lsb .imageB n
  (((s.storeStream .rawA a).storeStream .rawB b).storeStream .xored (xorBits a b)).storeStream
    .extracted (vonNeumann (xorBits a b))

/-- The stages up to DEBIAS store the streams of the two images as they stood at the start (45 R323,
R325): no stage reads what an earlier one has spoilt. -/
theorem State.stages_eq {s : State} (hm : s.mem.wf) {n : Nat} (hn : n ≤ 2 ^ 24) :
    (s.stageExtract n).stageCombine.stageDebias = s.fourStreams n := by
  have ha : (s.lsb .imageA n).length ≤ 2 ^ 24 := by simpa using hn
  have hb : (s.lsb .imageB n).length ≤ 2 ^ 24 := by simpa using hn
  have m1 := State.wf_storeStream hm .rawA (s.lsb .imageA n)
  have e1 : s.stageExtract n =
      (s.storeStream .rawA (s.lsb .imageA n)).storeStream .rawB (s.lsb .imageB n) := by
    have : (s.storeStream .rawA (s.lsb .imageA n)).lsb .imageB n = s.lsb .imageB n :=
      State.lsb_congr (by simp) fun k hk =>
        State.readWord_pixel_storeStream s _ _ _ (by omega)
    unfold State.stageExtract
    dsimp only
    rw [this]
  unfold State.stageCombine State.stageDebias State.fourStreams
  rw [e1]
  generalize s.lsb .imageA n = a at *
  generalize s.lsb .imageB n = b at *
  have m2 := State.wf_storeStream m1 .rawB b
  have hA : ((s.storeStream .rawA a).storeStream .rawB b).bits .rawA = a := by
    rw [State.bits_storeStream_ne _ _ (by decide) ?_ hb,
      State.bits_storeStream_same hm _ (by omega)]
    simp only [State.storeStream_len, PerBuf.get_set_same, BitVec.toNat_ofNat]
    exact Nat.le_trans (Nat.mod_le _ _) ha
  have hB : ((s.storeStream .rawA a).storeStream .rawB b).bits .rawB = b :=
    State.bits_storeStream_same m1 _ (by omega)
  rw [hA, hB]
  have hx : (xorBits a b).length < 2 ^ 32 := by simp; omega
  rw [State.bits_storeStream_same m2 .xored hx]

/-- What the four streams read back as (45 R323). -/
theorem State.bits_fourStreams {s : State} (hm : s.mem.wf) {n : Nat} (hn : n ≤ 2 ^ 24) :
    (s.fourStreams n).bits .rawA = s.lsb .imageA n ∧
    (s.fourStreams n).bits .rawB = s.lsb .imageB n ∧
    (s.fourStreams n).bits .xored = xorBits (s.lsb .imageA n) (s.lsb .imageB n) ∧
    (s.fourStreams n).bits .extracted =
      vonNeumann (xorBits (s.lsb .imageA n) (s.lsb .imageB n)) := by
  have ha : (s.lsb .imageA n).length ≤ 2 ^ 24 := by simpa using hn
  have hb : (s.lsb .imageB n).length ≤ 2 ^ 24 := by simpa using hn
  unfold State.fourStreams
  dsimp only
  generalize s.lsb .imageA n = a at *
  generalize s.lsb .imageB n = b at *
  have hx : (xorBits a b).length ≤ 2 ^ 24 := by simp; omega
  have hv : (vonNeumann (xorBits a b)).length ≤ 2 ^ 24 := by
    have := length_vonNeumann_le (xorBits a b); omega
  generalize vonNeumann (xorBits a b) = v at *
  generalize xorBits a b = x at *
  have m1 := State.wf_storeStream hm .rawA a
  have m2 := State.wf_storeStream m1 .rawB b
  have m3 := State.wf_storeStream m2 .xored x
  have len {u : State} (d : BufId) {y : BitString} (hy : y.length ≤ 2 ^ 24) :
      (((u.storeStream d y).len.get d).toNat) ≤ 2 ^ 24 := by
    simp only [State.storeStream_len, PerBuf.get_set_same, BitVec.toNat_ofNat]
    exact Nat.le_trans (Nat.mod_le _ _) hy
  have keep {u : State} {d c : BufId} {y : BitString} (hcd : c ≠ d)
      (hc : (u.len.get c).toNat ≤ 2 ^ 24) : ((u.storeStream d y).len.get c).toNat ≤ 2 ^ 24 := by
    simp only [State.storeStream_len]
    rw [PerBuf.get_set_ne _ _ hcd]; exact hc
  refine ⟨?_, ?_, ?_, State.bits_storeStream_same m3 _ (by omega)⟩
  · rw [State.bits_storeStream_ne _ _ (by decide)
        (keep (by decide) (keep (by decide) (len .rawA ha))) hv,
      State.bits_storeStream_ne _ _ (by decide) (keep (by decide) (len .rawA ha)) hx,
      State.bits_storeStream_ne _ _ (by decide) (len .rawA ha) hb,
      State.bits_storeStream_same hm _ (by omega)]
  · rw [State.bits_storeStream_ne _ _ (by decide) (keep (by decide) (len .rawB hb)) hv,
      State.bits_storeStream_ne _ _ (by decide) (len .rawB hb) hx,
      State.bits_storeStream_same m1 _ (by omega)]
  · rw [State.bits_storeStream_ne _ _ (by decide) (len .xored hx) hv,
      State.bits_storeStream_same m2 _ (by omega)]

/-- The lengths of the four streams fit (45 R323). -/
theorem State.len_fourStreams {s : State} (hm : s.mem.wf) {n : Nat} (hn : n ≤ 2 ^ 24) (b : BufId) :
    ((s.fourStreams n).len.get b).toNat ≤ n := by
  obtain ⟨h0, h1, h2, h3⟩ := State.bits_fourStreams hm hn
  rw [← State.length_bits]
  cases b with
  | rawA => rw [h0]; simp
  | rawB => rw [h1]; simp
  | xored => rw [h2]; simp
  | extracted =>
    rw [h3]
    have := length_vonNeumann_le (xorBits (s.lsb .imageA n) (s.lsb .imageB n))
    simp only [length_xorBits, State.length_lsb] at this
    omega

theorem State.wf_fourStreams {s : State} (hm : s.mem.wf) (n : Nat) :
    (s.fourStreams n).mem.wf := by
  unfold State.fourStreams
  exact State.wf_storeStream (State.wf_storeStream (State.wf_storeStream
    (State.wf_storeStream hm .rawA _) .rawB _) .xored _) .extracted _

/-- PIPELINE after CHECK is the four streams and the four validations (45 R323). -/
theorem State.runStages_eq {s : State} (hm : s.mem.wf) {n : Nat} (hn : n ≤ 2 ^ 24) :
    s.runStages n = (s.fourStreams n).stageValidate.publish := by
  unfold State.runStages
  rw [State.stages_eq hm hn]

/-- What storing the four streams may change: memory, LEN, VSTAT and REPORT_VALID (10 R51, R54). -/
theorem State.fourStreams_frame (s : State) (n : Nat) :
    s.fourStreams n = { s with
      mem := (s.fourStreams n).mem, len := (s.fourStreams n).len
      vstat := (s.fourStreams n).vstat, reportValid := false } := by
  apply State.ext <;> rfl

/-- What PIPELINE's stages may change (45 R323). -/
theorem State.runStages_frame (s : State) (n : Nat) :
    s.runStages n = { s with
      mem := (s.runStages n).mem, len := (s.runStages n).len, vstat := (s.runStages n).vstat
      vn := (s.runStages n).vn, vnwin := (s.runStages n).vnwin, vnfail := (s.runStages n).vnfail
      reportValid := true } := by
  apply State.ext <;>
    simp [State.runStages, State.stageValidate, State.stageDebias, State.stageCombine,
      State.stageExtract]

end Sys2Proof.Machine
end

