-- ==== Sys2Proof/Laws/Port.lean ====
section
/-!
SUPPORT. The address map read forwards and backwards (20 R101, R102): which address names which
location, and which location an address names.
-/

namespace Sys2Proof.Machine

theorem Config.wf_bounds {c : Config} (h : c.wf = true) :
    40000 ≤ c.maxpix ∧ c.maxpix ≤ 2 ^ 24 ∧ c.maxpix % 32 = 0 := by
  simpa [Config.wf, and_assoc] using h

theorem windowBuf_some {off : Nat} {b : BufId} (h : windowBuf off = some b) :
    off / 0x01000000 = bufIndex b := by
  unfold windowBuf at h
  split at h
  · rename_i hq; cases h; exact hq
  · rename_i hq; cases h; exact hq
  · rename_i hq; cases h; exact hq
  · rename_i hq; cases h; exact hq
  · cases h

theorem windowBuf_eq {off : Nat} {b : BufId} (h : off / 0x01000000 = bufIndex b) :
    windowBuf off = some b := by
  unfold windowBuf; rw [h]; cases b <;> rfl

theorem pixBase_le (m : Image) : pixBase m = 0x10000000 ∨ pixBase m = 0x20000000 := by
  cases m <;> decide

/-- The byte `o` of pixel word `k` lies in PIXA or PIXB (20 R101). -/
theorem locate_pixel {c : Config} (m : Image) {k o : Nat} (hk : k < c.maxpix)
    (hc : c.maxpix ≤ 2 ^ 24) (ho : o < 4) :
    locate c (pixelAddr m k + o) = .ok (.pixel m k) := by
  have hq : (4 * k + o) / 4 = k := by omega
  generalize hn : pixelAddr m k + o = n
  unfold pixelAddr at hn
  unfold locate
  cases m with
  | imageA =>
    have hb : pixBase .imageA = 0x10000000 := rfl
    have hs : n - 0x10000000 = 4 * k + o := by omega
    rw [if_neg (by omega), if_pos (by omega), hs, pixelLoc, if_pos (by omega), hq]
  | imageB =>
    have hb : pixBase .imageB = 0x20000000 := rfl
    have hs : n - 0x20000000 = 4 * k + o := by omega
    rw [if_neg (by omega), if_neg (by omega), if_pos (by omega), hs, pixelLoc,
      if_pos (by omega), hq]

theorem bufLoc_eq {c : Config} (b : BufId) {o : Nat} (hb : o / 0x01000000 = bufIndex b)
    (ho : o % 0x01000000 < c.maxpix / 8) :
    bufLoc c o = .ok (.bufWord b (o % 0x01000000 / 4)) := by
  unfold bufLoc
  rw [windowBuf_eq hb]
  exact if_pos ho

theorem recordLoc_eq {c : Config} (b : BufId) {o : Nat} (hb : o / 0x01000000 = bufIndex b)
    (ho : o % 0x01000000 < 128 * c.maxwin) :
    recordLoc c o = .ok (.record b (o % 0x01000000 / 128) (o % 0x01000000 % 128 / 4)) := by
  unfold recordLoc
  rw [windowBuf_eq hb]
  exact if_pos ho

/-- The byte `o` of word `j` of a buffer lies in BUFb (20 R101). -/
theorem locate_bufWord {c : Config} (b : BufId) {j o : Nat} (hj : j < c.maxpix / 32)
    (hc : c.maxpix ≤ 2 ^ 24) (ho : o < 4) :
    locate c (bufWordAddr b j + o) = .ok (.bufWord b j) := by
  have hi := bufIndex_lt b
  generalize hn : bufWordAddr b j + o = n
  unfold bufWordAddr bufBase at hn
  unfold locate
  rw [if_neg (by omega), if_neg (by omega), if_neg (by omega), if_pos (by omega)]
  generalize hx : n - 0x30000000 = x
  rw [bufLoc_eq b (by omega) (by omega), show x % 0x01000000 / 4 = j by omega]

/-- The byte `o` of word `i` of window record `w` lies in WRESb (20 R101). -/
theorem locate_record {c : Config} (b : BufId) {w i o : Nat} (hw : w < c.maxpix / 20000)
    (hi : i < 32) (hc : c.maxpix ≤ 2 ^ 24) (ho : o < 4) :
    locate c (recordAddr b w i + o) = .ok (.record b w i) := by
  have hb := bufIndex_lt b
  have hm : c.maxwin = c.maxpix / 20000 := rfl
  generalize hn : recordAddr b w i + o = n
  unfold recordAddr wresBase at hn
  unfold locate
  rw [if_neg (by omega), if_neg (by omega), if_neg (by omega), if_neg (by omega),
    if_pos (by omega)]
  generalize hx : n - 0x40000000 = x
  rw [recordLoc_eq b (by omega) (by omega), show x % 0x01000000 / 128 = w by omega,
    show x % 0x01000000 % 128 / 4 = i by omega]

/-- Everything an offset of a region can name (20 R101, R102). -/
theorem pixelLoc_ok {c : Config} {m : Image} {o : Nat} {l : Loc} (h : pixelLoc c m o = .ok l) :
    o < 4 * c.maxpix ∧ l = .pixel m (o / 4) := by
  unfold pixelLoc at h
  split at h
  · exact ⟨by assumption, (Except.ok.inj h).symm⟩
  · cases h

theorem bufLoc_ok {c : Config} {o : Nat} {l : Loc} (h : bufLoc c o = .ok l) :
    ∃ b, o / 0x01000000 = bufIndex b ∧ o % 0x01000000 < c.maxpix / 8 ∧
      l = .bufWord b (o % 0x01000000 / 4) := by
  unfold bufLoc at h
  split at h
  · rename_i b hb
    split at h
    · exact ⟨b, windowBuf_some hb, by assumption, (Except.ok.inj h).symm⟩
    · cases h
  · cases h

theorem recordLoc_ok {c : Config} {o : Nat} {l : Loc} (h : recordLoc c o = .ok l) :
    ∃ b, o / 0x01000000 = bufIndex b ∧ o % 0x01000000 < 128 * c.maxwin ∧
      l = .record b (o % 0x01000000 / 128) (o % 0x01000000 % 128 / 4) := by
  unfold recordLoc at h
  split at h
  · rename_i b hb
    split at h
    · exact ⟨b, windowBuf_some hb, by assumption, (Except.ok.inj h).symm⟩
    · cases h
  · cases h

/-- Everything an aligned address can name (20 R101, R102). -/
theorem locate_cases {c : Config} {n : Nat} {l : Loc} (h : locate c n = .ok l) (hn : n % 4 = 0)
    (hc : c.maxpix % 32 = 0) :
    (n < 0x100 ∧ l = csrLoc n) ∨
    (∃ m k, k < c.maxpix ∧ n = pixelAddr m k ∧ l = .pixel m k) ∨
    (∃ b j, j < c.maxpix / 32 ∧ n = bufWordAddr b j ∧ l = .bufWord b j) ∨
    (∃ b w i, w < c.maxpix / 20000 ∧ i < 32 ∧ n = recordAddr b w i ∧ l = .record b w i) := by
  unfold locate at h
  split at h
  · split at h
    · exact .inl ⟨by assumption, (Except.ok.inj h).symm⟩
    · cases h
  · split at h
    · obtain ⟨h1, h2⟩ := pixelLoc_ok h
      refine .inr (.inl ⟨_, _, by omega, ?_, h2⟩)
      have hb : pixBase .imageA = 0x10000000 := rfl
      unfold pixelAddr
      omega
    · split at h
      · obtain ⟨h1, h2⟩ := pixelLoc_ok h
        refine .inr (.inl ⟨_, _, by omega, ?_, h2⟩)
        have hb : pixBase .imageB = 0x20000000 := rfl
        unfold pixelAddr
        omega
      · split at h
        · obtain ⟨b, h1, h2, h3⟩ := bufLoc_ok h
          refine .inr (.inr (.inl ⟨_, _, by omega, ?_, h3⟩))
          unfold bufWordAddr bufBase
          omega
        · split at h
          · obtain ⟨b, h1, h2, h3⟩ := recordLoc_ok h
            unfold Config.maxwin at h2
            refine .inr (.inr (.inr ⟨_, _, _, by omega, by omega, ?_, h3⟩))
            unfold recordAddr wresBase
            omega
          · cases h

/-- A location is named by exactly the aligned 32-bit accesses to its address (20 R105). -/
theorem target_eq_ok {c : Config} {w : Width} {addr : Word} {l : Loc} :
    target c w addr = .ok l ↔
      w = .word ∧ addr.toNat % 4 = 0 ∧ locate c addr.toNat = .ok l := by
  unfold target
  split
  · simp_all
  · split <;> simp_all

/-- The addresses of the memories fit a word and are aligned. -/
theorem toNat_pixelAddr (m : Image) {k : Nat} (hk : k < 2 ^ 24) :
    (BitVec.ofNat 32 (pixelAddr m k)).toNat = pixelAddr m k ∧ pixelAddr m k % 4 = 0 := by
  have hb := pixBase_le m
  unfold pixelAddr
  rw [BitVec.toNat_ofNat]
  omega

theorem toNat_bufWordAddr (b : BufId) {j : Nat} (hj : j < 2 ^ 22) :
    (BitVec.ofNat 32 (bufWordAddr b j)).toNat = bufWordAddr b j ∧ bufWordAddr b j % 4 = 0 := by
  have hb := bufIndex_lt b
  unfold bufWordAddr bufBase
  rw [BitVec.toNat_ofNat]
  omega

theorem toNat_recordAddr (b : BufId) {w i : Nat} (hw : w < 2 ^ 17) (hi : i < 32) :
    (BitVec.ofNat 32 (recordAddr b w i)).toNat = recordAddr b w i ∧ recordAddr b w i % 4 = 0 := by
  have hb := bufIndex_lt b
  unfold recordAddr wresBase
  rw [BitVec.toNat_ofNat]
  omega

/-- The accesses to the memories' words reach them (20 R101). -/
theorem target_pixel {c : Config} (hc : c.wf = true) (m : Image) {k : Nat} (hk : k < c.maxpix) :
    target c .word (BitVec.ofNat 32 (pixelAddr m k)) = .ok (.pixel m k) := by
  have hb := Config.wf_bounds hc
  have ha := toNat_pixelAddr m (k := k) (by omega)
  rw [target_eq_ok, ha.1]
  exact ⟨rfl, ha.2, locate_pixel m hk hb.2.1 (o := 0) (by omega)⟩

theorem target_bufWord {c : Config} (hc : c.wf = true) (b : BufId) {j : Nat}
    (hj : j < c.maxpix / 32) :
    target c .word (BitVec.ofNat 32 (bufWordAddr b j)) = .ok (.bufWord b j) := by
  have hb := Config.wf_bounds hc
  have ha := toNat_bufWordAddr b (j := j) (by omega)
  rw [target_eq_ok, ha.1]
  exact ⟨rfl, ha.2, locate_bufWord b hj hb.2.1 (o := 0) (by omega)⟩

theorem target_record {c : Config} (hc : c.wf = true) (b : BufId) {w i : Nat}
    (hw : w < c.maxpix / 20000) (hi : i < 32) :
    target c .word (BitVec.ofNat 32 (recordAddr b w i)) = .ok (.record b w i) := by
  have hb := Config.wf_bounds hc
  have ha := toNat_recordAddr b (w := w) (i := i) (by omega) hi
  rw [target_eq_ok, ha.1]
  exact ⟨rfl, ha.2, locate_record b hw hi hb.2.1 (o := 0) (by omega)⟩

/-- An access to a CSR offset reaches what the CSR map says, in every build (10 R30). -/
theorem target_csr (c : Config) {addr : Word} (h : addr.toNat < 0x100) (h4 : addr.toNat % 4 = 0) :
    target c .word addr = .ok (csrLoc addr.toNat) := by
  rw [target_eq_ok]
  refine ⟨rfl, h4, ?_⟩
  unfold locate
  rw [if_pos (by omega), if_pos h]

/-- Every location at or above 0x100 belongs to the engine: a pixel, buffer or record word (20 R112). -/
theorem locate_engineOwned {c : Config} {n : Nat} {l : Loc} (h : locate c n = .ok l)
    (hn : 0x100 ≤ n) : l.engineOwned = true := by
  unfold locate at h
  split at h
  · rw [if_neg (by omega)] at h; cases h
  · split at h
    · rw [(pixelLoc_ok h).2]; rfl
    · split at h
      · rw [(pixelLoc_ok h).2]; rfl
      · split at h
        · obtain ⟨b, -, -, rfl⟩ := bufLoc_ok h; rfl
        · split at h
          · obtain ⟨b, -, -, rfl⟩ := recordLoc_ok h; rfl
          · cases h

/-- The engine-owned registers by offset: DIM_A to LEN, and the result registers (20 R112). -/
theorem csrLoc_engineOwned {n : Nat} (h4 : n % 4 = 0)
    (h : 0x020 ≤ n ∧ n < 0x050 ∨ 0x080 ≤ n ∧ n < 0x0C0) : (csrLoc n).engineOwned = true := by
  have key : ∀ k, k < 48 → (8 ≤ k ∧ k < 20 ∨ 32 ≤ k) → (csrLoc (4 * k)).engineOwned = true := by
    decide
  rw [← Nat.mul_div_cancel' (Nat.dvd_of_mod_eq_zero h4)]
  exact key _ (by omega) (by omega)

/-- The engine-owned locations by address (20 R112). -/
theorem target_engineOwned {c : Config} {w : Width} {addr : Word} {l : Loc}
    (h : target c w addr = .ok l)
    (hr : 0x020 ≤ addr.toNat ∧ addr.toNat < 0x050 ∨ 0x080 ≤ addr.toNat ∧ addr.toNat < 0x0C0 ∨
      0x100 ≤ addr.toNat) : l.engineOwned = true := by
  obtain ⟨-, h4, hl⟩ := target_eq_ok.1 h
  by_cases hn : 0x100 ≤ addr.toNat
  · exact locate_engineOwned hl hn
  · unfold locate at hl
    rw [if_pos (by omega), if_pos (by omega)] at hl
    cases hl
    exact csrLoc_engineOwned h4 (by omega)

end Sys2Proof.Machine
end

