-- ==== Sys2Proof/Laws/Step.lean ====
section
/-!
SUPPORT. What one step can do, said once: the inversion lemmas of step, of exec and of the host
port's operations.
-/

namespace Sys2Proof.Machine

/-! ### The fetch -/

theorem State.fetch_command {s : State} {w : Word} {i : Instr} (hp : s.pend = some w)
    (hd : decode w = .ok i) : s.fetch = .command i := by
  simp [State.fetch, hp, hd]

theorem State.fetch_nothing {s : State} (hp : s.pend = none) : s.fetch = .nothing := by
  simp [State.fetch, hp]

/-! ### The engine's commands -/

theorem exec_nop (s : State) : exec .nop s = .next s.complete := rfl

theorem exec_extract (m : Image) (d : BufId) (s : State) :
    exec (.extract m d) s =
      if s.cfg.maxpix < pixelCount (s.dim m) then
        .next (s.abort .capacityExceeded (.extract m d))
      else .next (s.storeStream d (s.lsb m (pixelCount (s.dim m)))).complete := rfl

theorem exec_xor (a b d : BufId) (s : State) :
    exec (.xor a b d) s =
      if (s.bits a).length ≠ (s.bits b).length then .next (s.abort .lengthMismatch (.xor a b d))
      else .next (s.storeStream d (xorBits (s.bits a) (s.bits b))).complete := rfl

theorem exec_debias (a d : BufId) (s : State) :
    exec (.debias a d) s = .next (s.storeStream d (vonNeumann (s.bits a))).complete := rfl

theorem exec_validate (a : BufId) (s : State) :
    exec (.validate a) s = .next (s.validateBuffer a).complete := rfl

theorem exec_pipeline (s : State) :
    exec .pipeline s =
      if s.dimA ≠ s.dimB then .next (s.abort .mismatchedImageDimensions .pipeline)
      else if s.cfg.maxpix < pixelCount s.dimA then .next (s.abort .capacityExceeded .pipeline)
      else .next (s.runStages (pixelCount s.dimA)).complete := rfl

theorem exec_clear (s : State) : exec .clear s = .next s.clearAll.complete := rfl

/-- Everything one engine step can do, command by command (45 R321). -/
theorem exec_cases {i : Instr} {s t : State} (h : exec i s = .next t) :
    (i = .nop ∧ t = s.complete) ∨
    (∃ m d, i = .extract m d ∧
      ((s.cfg.maxpix < pixelCount (s.dim m) ∧ t = s.abort .capacityExceeded i) ∨
        (pixelCount (s.dim m) ≤ s.cfg.maxpix ∧
          t = (s.storeStream d (s.lsb m (pixelCount (s.dim m)))).complete))) ∨
    (∃ a b d, i = .xor a b d ∧
      (((s.bits a).length ≠ (s.bits b).length ∧ t = s.abort .lengthMismatch i) ∨
        ((s.bits a).length = (s.bits b).length ∧
          t = (s.storeStream d (xorBits (s.bits a) (s.bits b))).complete))) ∨
    (∃ a d, i = .debias a d ∧ t = (s.storeStream d (vonNeumann (s.bits a))).complete) ∨
    (∃ a, i = .validate a ∧ t = (s.validateBuffer a).complete) ∨
    (i = .pipeline ∧
      ((s.dimA ≠ s.dimB ∧ t = s.abort .mismatchedImageDimensions i) ∨
        (s.dimA = s.dimB ∧ s.cfg.maxpix < pixelCount s.dimA ∧ t = s.abort .capacityExceeded i) ∨
        (s.dimA = s.dimB ∧ pixelCount s.dimA ≤ s.cfg.maxpix ∧
          t = (s.runStages (pixelCount s.dimA)).complete))) ∨
    (i = .clear ∧ t = s.clearAll.complete) := by
  cases i with
  | nop => exact .inl ⟨rfl, (Host.Outcome.next.inj h).symm⟩
  | extract m d =>
    refine .inr (.inl ⟨m, d, rfl, ?_⟩)
    rw [exec_extract] at h
    split at h
    · exact .inl ⟨by assumption, (Host.Outcome.next.inj h).symm⟩
    · exact .inr ⟨by omega, (Host.Outcome.next.inj h).symm⟩
  | xor a b d =>
    refine .inr (.inr (.inl ⟨a, b, d, rfl, ?_⟩))
    rw [exec_xor] at h
    split at h
    · exact .inl ⟨by assumption, (Host.Outcome.next.inj h).symm⟩
    · exact .inr ⟨by omega, (Host.Outcome.next.inj h).symm⟩
  | debias a d =>
    rw [exec_debias] at h
    exact .inr (.inr (.inr (.inl ⟨a, d, rfl, (Host.Outcome.next.inj h).symm⟩)))
  | validate a =>
    rw [exec_validate] at h
    exact .inr (.inr (.inr (.inr (.inl ⟨a, rfl, (Host.Outcome.next.inj h).symm⟩))))
  | pipeline =>
    refine .inr (.inr (.inr (.inr (.inr (.inl ⟨rfl, ?_⟩)))))
    rw [exec_pipeline] at h
    split at h
    · exact .inl ⟨by assumption, (Host.Outcome.next.inj h).symm⟩
    · rename_i hd
      have hd : s.dimA = s.dimB := Classical.not_not.1 hd
      split at h
      · exact .inr (.inl ⟨hd, by assumption, (Host.Outcome.next.inj h).symm⟩)
      · exact .inr (.inr ⟨hd, by omega, (Host.Outcome.next.inj h).symm⟩)
  | clear =>
    rw [exec_clear] at h
    exact .inr (.inr (.inr (.inr (.inr (.inr ⟨rfl, (Host.Outcome.next.inj h).symm⟩)))))

/-- No engine step stops the machine: every command runs, errors of the block included. -/
theorem exec_isNext (i : Instr) (s : State) : ∃ t, exec i s = .next t := by
  cases i with
  | nop => exact ⟨_, exec_nop s⟩
  | extract m d => rw [exec_extract]; split <;> exact ⟨_, rfl⟩
  | xor a b d => rw [exec_xor]; split <;> exact ⟨_, rfl⟩
  | debias a d => exact ⟨_, exec_debias a d s⟩
  | validate a => exact ⟨_, exec_validate a s⟩
  | pipeline => rw [exec_pipeline]; split <;> [skip; split] <;> exact ⟨_, rfl⟩
  | clear => exact ⟨_, exec_clear s⟩

/-! ### The host port -/

/-- The state after one host access that is no BUSERR. -/
def State.afterAccess (s : State) (a : Access) (l : Loc) : State :=
  if a.we then s.writeLoc l a.wdata else State.observe (s.readLoc l)

theorem State.access_ok {s : State} {a : Access} {l : Loc}
    (h : target s.cfg a.width a.addr = .ok l) : s.access a = .next (s.afterAccess a l) := by
  simp [State.access, h, State.afterAccess]

theorem State.access_error {s : State} {a : Access} {c : BusCause}
    (h : target s.cfg a.width a.addr = .error c) :
    s.access a = .fault (.busError c a.addr) := by
  simp [State.access, h]

/-- The words a record read can show while BUSY = 0: 0, the stored or still drawn word, or a stale
one (10 R52, R57). -/
theorem State.recordWord_cases (s : State) (b : BufId) (w i : Nat) :
    (26 ≤ i ∧ s.recordWord b w i = 0) ∨
    (i < 26 ∧ s.recordWord b w i = s.readWord (recordAddr b w i) ∧
      (((s.vstat.get b).valid = true ∧ w < (s.vnwin.get b).toNat) ∨
        s.mem.written (recordAddr b w i) = false)) ∨
    (i < 26 ∧ s.mem.written (recordAddr b w i) = true ∧
      s.recordWord b w i = Config.staleWord s.draws (recordAddr b w i)) := by
  unfold State.recordWord
  split
  · exact .inl ⟨by assumption, rfl⟩
  · rename_i h
    split
    · rename_i hr
      exact .inr (.inl ⟨by omega, rfl, by simpa using hr⟩)
    · rename_i hr
      simp only [Bool.or_eq_true, not_or, Bool.not_eq_true, Bool.not_eq_false'] at hr
      exact .inr (.inr ⟨by omega, hr.2, rfl⟩)

/-- After a reset input every record word below 26 shows the fresh draw (10 R57, 70 R400). -/
theorem State.recordWord_applyReset (s : State) (b : BufId) {w i : Nat} (hi : i < 26) :
    s.applyReset.recordWord b w i = s.applyReset.readWord (recordAddr b w i) := by
  rcases s.applyReset.recordWord_cases b w i with ⟨h, -⟩ | ⟨-, h, -⟩ | ⟨-, h, -⟩
  · omega
  · exact h
  · cases h

/-- A read of a location by the ordinary rules changes nothing but the readout positions and the
draw counter (20 R109). -/
theorem State.readOwn_cases (s : State) (l : Loc) :
    (s.readOwn l).2 = s ∨
    (l = .csr .status ∧ (s.readOwn l).2 = { s with draws := s.draws + 1 }) ∨
    (l = .csr .hexOut ∧ (s.readOwn l).2 = { s with hexpos := s.hexpos + 1 }) ∨
    (l = .csr .binOut ∧ (s.readOwn l).2 = { s with binpos := s.binpos + 1 }) := by
  cases l with
  | csr r =>
    cases r with
    | status =>
      simp only [State.readOwn, State.readCsr]
      split
      · exact .inr (.inl ⟨trivial, rfl⟩)
      · exact .inl rfl
    | hexOut =>
      simp only [State.readOwn, State.readCsr, readHexOut]
      split
      · exact .inr (.inr (.inl ⟨trivial, rfl⟩))
      · exact .inl rfl
    | binOut =>
      simp only [State.readOwn, State.readCsr, readBinOut]
      split
      · exact .inr (.inr (.inr ⟨trivial, rfl⟩))
      · exact .inl rfl
    | _ => exact .inl rfl
  | _ => exact .inl rfl

/-- A read of a location: the ordinary one, or while BUSY = 1 the drawn one (20 R112). -/
theorem State.readLoc_cases (s : State) (l : Loc) :
    s.readLoc l = s.readOwn l ∨
    (s.busy = true ∧ l.engineOwned = true ∧
      s.readLoc l = (Config.busyWord s.draws, { s with draws := s.draws + 1 })) := by
  unfold State.readLoc
  split
  · rename_i h
    simp only [Bool.and_eq_true] at h
    exact .inr ⟨h.1, h.2, rfl⟩
  · exact .inl rfl

/-- What any host read can do to the state: nothing, a draw, or the advance of one readout position
while BUSY = 0. -/
theorem State.readLoc_state (s : State) (l : Loc) :
    (s.readLoc l).2 = s ∨
    (s.readLoc l).2 = { s with draws := s.draws + 1 } ∨
    (s.busy = false ∧ (s.readLoc l).2 = { s with hexpos := s.hexpos + 1 }) ∨
    (s.busy = false ∧ (s.readLoc l).2 = { s with binpos := s.binpos + 1 }) := by
  by_cases hb : s.busy = true
  · rcases s.readLoc_cases l with h | ⟨-, -, h⟩
    · by_cases hl : l = .csr .hexOut ∨ l = .csr .binOut
      · unfold State.readLoc
        rcases hl with rfl | rfl <;> simp [hb, Loc.engineOwned, Csr.hostOwned]
      · rw [h]
        rcases s.readOwn_cases l with h | ⟨-, h⟩ | ⟨h, -⟩ | ⟨h, -⟩
        · exact .inl h
        · exact .inr (.inl h)
        · exact absurd (.inl h) hl
        · exact absurd (.inr h) hl
    · rw [h]; exact .inr (.inl rfl)
  · have hb : s.busy = false := by simpa using hb
    rcases s.readLoc_cases l with h | ⟨h, -⟩
    · rw [h]
      rcases s.readOwn_cases l with h | ⟨-, h⟩ | ⟨-, h⟩ | ⟨-, h⟩
      · exact .inl h
      · exact .inr (.inl h)
      · exact .inr (.inr (.inl ⟨hb, h⟩))
      · exact .inr (.inr (.inr ⟨hb, h⟩))
    · exact absurd h (by simp [hb])

/-- What any host write can do to the state, location by location (20 R112, 10 R35 to R52). -/
theorem State.writeLoc_cases (s : State) (l : Loc) (v : Word) :
    (s.busy = true ∧ l.engineOwned = true ∧ s.writeLoc l v = { s with accRej := true }) ∨
    (s.writeLoc l v = s ∧ (s.busy = false ∨ l.engineOwned = false)) ∨
    (l = .csr .cmd ∧ s.writeLoc l v = s.writeCmd v) ∨
    (l = .csr .status ∧ s.writeLoc l v = s.writeStatus v) ∨
    (l = .csr .ier ∧ s.writeLoc l v = { s with doneIe := v.getLsbD 0, errIe := v.getLsbD 1 }) ∨
    (s.busy = false ∧
      ((l = .csr .dimA ∧ s.writeLoc l v = { s with dimA := v }) ∨
       (l = .csr .dimB ∧ s.writeLoc l v = { s with dimB := v }) ∨
       (l = .csr .iosel ∧ s.writeLoc l v = s.writeIosel v) ∨
       (l = .csr .charIn ∧ s.writeLoc l v = writeCharIn s v) ∨
       (l = .csr .hexpos ∧ s.writeLoc l v = { s with hexpos := v }) ∨
       (l = .csr .binpos ∧ s.writeLoc l v = { s with binpos := v }) ∨
       (∃ b, l = .csr (.len b) ∧ s.writeLoc l v = s.writeLen b v) ∨
       (∃ m k, l = .pixel m k ∧
         s.writeLoc l v = { s with mem := s.mem.writeWord (pixelAddr m k) v }) ∨
       (∃ b j, l = .bufWord b j ∧
         s.writeLoc l v =
           { s with mem := s.mem.writeWord (bufWordAddr b j) v }.invalidate b))) := by
  cases hb : s.busy with
  | true =>
    cases l with
    | csr r =>
      cases r <;>
        simp [State.writeLoc, hb, Loc.engineOwned, Csr.hostOwned, State.writeOwn, State.writeCsr]
    | _ => simp [State.writeLoc, hb, Loc.engineOwned, State.writeOwn]
  | false =>
    cases l with
    | csr r => cases r <;> simp [State.writeLoc, hb, State.writeOwn, State.writeCsr]
    | _ => simp [State.writeLoc, hb, State.writeOwn]

/-! ### One step -/

/-- Everything a step that goes on can do: a reset; an engine's turn with nothing pending; the
engine step of the latched command; a host's turn with no operation left; an access; a turn of
POLL. -/
theorem step_cases {s t : State} (h : step s = .next t) :
    (s.nextTurn = .reset ∧ t = s.takeTurn.applyReset) ∨
    (s.nextTurn = .engine ∧ s.pend = none ∧ t = s.takeTurn) ∨
    (s.nextTurn = .engine ∧ ∃ w i, s.pend = some w ∧ decode w = .ok i ∧
      exec i s.takeTurn = .next t) ∨
    (s.nextTurn = .host ∧ s.host = [] ∧ t = s.takeTurn) ∨
    (s.nextTurn = .host ∧ ∃ a rest l, s.host = .access a :: rest ∧
      target s.cfg a.width a.addr = .ok l ∧
      t = { s.takeTurn with host := rest }.afterAccess a l) ∨
    (s.nextTurn = .host ∧ ∃ addr mask val rest l, s.host = .poll addr mask val :: rest ∧
      target s.cfg .word addr = .ok l ∧
      t = { State.observe (s.takeTurn.readLoc l) with
        host := if (s.takeTurn.readLoc l).1 &&& mask = val then rest
          else .poll addr mask val :: rest }) := by
  unfold step at h
  split at h
  · rename_i hturn
    unfold State.hostTurn at h
    split at h
    · rename_i hh
      exact .inr (.inr (.inr (.inl ⟨hturn, hh, by cases h; rfl⟩)))
    · rename_i a rest hh
      cases ht : target s.cfg a.width a.addr with
      | error c =>
        rw [State.access_error (by simpa using ht)] at h
        cases h
      | ok l =>
        rw [State.access_ok (l := l) (by simpa using ht)] at h
        exact .inr (.inr (.inr (.inr (.inl ⟨hturn, a, rest, l, hh, ht, by cases h; rfl⟩))))
    · rename_i addr mask val rest hh
      unfold State.pollOnce at h
      split at h
      · cases h
      · rename_i l ht
        exact .inr (.inr (.inr (.inr (.inr
          ⟨hturn, addr, mask, val, rest, l, hh, ht, by cases h; rfl⟩))))
  · rename_i hturn
    unfold State.engineTurn State.fetch at h
    rw [State.takeTurn_pend] at h
    cases hp : s.pend with
    | none =>
      rw [hp] at h
      exact .inr (.inl ⟨hturn, rfl, by cases h; rfl⟩)
    | some w =>
      rw [hp] at h
      cases hd : decode w with
      | error e => simp [hd] at h
      | ok i =>
        simp only [hd] at h
        exact .inr (.inr (.inl ⟨hturn, w, i, rfl, hd, h⟩))
  · rename_i hturn
    exact .inl ⟨hturn, by cases h; rfl⟩

end Sys2Proof.Machine
end

