-- ==== Sys2Proof/Laws/Invariant.lean ====
section
/-!
SUPPORT. Tools for the invariants of Safety.lean: how the invariant passes to a state that differs in
few fields, how a description of results survives writes elsewhere, and which bytes are mapped.
-/

namespace Sys2Proof.Machine

/-! ### The invariant -/

theorem State.Inv.done_of_busy {s : State} (h : s.Inv) (hb : s.busy = true) : s.done = false := by
  have : s.pend.isSome = true := by rw [← h.busyPend]; exact hb
  obtain ⟨w, hw⟩ := Option.isSome_iff_exists.1 this
  exact (h.pending w hw).2.2.1

/-- A state that differs from one with the invariant in nothing the invariant links has it too. -/
theorem State.Inv.same {s t : State} (h : s.Inv) (hcfg : t.cfg = s.cfg) (hmem : t.mem.wf)
    (hbusy : t.busy = s.busy) (hpend : t.pend = s.pend) (hstage : t.stage = s.stage)
    (hcmd : t.cmd = s.cmd) (hdone : s.busy = true → t.done = false) (herr : t.err = s.err)
    (hrep : t.reportValid = true → s.reportValid = true) (hcode : t.errcode = s.errcode)
    (hinfo : t.errinfo = s.errinfo) (hlen : ∀ b, (t.len.get b).toNat ≤ t.cfg.maxpix) : t.Inv := by
  refine ⟨by rw [hcfg]; exact h.build, hmem, by rw [hbusy, hpend]; exact h.busyPend,
    by rw [hbusy, hstage]; exact h.idleStage, ?_, by rw [hcmd]; exact h.readback,
    by rw [herr, hcode, hinfo]; exact h.noError, by rw [herr, hcode]; exact h.error, hlen⟩
  intro w hw
  rw [hpend] at hw
  obtain ⟨h1, h2, h3, h4, h5, h6⟩ := h.pending w hw
  rw [hcmd, herr, hstage]
  refine ⟨h1, h2, hdone (by rw [h.busyPend, hw]; rfl), h4, h5, fun ho => ?_⟩
  cases hr : t.reportValid
  · rfl
  · rw [← h6 ho, hrep hr]

/-- A state in which the command of a state with the invariant has ended has it too. -/
theorem State.Inv.finished {s t : State} (h : s.Inv) (hcfg : t.cfg = s.cfg) (hmem : t.mem.wf)
    (hbusy : t.busy = false) (hpend : t.pend = none) (hstage : t.stage = .idle)
    (hcmd : t.cmd = s.cmd)
    (herr : (t.err = s.err ∧ t.errcode = s.errcode ∧ t.errinfo = s.errinfo) ∨
      (t.err = true ∧ t.errcode ≠ .none))
    (hlen : ∀ b, (t.len.get b).toNat ≤ t.cfg.maxpix) : t.Inv := by
  refine ⟨by rw [hcfg]; exact h.build, hmem, by rw [hbusy, hpend]; rfl, fun _ => hstage,
    by rw [hpend]; nofun, by rw [hcmd]; exact h.readback, ?_, ?_, hlen⟩
  · rcases herr with ⟨a, b, c⟩ | ⟨a, b⟩
    · rw [a, b, c]; exact h.noError
    · rw [a]; nofun
  · rcases herr with ⟨a, b, c⟩ | ⟨a, b⟩
    · rw [a, b]; exact h.error
    · exact fun _ => b

/-- A LEN register replaced within a bound stays within it. -/
theorem PerBuf.toNat_get_set_le {p : PerBuf Word} {n : Nat} {b c : BufId} {v : Word}
    (h : ∀ b, (p.get b).toNat ≤ n) (hv : v.toNat ≤ n) : ((p.set b v).get c).toNat ≤ n := by
  rw [PerBuf.get_set]
  split
  · exact hv
  · exact h c

/-- How an engine step ends: an error raised with nothing else done, or DONE (45 R321, 60 R377). -/
theorem exec_error_or_done {i : Instr} {s t : State} (h : exec i s = .next t) :
    (∃ e, e ≠ .none ∧ t = s.abort e i) ∨
    (t.err = s.err ∧ t.errcode = s.errcode ∧ t.errinfo = s.errinfo ∧ t.done = true ∧
      t.busy = false ∧ t.stage = .idle ∧ t.pend = none) := by
  rcases exec_cases h with ⟨-, rfl⟩ | ⟨m, d, rfl, ⟨-, rfl⟩ | ⟨-, rfl⟩⟩ |
    ⟨a, b, d, rfl, ⟨-, rfl⟩ | ⟨-, rfl⟩⟩ | ⟨a, d, rfl, rfl⟩ | ⟨a, rfl, rfl⟩ |
    ⟨rfl, ⟨-, rfl⟩ | ⟨-, -, rfl⟩ | ⟨-, -, rfl⟩⟩ | ⟨rfl, rfl⟩
  · right; simp
  · left; exact ⟨_, by decide, rfl⟩
  · right; simp
  · left; exact ⟨_, by decide, rfl⟩
  · right; simp
  · right; simp
  · right; simp
  · left; exact ⟨_, by decide, rfl⟩
  · left; exact ⟨_, by decide, rfl⟩
  · right; rw [State.runStages_frame]; simp
  · right; simp

/-- The OP field of a word that decodes is the opcode of what it decodes to (30 R153). -/
theorem opField_of_decode {w : Word} {i : Instr} (h : decode w = .ok i) : opField w = i.opcode := by
  unfold decode at h
  dsimp only at h
  split at h
  · unfold Command.decode at h
    have e : (Command.ofWord w).op = opField w := rfl
    rw [e] at h
    split at h
    all_goals rename_i hop
    all_goals (try split at h)
    all_goals (try cases h)
    all_goals exact BitVec.eq_of_toNat_eq hop
  · cases h

/-! ### Descriptions -/

/-- A description survives a change of bytes outside the buffer and all records (10 R54). -/
theorem State.Described.congr_bytes {s t : State} {b : BufId} (hd : s.Described b)
    (hn : (s.len.get b).toNat ≤ 2 ^ 24)
    (h : ∀ a, bufBase b ≤ a ∧ a < bufBase b + 0x01000000 ∨ 0x40000000 ≤ a →
      t.readByte a = s.readByte a)
    (hl : t.len.get b = s.len.get b) (hv : t.vstat.get b = s.vstat.get b)
    (hvn : t.vn.get b = s.vn.get b) (hw : t.vnwin.get b = s.vnwin.get b)
    (hf : t.vnfail.get b = s.vnfail.get b) : t.Described b := by
  refine hd.congr hl ?_ hv hvn hw hf ?_
  · exact State.bits_congr_window hl (by rw [hl]; exact hn) fun a h1 h2 => h a (.inl ⟨h1, by omega⟩)
  · intro w i _ _
    refine Memory.readWord_eq_of_readByte fun a ha _ => h a (.inr ?_)
    have := wresBase_spread b b
    unfold recordAddr at ha
    omega

/-! ### Mapped bytes -/

theorem mappedMemory_buf {c : Config} (hc : c.wf = true) (b : BufId) {a : Nat}
    (h1 : bufBase b ≤ a) (h2 : a < bufBase b + 4 * (c.maxpix / 32)) : mappedMemory c a = true := by
  have hb := Config.wf_bounds hc
  have h4 : bufBase b % 4 = 0 := by unfold bufBase; omega
  have e : a - a % 4 = bufWordAddr b ((a - bufBase b) / 4) + 0 := by unfold bufWordAddr; omega
  unfold mappedMemory
  rw [e, locate_bufWord b (by omega) hb.2.1 (by omega)]

theorem mappedMemory_record {c : Config} (hc : c.wf = true) (b : BufId) {a : Nat}
    (h1 : wresBase b ≤ a) (h2 : a < wresBase b + 128 * (c.maxpix / 20000)) :
    mappedMemory c a = true := by
  have hb := Config.wf_bounds hc
  have h4 : wresBase b % 4 = 0 := by unfold wresBase; omega
  generalize ho : a - wresBase b = o at *
  have e : a - a % 4 = recordAddr b (o / 128) (o % 128 / 4) + 0 := by unfold recordAddr; omega
  unfold mappedMemory
  rw [e, locate_record b (by omega) (by omega) hb.2.1 (by omega)]

theorem mappedMemory_pixel {c : Config} (hc : c.wf = true) (m : Image) {k a : Nat}
    (hk : k < c.maxpix) (h1 : pixelAddr m k ≤ a) (h2 : a < pixelAddr m k + 4) :
    mappedMemory c a = true := by
  have hb := Config.wf_bounds hc
  have h4 := (toNat_pixelAddr m (k := k) (by omega)).2
  have e : a - a % 4 = pixelAddr m k + 0 := by omega
  unfold mappedMemory
  rw [e, locate_pixel m hk hb.2.1 (by omega)]

end Sys2Proof.Machine
end

