-- ==== Sys2Proof/Laws/PerInstr.lean ====
section
/-!
SUPPORT. Laws stated per instruction: each constructor's command word stands in its own row of the
pattern table (30 R153, R155), and its operands are well-formed (30 R151).
-/

namespace Sys2Proof.Laws

/-- The command word of `i` matches the pattern-table row of `i`, has `i`'s opcode in its OP field, and
`i`'s operands are well-formed. -/
def EncodesToRow.Statement (i : Instr) : Prop :=
  i.row ∈ opcodeRows ∧ i.row.matchesWord (encode i) = true ∧
    (encode i).extractLsb' 0 8 = i.opcode ∧ i.wf = true

theorem EncodesToRow.nop : EncodesToRow.Statement .nop := by
  unfold EncodesToRow.Statement; decide

theorem EncodesToRow.extract (m : Image) (d : BufId) :
    EncodesToRow.Statement (.extract m d) := by
  cases m <;> cases d <;> (unfold EncodesToRow.Statement; decide)

theorem EncodesToRow.xor (a b d : BufId) : EncodesToRow.Statement (.xor a b d) := by
  cases a <;> cases b <;> cases d <;> (unfold EncodesToRow.Statement; decide)

theorem EncodesToRow.debias (a d : BufId) : EncodesToRow.Statement (.debias a d) := by
  cases a <;> cases d <;> (unfold EncodesToRow.Statement; decide)

theorem EncodesToRow.validate (a : BufId) : EncodesToRow.Statement (.validate a) := by
  cases a <;> (unfold EncodesToRow.Statement; decide)

theorem EncodesToRow.pipeline : EncodesToRow.Statement .pipeline := by
  unfold EncodesToRow.Statement; decide

theorem EncodesToRow.clear : EncodesToRow.Statement .clear := by
  unfold EncodesToRow.Statement; decide

end Sys2Proof.Laws
end

