-- ==== Sys2Proof/Tests/Slice0.lean ====
section
/-!
SUPPORT. The model's own tests. Expected values are the spec's: spec/95_test_vectors.md (named V-…),
the worked examples of the rules, or a hand calculation said in the comment. The witness theorems at
the end show states and operands that meet the hypotheses of the statements.
-/

namespace Sys2Proof.Tests

open Sys2Proof.Machine

/-! ### Well-formedness: an ill-formed term for each check -/

theorem test_wf_reference : Config.reference.wf = true := by decide

theorem test_wf_refuses_small_maxpix : Config.wf ⟨.red, .numeral, 39968⟩ = false := by decide

theorem test_wf_refuses_large_maxpix : Config.wf ⟨.red, .numeral, 16777248⟩ = false := by decide

theorem test_wf_refuses_maxpix_no_multiple_of_32 :
    Config.wf ⟨.red, .numeral, 40001⟩ = false := by decide

theorem test_wf_refuses_undefined_opcode :
    Command.opcodeDefined ⟨0x07, 0, 0, 0, 0, 0, 0⟩ = false ∧
    Command.opcodeDefined ⟨0xFF, 0, 0, 0, 0, 0, 0⟩ = false := by decide

theorem test_wf_refuses_reserved_bits :
    Command.reservedClear ⟨0x02, 0, 1, 0, 0, 0, 0⟩ = false ∧
    Command.reservedClear ⟨0x02, 0, 0, 0, 2, 0, 0⟩ = false ∧
    Command.reservedClear ⟨0x02, 0, 0, 0, 0, 0, 0x2000⟩ = false := by decide

theorem test_wf_refuses_unused_operands :
    Command.unusedClear ⟨0x00, 1, 0, 0, 0, 0, 0⟩ = false ∧
    Command.unusedClear ⟨0x01, 2, 0, 0, 0, 0, 0⟩ = false ∧
    Command.unusedClear ⟨0x01, 1, 0, 1, 0, 0, 0⟩ = false ∧
    Command.unusedClear ⟨0x03, 0, 0, 1, 0, 0, 0⟩ = false ∧
    Command.unusedClear ⟨0x04, 0, 0, 0, 0, 1, 0⟩ = false ∧
    Command.unusedClear ⟨0x05, 0, 0, 0, 0, 3, 0⟩ = false ∧
    Command.unusedClear ⟨0x06, 0, 0, 2, 0, 0, 0⟩ = false := by decide

/-! ### Decoding: words written out from 30 R155, bit by bit, and 95 section 2.1 -/

theorem test_decode_nop :
    decodeTableWord 32 0b00000000000000000000000000000000 = some .nop := by decide

theorem test_decode_extract :
    decodeTableWord 32 0b00000000000000110000000100000001 = some (.extract .imageB .extracted) ∧
    decodeTableWord 32 0b00000000000000100000000000000001 = some (.extract .imageA .xored) := by
  decide

theorem test_decode_xor :
    decodeTableWord 32 0b00000000000000100001000000000010 = some (.xor .rawA .rawB .xored) ∧
    decodeTableWord 32 0b00000000000000010011001000000010 =
      some (.xor .xored .extracted .rawB) := by decide

theorem test_decode_debias :
    decodeTableWord 32 0b00000000000000110000001000000011 = some (.debias .xored .extracted) := by
  decide

theorem test_decode_validate :
    decodeTableWord 32 0b00000000000000000000001100000100 = some (.validate .extracted) := by decide

theorem test_decode_pipeline :
    decodeTableWord 32 0b00000000000000000000000000000101 = some .pipeline := by decide

theorem test_decode_clear :
    decodeTableWord 32 0b00000000000000000000000000000110 = some .clear := by decide

/-- Illegal words: the reserved opcodes 0x07 and 0xFF, RA[1] and RB of EXTRACT, RB of DEBIAS, RD of
VALIDATE, RA of NOP, and bits 10, 15 and 31 (30 R154). -/
theorem test_decode_refuses_illegal_words :
    [0x00000007, 0x000000FF, 0x00000201, 0x00001001, 0x00031203, 0x00010004, 0x00000100,
      0x00000402, 0x00008002, 0x80000000].map (decodeTableWord 32) = List.replicate 10 none := by
  decide

/-- 30 R156: the worked example of the assembling rule. -/
theorem test_encode_worked_example : encode (.xor .rawA .rawB .xored) = 0x00021002 := by decide

/-- 45 R323, R327, R328 and 95: the command words of the other commands. -/
theorem test_encode_words :
    encode .nop = 0x00000000 ∧ encode (.extract .imageB .rawB) = 0x00010101 ∧
    encode (.debias .xored .extracted) = 0x00030203 ∧ encode (.validate .rawA) = 0x00000004 ∧
    encode .pipeline = 0x00000005 ∧ encode .clear = 0x00000006 := by decide

/-- 30 R157 and the words of the vectors: the assembler's text, destination first. -/
theorem test_asmText :
    asmText (.xor .rawA .rawB .xored) = "XOR 2, 0, 1" ∧
    asmText (.extract .imageA .rawA) = "EXTRACT A, 0" := by decide

/-! ### Helpers: a state with words written, and one step from it -/

/-- The reset state with words of memory written and the command word `w` placed. -/
def start (w : Nat) (len : PerBuf Word) (dim : Word) (ws : List (Nat × Word)) : State :=
  { State.reset with
    len := len, dimA := dim, dimB := dim
    mem := ws.foldl (fun (m : Memory) (p : Nat × Word) => m.writeWord p.1 p.2) State.reset.mem }.withFetchWord 32 w

/-- A test of the state after one step. -/
def after (s : State) (p : State → Bool) : Bool :=
  match step s with
  | .next t => p t
  | _ => false

/-- A test of the state after one access. -/
def afterPort (s : State) (a : Access) (p : State → Bool) : Bool :=
  match s.access a with
  | .next t => p t
  | _ => false

/-! ### Commands -/

/-- V-CTL-1. -/
theorem test_nop : after (start 0x00000000 (.all 0) 0 []) (fun t =>
    t.statusWord == 0x00000002 && t.cmd == 0) = true := by decide +kernel

/-- V-EXT-1. -/
theorem test_extract : after (start 0x00000001 (.all 0) 0x00010004
      [(0x10000000, 0x000000FF), (0x10000004, 0x000000FE), (0x10000008, 0xFFFFFF01),
        (0x1000000C, 0x01010100)]) (fun t =>
    t.bits .rawA == [true, false, true, false] && t.readWord 0x30000000 == 0xA0000000 &&
      t.statusWord == 0x00000002) = true := by decide +kernel

/-- V-EXT-7: 256 × 257 pixels. -/
theorem test_extract_capacity : after (start 0x00000001 (.all 0) 0x01010100 []) (fun t =>
    t.statusWord == 0x00000504 && t.errinfo == 0x00000001 && t.len == .all 0) = true := by
  decide +kernel

/-- V-XOR-4: the destination is a source. -/
theorem test_xor_in_place : after (start 0x00001002 ⟨4, 4, 0, 0⟩ 0
      [(0x30000000, 0xC0000000), (0x31000000, 0xA0000000)]) (fun t =>
    t.bits .rawA == [false, true, true, false] && t.readWord 0x30000000 == 0x60000000) = true := by
  decide +kernel

/-- V-XOR-5. -/
theorem test_xor_length_mismatch : after (start 0x00021002 ⟨4, 3, 0, 0⟩ 0 []) (fun t =>
    t.statusWord == 0x00000104 && t.errinfo == 0x00021002 && t.len.xored == 0) = true := by
  decide +kernel

/-- V-VN-1: "0110001101" debiases to "010". -/
theorem test_debias : after (start 0x00030203 ⟨0, 0, 10, 0⟩ 0 [(0x32000000, 0x63400000)])
    (fun t => t.bits .extracted == [false, true, false] &&
      t.readWord 0x33000000 == 0x40000000) = true := by decide +kernel

/-- V-VN-5: "10" in place. -/
theorem test_debias_in_place : after (start 0x00020203 ⟨0, 0, 2, 0⟩ 0 [(0x32000000, 0x80000000)])
    (fun t => t.bits .xored == [true]) = true := by decide +kernel

/-- V-VAL-2: VALIDATE of an empty stream. -/
theorem test_validate_empty : after (start 0x00000004 (.all 0) 0 []) (fun t =>
    (t.vstat.get .rawA).word == 0x5 && t.vn.get .rawA == 0 && t.vnwin.get .rawA == 0 &&
      t.statusWord == 0x00000002) = true := by decide +kernel

/-- By hand: "0001110100111111" has 10 ones, the nibbles 1, 13, 3, 15, and runs of length
3, 3, 1, 1, 2, 6. -/
theorem test_windowTests_by_hand :
    windowTests [false, false, false, true, true, true, false, true, false, false, true, true, true,
        true, true, true] =
      { ones := 10, s := 4, longest := 6, runb := [2, 1, 2, 0, 0, 1],
        f := [0, 1, 0, 1, 0, 0, 0, 0, 0, 0, 0, 0, 0, 1, 0, 1] } := by decide

/-- The comparators at their bounds (44 R273, R276, R279, R280; 95 section 2.6). -/
theorem test_comparators :
    [9725, 9726, 10274, 10275].map monoPass = [false, true, true, false] ∧
    [1563175, 1563176, 1576928, 1576929].map pokerPass = [false, true, true, false] ∧
    [25, 26].map longPass = [true, false] ∧
    runbPass [2315, 1386, 526, 240, 209, 102] = [true, true, false, true, true, false] := by decide

/-- V-VAL-8: the FLAGS word 0x7E4 of RUNS_PASS with all six RUNB_PASS. -/
theorem test_flags_word :
    (WindowRecord.words ⟨4918, 7741850, 10167, [2500, 1250, 625, 312, 156, 156], []⟩).head? =
      some 0x7E4 := by decide

/-- V-PIPE-3: two empty images. -/
theorem test_pipeline_empty : after (start 0x00000005 (.all 7) 0 []) (fun t =>
    t.statusWord == 0x0000000A && t.len == .all 0 && t.vstat == .all ⟨true, false, true⟩) = true := by
  decide +kernel

/-- V-PIPE-2: 4 × 8 against 8 × 4. -/
theorem test_pipeline_mismatch :
    after ({ start 0x00000005 (.all 0) 0x00080004 [] with dimB := 0x00040008 }) (fun t =>
      t.statusWord == 0x00000204 && t.errinfo == 0x00000005) = true := by decide +kernel

/-- V-CTL-3. -/
theorem test_clear : after (start 0x00000006 (.all 9) 0x00040004 [(0x30000000, 0xD5AA0000)])
    (fun t => t.len == .all 0 && t.dimA == 0x00040004 && t.readWord 0x30000000 == 0xD5AA0000 &&
      t.statusWord == 0x00000002) = true := by decide +kernel

/-! ### The port -/

/-- V-CTL-4: an illegal word at an idle block. -/
theorem test_illegal_command :
    afterPort State.reset ⟨true, .word, 0x010, 0x00000007⟩ (fun t =>
      t.statusWord == 0x00000404 && t.errinfo == 0x00000007 && t.cmd == 0 && !t.busy) = true := by
  decide +kernel

/-- V-CTL-6: a LEN write while busy. -/
theorem test_busy_write_dropped :
    afterPort (State.reset.accept 0x00000005) ⟨true, .word, 0x040, 7⟩ (fun t =>
      t.accRej && t.len == .all 0) = true := by decide +kernel

/-- V-CIN-3: 'x' at CHAR_IN. -/
theorem test_char_in_refuses_x :
    afterPort State.reset ⟨true, .word, 0x02C, 0x00000078⟩ (fun t =>
      t.statusWord == 0x00000304 && t.errinfo == 0x00000078 && t.len == .all 0) = true := by
  decide +kernel

/-- 40 R180: bits [31:8] are ignored, so 0xFFFFFF31 appends a 1. -/
theorem test_char_in_appends :
    afterPort State.reset ⟨true, .word, 0x02C, 0xFFFFFF31⟩ (fun t =>
      t.bits .rawA == [true]) = true := by decide +kernel

/-- V-HEX-7, V-HEX-6 and V-HEX-5; "101110" by hand from the sums of 40 R191, since the digits its
example (and V-HEX-3, V-HEX-4) give for "101101" are not those sums (log 24). -/
theorem test_toHex :
    toHex .numeral [true, true, true, true, true, false, true, false] = [0x66, 0x61] ∧
    toHex .numeral [false, false, true] = [0x31] ∧ toHex .padRight [false, false, true] = [0x32] ∧
    toHex .numeral [true] = [0x31] ∧ toHex .padRight [true] = [0x38] ∧
    toHex .numeral [true, false, true, true, true, false] = [0x62, 0x32] ∧
    toHex .padRight [true, false, true, true, true, false] = [0x62, 0x38] := by decide

/-- V-PAD-1 to V-PAD-5 and V-VAL-1's message. -/
theorem test_host_functions :
    padBinary 5 8 = some [0x30, 0x30, 0x30, 0x30, 0x30, 0x31, 0x30, 0x31] ∧
    padBinary 0 1 = some [0x30] ∧ padBinary 4 2 = none ∧
    padHexByte 10 = some [0x30, 0x61] ∧ padHexByte 256 = none ∧
    insufMessage 15000 = [0x31, 0x35, 0x30, 0x30, 0x30] ++ ofRequired := by decide

/-- V-BUS-1, V-BUS-3, V-BUS-4, V-BUS-6: reads of constants and of a reserved offset. -/
theorem test_reads :
    [0x000, 0x004, 0x008, 0x00C, 0x01C, 0x060].map (fun a =>
      afterPort State.reset ⟨false, .word, a, 0⟩ (fun t => t.obs ==
        [match a.toNat with
          | 0x000 => 0x54524E47
          | 0x004 => 0x00070001
          | 0x00C => 0x00010000
          | 0x01C => 0x00000003
          | _ => 0])) = List.replicate 6 true := by decide +kernel

/-- V-BUS-7 to V-BUS-11 and V-BUS-13: where BUSERR is, at the edges of the regions. -/
theorem test_bus_errors :
    target Config.reference .word 0x00000002 = .error .misaligned ∧
    target Config.reference .word 0x00000100 = .error .outOfRange ∧
    target Config.reference .word 0x10040000 = .error .outOfRange ∧
    target Config.reference .word 0x1003FFFC = .ok (.pixel .imageA 65535) ∧
    target Config.reference .word 0x30002000 = .error .outOfRange ∧
    target Config.reference .word 0x31001FFC = .ok (.bufWord .rawB 2047) ∧
    target Config.reference .word 0x40000180 = .error .outOfRange ∧
    target Config.reference .word 0x40000068 = .ok (.record .rawA 0 26) ∧
    target Config.reference .word 0x50000000 = .error .unmapped ∧
    target Config.reference .byte 0x00000000 = .error .width := by decide +kernel

/-- V-IRQ-3: IER = 2 and an illegal word raise `irq`. -/
theorem test_irq : afterPort { State.reset with errIe := true } ⟨true, .word, 0x010, 0x00000007⟩
    (fun t => t.irq) = true := by decide +kernel

/-! ### Witnesses: states and operands that meet the hypotheses of the statements

`test_witness_<Name>` is for `Obligations.<Name>`. Statements without hypotheses have none. -/

/-- The largest build of 00 R11. -/
def largest : Config := ⟨.alpha, .padRight, 16777216⟩

/-- An idle state after a completed command and a report of four empty streams. -/
def reported : State :=
  { State.reset with
    cmd := 0x00000005, done := true, reportValid := true, vstat := .all ⟨true, false, true⟩ }

/-- An idle state with an unacknowledged CHAR_IN error and IER set. -/
def failed : State :=
  { reported with
    err := true, errcode := .invalidBitCharacter, errinfo := 0x00000078, errIe := true }

/-- A PIPELINE latched with unequal dimensions, dropped accesses and a stale report's results. -/
def latched : State :=
  { reported.accept 0x00000005 with
    dimA := 0x00080004, dimB := 0x00040008, accRej := true, cmdRej := true }

/-- A host's turn with an error pending: it writes 0x78 to CHAR_IN, which is dropped. -/
def failedHost : State := { failed with host := [.access ⟨true, .word, 0x0000002C, 0x78⟩] }

theorem reported_inv : reported.Inv :=
  ⟨by decide, by decide, by decide, by decide, nofun, by decide, by decide, by decide,
    fun b => by cases b <;> decide⟩

theorem failed_inv : failed.Inv :=
  ⟨by decide, by decide, by decide, by decide, nofun, by decide, by decide, by decide,
    fun b => by cases b <;> decide⟩

theorem failedHost_inv : failedHost.Inv :=
  ⟨by decide, by decide, by decide, by decide, nofun, by decide, by decide, by decide,
    fun b => by cases b <;> decide⟩

theorem latched_inv : latched.Inv :=
  ⟨by decide, by decide, by decide, by decide, fun w h => by cases h; decide, by decide, by decide,
    by decide, fun b => by cases b <;> decide⟩

theorem latchedHost_inv : State.Inv { latched with sched := [.host] } :=
  ⟨by decide, by decide, by decide, by decide, fun w h => by cases h; decide, by decide, by decide,
    by decide, fun b => by cases b <;> decide⟩

/-- NOP latched after a report, which stays valid. -/
theorem reportedNop_inv : (reported.accept 0x00000000).Inv :=
  ⟨by decide, by decide, by decide, by decide, fun w h => by cases h; decide, by decide, by decide,
    by decide, fun b => by cases b <;> decide⟩

/-- 10 R57, 93 I6: after a reset a record word shows the fresh draw; a word that was written is not
unwritten any more. -/
theorem test_record_after_reset :
    Memory.written (Memory.writeWord ⟨[], []⟩ 0x40000000 0) 0x40000000 = true ∧
    (latched.applyReset).mem.written 0x40000000 = false := by decide

/-- 20 R112: a busy read of a reserved record word is a draw. -/
theorem test_busy_record_read : ∃ k, latched.access ⟨false, .word, 0x40000068, 0⟩ =
    .next { latched with obs := [Config.busyWord 0], draws := k } := ⟨1, rfl⟩

theorem next_of_after {s : State} {p : State → Bool} (h : after s p = true) :
    ∃ t, step s = .next t ∧ p t = true := by
  unfold after at h
  split at h
  · exact ⟨_, by assumption, h⟩
  · cases h

theorem test_witness_LegalWordsAreTheTableWords :
    legal 0x00000007 = false ∧ legal 0x80000000 = false ∧ reported.busy = false ∧
    reported.err = false ∧
    ⟨"NOP", 0x00000000, 0xFFFFFFFF⟩ ∈ opcodeRows := by decide

theorem test_witness_ResetStateMeetsTheInvariants :
    largest.wf = true ∧ Config.wf ⟨.green, .numeral, 40000⟩ = true := by decide

theorem test_witness_ResetInputRestoresResetValues :
    State.nextTurn { latched with sched := [.reset] } = .reset ∧
    State.nextTurn { failed with sched := [.reset, .host] } = .reset := by decide

theorem test_witness_ResetInputForgetsTheMemories :
    State.nextTurn { latched with sched := [.reset], host := [.poll 0x14 1 0] } = .reset ∧
    25 < 26 := by decide

theorem test_witness_StepRunsTheLatchedCommand :
    latched.pend = some 0x00000005 ∧ decode 0x00000005 = .ok .pipeline ∧ latched.sched = [] ∧
    State.sched { latched with sched := [.engine, .host] } = .engine :: [.host] := by decide

theorem test_witness_HostTurnRunsTheNextOperation :
    State.nextTurn { reported with sched := [.engine] } = .engine ∧ reported.pend = none ∧
    reported.nextTurn = .host ∧ reported.host = [] ∧ failedHost.nextTurn = .host ∧
    failedHost.host = .access ⟨true, .word, 0x0000002C, 0x78⟩ :: [] ∧
    State.nextTurn { latched with sched := [.host], host := [.poll 0x14 1 0] } = .host ∧
    target latched.cfg .word 0x14 = .ok (.csr .status) ∧
    State.nextTurn { reported with host := [.poll 0x50000000 1 0] } = .host ∧
    target reported.cfg .word 0x50000000 = .error .unmapped ∧
    (0x16 : Word).toNat % 4 ≠ 0 := by decide +kernel

theorem test_witness_EveryStepKeepsTheInvariant :
    latched.Inv ∧ (∃ t, step latched = .next t ∧ t.err = true) ∧
    failedHost.Inv ∧ (∃ t, step failedHost = .next t ∧ t.accRej = true) :=
  ⟨latched_inv, next_of_after (by decide +kernel), failedHost_inv, next_of_after (by decide +kernel)⟩

theorem reported_described : reported.ResultsDescribed := fun b _ => by
  cases b <;> exact ⟨by decide, by decide⟩

theorem test_witness_EveryStepKeepsValidResultsDescribed :
    (reported.accept 0x00000000).Inv ∧ (reported.accept 0x00000000).ResultsDescribed ∧
    ((reported.accept 0x00000000).vstat.get .xored).valid = true ∧
    (∃ t, step (reported.accept 0x00000000) = .next t ∧ t.done = true) :=
  ⟨reportedNop_inv, fun b _ => by cases b <;> exact ⟨by decide, by decide⟩, by decide,
    next_of_after (by decide +kernel)⟩

theorem test_witness_EveryStepKeepsTheReportSound :
    (reported.accept 0x00000000).Inv ∧ (reported.accept 0x00000000).ReportSound ∧
    (reported.accept 0x00000000).reportValid = true ∧
    (∃ t, step (reported.accept 0x00000000) = .next t ∧ t.reportValid = true) :=
  ⟨reportedNop_inv, fun _ => ⟨by decide, by decide, by decide, fun b => by cases b <;> decide⟩,
    by decide, next_of_after (by decide +kernel)⟩

/-- The fault clause: a host's read of address 2. -/
theorem test_witness_OnlyHostBusErrorsStopTheBlock :
    latched.Inv ∧ latched.nextTurn = .engine ∧
    State.nextTurn { latched with sched := [.reset] } = .reset ∧
    step { State.reset with host := [.access ⟨false, .word, 2, 0⟩] } =
      .fault (.busError .misaligned 2) :=
  ⟨latched_inv, by decide, by decide, rfl⟩

theorem test_witness_NoStepChangesTheBuild : ∃ t, step latched = .next t ∧ t.err = true :=
  next_of_after (by decide +kernel)

theorem test_witness_OnlyMappedMemoryIsWritten :
    latched.Inv ∧ (∃ t, step latched = .next t ∧ t.err = true) ∧ latched.nextTurn ≠ .reset ∧
    mappedMemory latched.cfg 0x1003FFFF = true ∧ mappedMemory latched.cfg 0x10040000 = false ∧
    mappedMemory latched.cfg 0x000000FF = false ∧ mappedMemory latched.cfg 0x33002000 = false ∧
    mappedMemory latched.cfg 0x43000180 = false :=
  ⟨latched_inv, next_of_after (by decide +kernel), by decide, by decide +kernel, by decide +kernel,
    by decide +kernel, by decide +kernel, by decide +kernel⟩

theorem test_witness_NopOnlyCompletes : reported.busy = false ∧ reported.err = false := by decide

/-- Capacity at its bound: 256 × 256 fits in 65,536, 2 × 32,769 does not; bits on both sides of n. -/
theorem test_witness_ExtractStoresTheLsbStream :
    latched.mem.wf ∧
    latched.cfg.maxpix < dimWidth 0x80010002 * dimHeight 0x80010002 ∧
    dimWidth 0x01000100 * dimHeight 0x01000100 ≤ latched.cfg.maxpix ∧
    dimWidth 0x00050005 * dimHeight 0x00050005 = 25 ∧ 24 < 25 ∧ 25 ≤ 31 ∧
    31 / 32 < (25 + 31) / 32 ∧ bufBase .extracted - 1 < bufBase .extracted ∧
    bufBase .extracted + 4 * ((25 + 31) / 32) ≤ bufBase .extracted + 4 := by decide +kernel

/-- Two memories that differ above the tapped bit of a 1 × 1 image. -/
theorem test_witness_ExtractReadsOnlyTheTappedBits :
    let s := { reported with dimA := 0x00010001, mem := reported.mem.writeWord 0x10000000 0x000000FF }
    let t := { reported with dimA := 0x00010001, mem := reported.mem.writeWord 0x10000000 0x12345601 }
    s.mem.wf ∧ t.mem.wf ∧ s.cfg = t.cfg ∧ s.dim .imageA = t.dim .imageA ∧
    pixelCount (s.dim .imageA) = 1 ∧ 1 ≤ s.cfg.maxpix ∧ s.mem ≠ t.mem ∧
    (s.readWord (pixelAddr .imageA 0)).getLsbD (8 * channelCode s.cfg.channel) =
      (t.readWord (pixelAddr .imageA 0)).getLsbD (8 * channelCode t.cfg.channel) := by
  decide +kernel

theorem test_witness_XorStoresTheExclusiveOr :
    let s := { reported with len := ⟨33, 33, 32, 0⟩ }
    s.mem.wf ∧ s.len.get .rawA ≠ s.len.get .xored ∧ s.len.get .rawA = s.len.get .rawB ∧
    (s.len.get .rawA).toNat = 33 ∧ 32 < 33 ∧ 63 / 32 < (33 + 31) / 32 := by decide

theorem test_witness_XorPreservesLengthAndCancels :
    [true, true, false].length = [true, false, true].length := by decide

theorem test_witness_DebiasStoresTheUnequalPairs :
    let s := { reported with
      len := ⟨0, 0, 10, 0⟩, mem := reported.mem.writeWord 0x32000000 0x63400000 }
    s.mem.wf ∧ unequalPairs (s.bits .xored) = [0, 1, 4] ∧ 31 / 32 < (3 + 31) / 32 := by
  decide +kernel

/-- Streams of 19,999 and 20,000 bits, and of 2^24 bits in the largest build. -/
theorem test_witness_ValidateWritesVerdictAndRecords :
    latched.mem.wf ∧
    (PerBuf.get ⟨19999, 20000, 16777216, 0⟩ .rawA : Word).toNat = 19999 ∧ 19999 < 20000 ∧
    (PerBuf.get ⟨19999, 20000, 16777216, 0⟩ .rawB : Word).toNat = 20000 ∧ 20000 / 20000 = 1 ∧
    (PerBuf.get ⟨19999, 20000, 16777216, 0⟩ .xored : Word).toNat ≤ 2 ^ 24 := by decide

theorem test_witness_PipelineBuildsTheReport :
    latched.cfg.wf = true ∧ latched.mem.wf ∧ latched.dimA ≠ latched.dimB ∧
    latched.cfg.maxpix < dimWidth 0x80010002 * dimHeight 0x80010002 ∧
    dimWidth 0x01000100 * dimHeight 0x01000100 ≤ latched.cfg.maxpix ∧
    (∀ b, bufBase b + 4 * ((65536 + 31) / 32) ≤ 0x33002000 ∨ 0x33002000 < bufBase b) := by
  refine ⟨by decide, by decide, by decide, by decide, by decide, fun b => ?_⟩
  cases b <;> decide

theorem test_witness_FailedPipelineLeavesNoPartialReport :
    latched.Inv ∧ latched.nextTurn = .engine ∧ latched.pend = some 0x00000005 ∧
    (∃ t, step latched = .next t ∧ t.err = true) :=
  ⟨latched_inv, by decide, by decide, next_of_after (by decide +kernel)⟩

/-- A window of 20,000 bits, and the ends of the ranges of its record's clauses. -/
theorem test_witness_DatapathEqualsTheBatteryRules :
    (List.replicate 20000 true).length = 20000 ∧ 11 ≤ 11 ∧ 11 ≤ 31 ∧ 1 ≤ 1 ∧ 6 ≤ 6 ∧ 15 < 16 ∧
    26 ≤ 26 ∧ 31 < 32 := ⟨List.length_replicate, by decide⟩

theorem test_witness_NoWindowCanPass :
    (List.replicate 20000 false).length = 20000 := List.length_replicate

theorem test_witness_WindowCountsStayInTheirWidths :
    (List.replicate 20000 false).length = 20000 := List.length_replicate

/-- Neighbouring runs, up to the last one: "0110" has three. -/
theorem test_witness_RunsSplitTheWindow :
    runs [false, true, true, false] = [[false], [true, true], [false]] := by decide

theorem test_witness_ValidationsCommute : latched.Inv ∧ BufId.rawA ≠ BufId.extracted :=
  ⟨latched_inv, by decide⟩

/-- An engine step, a CMD write, and the two errors of a CHAR_IN write. -/
theorem test_witness_RaisedErrorsArePrecise :
    (∃ t, exec .pipeline latched = .next t ∧ latched.err = false ∧ t.err = true) ∧
    reported.err = false ∧ (reported.writeCmd 0x00000007).err = true ∧
    (writeCharIn reported 0x00000078).err = true ∧
    State.err { reported with len := .all 65536 } = false ∧
    (writeCharIn { reported with len := .all 65536 } 0x00000031).err = true :=
  ⟨⟨latched.abort .mismatchedImageDimensions .pipeline, rfl, rfl, rfl⟩, by decide, by decide,
    by decide, by decide, by decide⟩

theorem test_witness_ErrorsAreNeverOverwritten :
    failedHost.Inv ∧ failedHost.err = true ∧ (∃ t, step failedHost = .next t ∧ t.err = true) :=
  ⟨failedHost_inv, by decide, next_of_after (by decide +kernel)⟩

theorem test_witness_EngineStepSetsDoneOrErr :
    latched.Inv ∧ latched.nextTurn = .engine ∧ latched.pend = some 0x00000005 :=
  ⟨latched_inv, by decide, by decide⟩

theorem test_witness_StageReadIsAStageOfTheRunningCommand :
    latched.Inv ∧ latched.pend = some 0x00000005 ∧ (reported.accept 0x00000000).Inv ∧
    (reported.accept 0x00000000).pend = some 0x00000000 ∧ reported.Inv ∧ reported.busy = false :=
  ⟨latched_inv, by decide, reportedNop_inv, by decide, reported_inv, by decide⟩

theorem test_witness_CommandWriteIsDroppedRejectedOrAccepted :
    latched.busy = true ∧ failed.err = true ∧ reported.busy = false ∧ reported.err = false ∧
    legal 0x00000007 = false ∧ legal 0x00000000 = true ∧ legal 0x00033302 = true := by decide

theorem test_witness_InterruptFollowsDoneAndErr :
    failed.irq = true ∧ reported.busy = false ∧ reported.err = false ∧ legal 0x00000006 = true := by
  decide

/-- The last word of each region, of the least and the largest build. -/
theorem test_witness_AddressMapIsExact :
    (let c : Config := ⟨.blue, .numeral, 40000⟩
    c.wf = true ∧ (0x0BC, Csr.vnfail .extracted) ∈ csrMap ∧ 39999 < c.maxpix ∧
    1249 < c.maxpix / 32 ∧ 1 < c.maxpix / 20000 ∧ 31 < 32 ∧
    target c .word 0x300013FC = .error .outOfRange) ∧
    largest.wf = true ∧ 16777215 < largest.maxpix ∧ 838 - 1 < largest.maxpix / 20000 ∧
    target largest .word 0x43FFFFFC = .error .outOfRange ∧
    target largest .word 0x331FFFFC = .ok (.bufWord .extracted 524287) := by decide +kernel

theorem test_witness_UnsupportedAccessesGetBusError :
    Width.double ≠ Width.word ∧ (0x00000013 : Word).toNat % 4 ≠ 0 ∧
    target latched.cfg .word 0x00000100 = .error .outOfRange ∧
    target latched.cfg .word 0x0000002C = .ok (.csr .charIn) := by decide +kernel

/-- The first and the last engine-owned word of each range of 20 R112. -/
theorem test_witness_BusyBlockOwnsItsState :
    latched.busy = true ∧
    target latched.cfg .word 0x00000020 = .ok (.csr .dimA) ∧
    target latched.cfg .word 0x0000004C = .ok (.csr (.len .extracted)) ∧
    target latched.cfg .word 0x00000080 = .ok (.csr (.vstat .rawA)) ∧
    target latched.cfg .word 0x000000BC = .ok (.csr (.vnfail .extracted)) ∧
    target latched.cfg .word 0x10000000 = .ok (.pixel .imageA 0) ∧
    target latched.cfg .word 0x4300017C = .ok (.record .extracted 2 31) := by decide +kernel

theorem test_witness_RegisterReadsReturnTheirFields :
    latched.busy = true ∧ reported.busy = false := by decide

/-- The first and the last reserved offset of both ranges. -/
theorem test_witness_ReadOnlyAndReservedWritesAreIgnored :
    reported.busy = false ∧ 3 < 4 ∧ reported.cfg.wf = true ∧ 2 < reported.cfg.maxpix / 20000 ∧
    [0x054, 0x07C, 0x0C0, 0x0FC].all (fun off =>
      (decide (0x054 ≤ off ∧ off < 0x080 ∨ 0x0C0 ≤ off ∧ off < 0x100) && off % 4 == 0)) = true := by
  decide

theorem test_witness_LenWriteSetsOrRejects :
    reported.busy = false ∧ (0x00010000 : Word).toNat ≤ reported.cfg.maxpix ∧
    reported.cfg.maxpix < (0x00010001 : Word).toNat := by decide

theorem test_witness_IoselWriteRestartsTheReadouts : failed.busy = false := by decide

theorem test_witness_PlainRegistersHoldWhatIsWritten :
    reported.busy = false ∧ latched.busy = true := by decide

theorem test_witness_MemoryWordWritesReadBack :
    reported.cfg.wf = true ∧ reported.mem.wf ∧ reported.busy = false ∧
    65535 < reported.cfg.maxpix ∧ 2047 < reported.cfg.maxpix / 32 ∧ 31 < 32 := by decide

theorem test_witness_RepeatedAccessesChangeNothingMore :
    latched.mem.wf ∧ reported.busy = false ∧ Loc.csr .status ≠ .csr .cmd ∧
    Loc.csr .hexpos ≠ .csr .charIn ∧ Loc.csr .hexpos ≠ .csr .hexOut ∧
    Loc.record .rawA 0 0 ≠ .csr .binOut := by decide

theorem test_witness_RecordReadsShowMeaningfulWords :
    let s := { reported with vstat := .all ⟨true, false, false⟩, vnwin := .all 3 }
    s.cfg.wf = true ∧ s.busy = false ∧ 2 < s.cfg.maxpix / 20000 ∧ 31 < 32 ∧ 26 ≤ 26 ∧ 25 < 26 ∧
    (s.vstat.get .xored).valid = true ∧ 2 < (s.vnwin.get .xored).toNat ∧
    reported.mem.written (recordAddr .xored 2 25) = false := by decide

theorem test_witness_EngineNeverWritesPixels :
    latched.Inv ∧ latched.nextTurn = .engine ∧ (∃ t, step latched = .next t ∧ t.err = true) ∧
    65535 < latched.cfg.maxpix :=
  ⟨latched_inv, by decide, next_of_after (by decide +kernel), by decide⟩

/-- The four clauses: busy or in error; 'x'; a full buffer; the buffer with one bit to go. -/
theorem test_witness_CharInDropsRaisesOrAppends :
    latched.mem.wf ∧ latched.busy = true ∧ failed.err = true ∧ reported.busy = false ∧
    reported.err = false ∧ (0x78 : Byte) ≠ 0x30 ∧ (0x78 : Byte) ≠ 0x31 ∧
    (State.len { reported with len := .all 65536 }).get reported.cinBuf = 65536 ∧
    (65536 : Word).toNat = reported.cfg.maxpix ∧ (65535 : Word).toNat ≠ reported.cfg.maxpix ∧
    (0xFFFFFF31 : Word).extractLsb' 0 8 = 0x31 := by decide

/-- A stream of 6 bits has 2 digits: positions 1 and 2. -/
theorem test_witness_HexOutReturnsTheNextDigit :
    latched.busy = true ∧ reported.busy = false ∧ ((6 : Word).toNat + 3) / 4 = 2 ∧
    (1 : Word).toNat < 2 ∧ 2 ≤ (2 : Word).toNat := by decide

theorem test_witness_BinOutReturnsTheNextBit :
    latched.busy = true ∧ reported.busy = false ∧ (5 : Word).toNat < (6 : Word).toNat ∧
    (6 : Word).toNat ≤ (6 : Word).toNat := by decide

theorem test_witness_HexLengthIsCeilOfQuarterAndReadsBack :
    [true, true, true, true, true, false, true, false].length % 4 = 0 := by decide

theorem test_witness_PartialNibbleDigit :
    [true, false, true, true].length % 4 = 0 ∧ 1 ≤ [true].length ∧
    [true, false, true].length ≤ 3 := by decide

theorem test_witness_PadBinaryIsTheNumeral :
    1 ≤ 8 ∧ 255 < 2 ^ 8 ∧ 2 ^ 8 ≤ 256 ∧ (0 = 0 ∨ 2 ^ 0 ≤ 0) := by decide

theorem test_witness_PadHexByteIsTwoDigits : 255 ≤ 255 ∧ 255 < 256 := by decide

end Sys2Proof.Tests
end

section
/-!
O13: the build parameters (00 R9 to R11, 10 R33). First each operation keeps `cfg`, then
the engine step, the two kinds of host access, and the step.
-/

namespace Sys2Proof.Machine

/-! ### Operations -/

@[simp] theorem State.applyReset_cfg (s : State) : s.applyReset.cfg = s.cfg := rfl

@[simp] theorem State.observe_cfg (p : Word × State) : (State.observe p).cfg = p.2.cfg := rfl

@[simp] theorem appendBit_cfg (s : State) (b : BufId) (x : Bool) :
    (appendBit s b x).cfg = s.cfg := rfl

@[simp] theorem State.runStages_cfg (s : State) (n : Nat) : (s.runStages n).cfg = s.cfg := by
  rw [State.runStages_frame]

@[simp] theorem State.writeCmd_cfg (s : State) (v : Word) : (s.writeCmd v).cfg = s.cfg := by
  unfold State.writeCmd
  split
  · rfl
  · split <;> simp

@[simp] theorem State.writeStatus_cfg (s : State) (v : Word) : (s.writeStatus v).cfg = s.cfg := by
  unfold State.writeStatus
  dsimp only
  split <;> simp

@[simp] theorem State.writeLen_cfg (s : State) (b : BufId) (v : Word) :
    (s.writeLen b v).cfg = s.cfg := by
  unfold State.writeLen
  split <;> rfl

/-- The four ends of a CHAR_IN write: dropped, two errors, the append (40 R180). -/
@[simp] theorem writeCharIn_cfg (s : State) (v : Word) : (writeCharIn s v).cfg = s.cfg := by
  unfold writeCharIn
  dsimp only
  split
  · rfl
  · split
    · exact State.raise_cfg ..
    · split
      · exact State.raise_cfg ..
      · exact appendBit_cfg ..

/-! ### The host port -/

@[simp] theorem State.readLoc_cfg (s : State) (l : Loc) : (s.readLoc l).2.cfg = s.cfg := by
  rcases s.readLoc_state l with h | h | ⟨-, h⟩ | ⟨-, h⟩ <;> rw [h]

@[simp] theorem State.writeLoc_cfg (s : State) (l : Loc) (v : Word) :
    (s.writeLoc l v).cfg = s.cfg := by
  rcases s.writeLoc_cases l v with ⟨-, -, h⟩ | ⟨h, -⟩ | ⟨-, h⟩ | ⟨-, h⟩ | ⟨-, h⟩ |
    ⟨-, ⟨-, h⟩ | ⟨-, h⟩ | ⟨-, h⟩ | ⟨-, h⟩ | ⟨-, h⟩ | ⟨-, h⟩ | ⟨b, -, h⟩ | ⟨m, k, -, h⟩ |
      ⟨b, j, -, h⟩⟩ <;> simp [h]

@[simp] theorem State.afterAccess_cfg (s : State) (a : Access) (l : Loc) :
    (s.afterAccess a l).cfg = s.cfg := by
  unfold State.afterAccess
  split <;> simp

/-! ### The engine and the step -/

/-- No command changes a build parameter, whether it completes or ends in an error. -/
theorem exec_cfg {i : Instr} {s t : State} (h : exec i s = .next t) : t.cfg = s.cfg := by
  rcases exec_cases h with ⟨-, rfl⟩ | ⟨m, d, -, ⟨-, rfl⟩ | ⟨-, rfl⟩⟩ |
    ⟨a, b, d, -, ⟨-, rfl⟩ | ⟨-, rfl⟩⟩ | ⟨a, d, -, rfl⟩ | ⟨a, -, rfl⟩ |
    ⟨-, ⟨-, rfl⟩ | ⟨-, -, rfl⟩ | ⟨-, -, rfl⟩⟩ | ⟨-, rfl⟩ <;> simp

/-- Settles O13: by cases on what a step can do, each case an operation that keeps `cfg`. -/
theorem noStepChangesTheBuild : Obligations.NoStepChangesTheBuild := by
  intro s t h
  rcases step_cases h with ⟨-, rfl⟩ | ⟨-, -, rfl⟩ | ⟨-, w, i, -, -, hexec⟩ | ⟨-, -, rfl⟩ |
    ⟨-, a, rest, l, -, -, rfl⟩ | ⟨-, addr, mask, val, rest, l, -, -, rfl⟩
  · exact State.applyReset_cfg s.takeTurn
  · exact s.takeTurn_cfg
  · exact (exec_cfg hexec).trans s.takeTurn_cfg
  · exact s.takeTurn_cfg
  · exact State.afterAccess_cfg { s.takeTurn with host := rest } a l
  · exact State.readLoc_cfg s.takeTurn l

end Sys2Proof.Machine
end

section
/-!
The invariant of the block at reset and through one step (O9). Each operation keeps it by
`State.Inv.same` or `State.Inv.finished`; what is proved here is what those two ask for: the
canonical memory, the bound on LEN, and that CMD stays.
-/

namespace Sys2Proof.Machine

/-! ### States that agree where the invariant looks -/

/-- The fields the invariant links. -/
def State.linked (s : State) :
    Config × Memory × Word × Bool × Bool × Bool × Bool × ErrKind × Word × Stage × Option Word ×
      PerBuf Word :=
  (s.cfg, s.mem, s.cmd, s.busy, s.done, s.err, s.reportValid, s.errcode, s.errinfo, s.stage, s.pend,
    s.len)

theorem State.Inv.congr_linked {s t : State} (h : s.Inv) (he : t.linked = s.linked) : t.Inv := by
  simp only [State.linked, Prod.mk.injEq] at he
  obtain ⟨hcfg, hmem, hcmd, hbusy, hdone, herr, hrep, hcode, hinfo, hstage, hpend, hlen⟩ := he
  exact h.same hcfg (hmem ▸ h.memory) hbusy hpend hstage hcmd (fun hb => hdone ▸ h.done_of_busy hb)
    herr (fun hr => hrep ▸ hr) hcode hinfo (by rw [hlen, hcfg]; exact h.lengths)

/-- While BUSY = 0 nothing is latched (45 R320, R321). -/
theorem State.Inv.pend_of_idle {s : State} (h : s.Inv) (hb : s.busy = false) : s.pend = none := by
  have := h.busyPend
  rw [hb] at this
  exact Option.isNone_iff_eq_none.1 (by simpa using this.symm)

/-- Every buffer's bits lie in its window (00 R11, 10 R45). -/
theorem State.Inv.len_le {s : State} (h : s.Inv) (b : BufId) : (s.len.get b).toNat ≤ 2 ^ 24 :=
  (h.lengths b).trans (Config.wf_bounds h.build).2.1

/-! ### Reset -/

theorem Memory.wf_nil : Memory.wf ⟨[], []⟩ := by decide

theorem State.inv_resetOf {c : Config} (hc : c.wf = true) : (State.resetOf c).Inv where
  build := hc
  memory := Memory.wf_nil
  busyPend := rfl
  idleStage _ := rfl
  pending := nofun
  readback := (by decide : legal 0x00000000 = true)
  noError _ := ⟨rfl, rfl⟩
  error := nofun
  lengths b := by simp [State.resetOf]

theorem State.Inv.applyReset {s : State} (h : s.Inv) : s.applyReset.Inv :=
  (State.inv_resetOf h.build).congr_linked rfl

/-! ### The engine -/

/-- The kinds of engine step, with the bound that every stored stream keeps (41 R211, 42 R230,
43 R252, 45 R323): an error; or completion after nothing, one stored stream, one validation, the
stages of PIPELINE, or CLEAR. -/
inductive EngineStep (i : Instr) (s : State) : State → Prop
  | aborted (e : ErrKind) : EngineStep i s (s.abort e i)
  | nothing : EngineStep i s s.complete
  | stored (d : BufId) (bs : BitString) (h : bs.length ≤ s.cfg.maxpix) :
      EngineStep i s (s.storeStream d bs).complete
  | validated (a : BufId) : EngineStep i s (s.validateBuffer a).complete
  | piped (n : Nat) (h : n ≤ s.cfg.maxpix) : EngineStep i s (s.runStages n).complete
  | cleared : EngineStep i s s.clearAll.complete

/-- Every command is one of these kinds. -/
theorem engineStep_of_exec {i : Instr} {s t : State} (hl : ∀ b, (s.len.get b).toNat ≤ s.cfg.maxpix)
    (h : exec i s = .next t) : EngineStep i s t := by
  rcases exec_cases h with ⟨-, rfl⟩ | ⟨m, d, -, ⟨-, rfl⟩ | ⟨hn, rfl⟩⟩ |
    ⟨a, b, d, -, ⟨-, rfl⟩ | ⟨-, rfl⟩⟩ | ⟨a, d, -, rfl⟩ | ⟨a, -, rfl⟩ |
    ⟨-, ⟨-, rfl⟩ | ⟨-, -, rfl⟩ | ⟨-, hn, rfl⟩⟩ | ⟨-, rfl⟩
  · exact .nothing
  · exact .aborted _
  · exact .stored d _ (by rwa [State.length_lsb])
  · exact .aborted _
  · have := hl a
    exact .stored d _ (by rw [length_xorBits, State.length_bits]; omega)
  · have := hl a
    have hv := length_vonNeumann_le (s.bits a)
    rw [State.length_bits] at hv
    exact .stored d _ (by omega)
  · exact .validated a
  · exact .aborted _
  · exact .aborted _
  · exact .piped _ hn
  · exact .cleared

theorem State.len_storeStream_le {s : State} {n : Nat} (hl : ∀ b, (s.len.get b).toNat ≤ n)
    (d : BufId) {bs : BitString} (hbs : bs.length ≤ n) (b : BufId) :
    ((s.storeStream d bs).len.get b).toNat ≤ n := by
  rw [State.storeStream_len]
  refine PerBuf.toNat_get_set_le hl ?_
  rw [BitVec.toNat_ofNat]
  exact (Nat.mod_le _ _).trans hbs

theorem State.wf_runStages {s : State} (hm : s.mem.wf) {n : Nat} (hn : n ≤ 2 ^ 24) :
    (s.runStages n).mem.wf := by
  rw [State.runStages_eq hm hn, State.publish_mem]
  exact State.wf_stageValidate (State.wf_fourStreams hm n)

theorem State.len_runStages_le {s : State} (hm : s.mem.wf) {n : Nat} (hn : n ≤ 2 ^ 24) (b : BufId) :
    ((s.runStages n).len.get b).toNat ≤ n := by
  rw [State.runStages_eq hm hn, State.publish_len, State.stageValidate_frame]
  exact State.len_fourStreams hm hn b

/-- Every command keeps the memory canonical (log 7). -/
theorem State.Inv.memory_of_engineStep {i : Instr} {s t : State} (hs : s.Inv)
    (h : EngineStep i s t) : t.mem.wf := by
  have hmax := (Config.wf_bounds hs.build).2.1
  cases h with
  | aborted e => rw [State.abort_mem]; exact hs.memory
  | nothing => rw [State.complete_mem]; exact hs.memory
  | stored d bs hbs => rw [State.complete_mem]; exact State.wf_storeStream hs.memory d bs
  | validated a => rw [State.complete_mem]; exact State.wf_validateBuffer hs.memory a
  | piped n hn => rw [State.complete_mem]; exact State.wf_runStages hs.memory (hn.trans hmax)
  | cleared => rw [State.complete_mem, State.clearAll_mem]; exact hs.memory

/-- No command leaves a LEN above P_MAXPIX (10 R45, 60 R375). -/
theorem State.Inv.lengths_of_engineStep {i : Instr} {s t : State} (hs : s.Inv)
    (h : EngineStep i s t) (b : BufId) : (t.len.get b).toNat ≤ s.cfg.maxpix := by
  have hmax := (Config.wf_bounds hs.build).2.1
  cases h with
  | aborted e => rw [State.abort_len]; exact hs.lengths b
  | nothing => rw [State.complete_len]; exact hs.lengths b
  | stored d bs hbs => rw [State.complete_len]; exact State.len_storeStream_le hs.lengths d hbs b
  | validated a => rw [State.complete_len, State.validateBuffer_len]; exact hs.lengths b
  | piped n hn =>
    rw [State.complete_len]
    exact (State.len_runStages_le hs.memory (hn.trans hmax) b).trans hn
  | cleared => simp

/-- No command writes the CMD read-back (10 R35). -/
theorem EngineStep.cmd_eq {i : Instr} {s t : State} (h : EngineStep i s t) : t.cmd = s.cmd := by
  cases h with
  | piped n hn => rw [State.complete_cmd, State.runStages_frame]
  | _ => simp

theorem State.Inv.exec {i : Instr} {s t : State} (hs : s.Inv) (h : exec i s = .next t) : t.Inv := by
  have hstep := engineStep_of_exec hs.lengths h
  have hcfg := exec_cfg h
  have hlen := fun b => hcfg ▸ hs.lengths_of_engineStep hstep b
  have hmem := hs.memory_of_engineStep hstep
  rcases exec_error_or_done h with ⟨e, he, rfl⟩ | ⟨herr, hcode, hinfo, -, hbusy, hstage, hpend⟩
  · exact hs.finished hcfg hmem rfl rfl rfl rfl (.inr ⟨rfl, he⟩) hlen
  · exact hs.finished hcfg hmem hbusy hpend hstage hstep.cmd_eq (.inl ⟨herr, hcode, hinfo⟩) hlen

/-! ### The host's writes -/

/-- An error raised while no command is latched (60 R377). -/
theorem State.Inv.raise {s : State} (h : s.Inv) (hb : s.busy = false) {e : ErrKind} (he : e ≠ .none)
    (info : Word) : (s.raise e info).Inv :=
  h.finished rfl h.memory hb (h.pend_of_idle hb) (h.idleStage hb) rfl (.inr ⟨rfl, he⟩) h.lengths

/-- The acceptance of a legal word sets up everything a latched word stands with (45 R320). -/
theorem State.Inv.accept {s : State} (h : s.Inv) (herr : s.err = false) {v : Word}
    (hv : legal v = true) : (s.accept v).Inv where
  build := h.build
  memory := h.memory
  busyPend := rfl
  idleStage := nofun
  pending w hw := by
    obtain rfl : v = w := Option.some.inj hw
    exact ⟨hv, rfl, rfl, herr, rfl, fun ho => if_pos ho⟩
  readback := hv
  noError := h.noError
  error := h.error
  lengths := h.lengths

theorem State.Inv.writeCmd {s : State} (h : s.Inv) (v : Word) : (s.writeCmd v).Inv := by
  unfold State.writeCmd
  split
  · exact h.congr_linked rfl
  · rename_i hfree
    simp only [Bool.or_eq_true, not_or, Bool.not_eq_true] at hfree
    split
    · rename_i hv
      exact h.accept hfree.2 hv
    · exact h.raise hfree.1 (by decide) v

/-- The return from an error leaves neither a code nor a causing word (10 R58, 60 R381). -/
theorem State.Inv.acknowledge {s : State} (h : s.Inv) : s.acknowledge.Inv where
  build := h.build
  memory := h.memory
  busyPend := h.busyPend
  idleStage := h.idleStage
  pending w hw := by
    obtain ⟨hlegal, hcmd, hdone, -, hstage, hrep⟩ := h.pending w hw
    exact ⟨hlegal, hcmd, hdone, rfl, hstage, hrep⟩
  readback := h.readback
  noError _ := ⟨rfl, rfl⟩
  error := nofun
  lengths := h.lengths

theorem State.Inv.writeStatus {s : State} (h : s.Inv) (v : Word) : (s.writeStatus v).Inv := by
  have clear {u : State} (hu : u.Inv) : State.Inv { u with
      done := u.done && !v.getLsbD 1
      cmdRej := u.cmdRej && !v.getLsbD 4
      accRej := u.accRej && !v.getLsbD 5 } :=
    hu.same rfl hu.memory rfl rfl rfl rfl (fun hb => by simp [hu.done_of_busy hb]) rfl id rfl rfl
      hu.lengths
  unfold State.writeStatus
  dsimp only
  split
  · exact clear h.acknowledge
  · exact clear h

/-- A change of memory or of LEN with the invalidation of a buffer (10 R54). -/
theorem State.Inv.update_invalidate {s : State} (h : s.Inv) (b : BufId) {m : Memory}
    {l : PerBuf Word} (hm : m.wf) (hl : ∀ b, (l.get b).toNat ≤ s.cfg.maxpix) :
    (State.invalidate { s with mem := m, len := l } b).Inv :=
  h.same rfl hm rfl rfl rfl rfl h.done_of_busy rfl nofun rfl rfl hl

theorem State.Inv.appendBit {s : State} (h : s.Inv) {b : BufId}
    (hb : (s.len.get b).toNat ≠ s.cfg.maxpix) (x : Bool) : (appendBit s b x).Inv := by
  have hmax := (Config.wf_bounds h.build).2.1
  have hlt : (s.len.get b).toNat < s.cfg.maxpix := lt_of_le_of_ne (h.lengths b) hb
  refine h.update_invalidate b (Memory.wf_writeBit h.memory _ _ _) fun c =>
    PerBuf.toNat_get_set_le h.lengths ?_
  rw [BitVec.toNat_add, show (1 : Word).toNat = 1 from rfl]
  omega

theorem State.Inv.writeCharIn {s : State} (h : s.Inv) (hb : s.busy = false) (v : Word) :
    (writeCharIn s v).Inv := by
  unfold Machine.writeCharIn
  dsimp only
  split
  · exact h.congr_linked rfl
  · split
    · exact h.raise hb (by decide) v
    · split
      · exact h.raise hb (by decide) v
      · rename_i hfull
        exact h.appendBit hfull _

theorem State.Inv.writeLen {s : State} (h : s.Inv) (b : BufId) (v : Word) :
    (s.writeLen b v).Inv := by
  unfold State.writeLen
  split
  · rename_i hv
    exact h.update_invalidate b h.memory fun c => PerBuf.toNat_get_set_le h.lengths hv
  · exact h.congr_linked rfl

theorem State.Inv.writeLoc {s : State} (h : s.Inv) (l : Loc) (v : Word) : (s.writeLoc l v).Inv := by
  rcases s.writeLoc_cases l v with ⟨-, -, e⟩ | ⟨e, -⟩ | ⟨-, e⟩ | ⟨-, e⟩ | ⟨-, e⟩ |
    ⟨hb, ⟨-, e⟩ | ⟨-, e⟩ | ⟨-, e⟩ | ⟨-, e⟩ | ⟨-, e⟩ | ⟨-, e⟩ | ⟨b, -, e⟩ | ⟨m, k, -, e⟩ |
      ⟨b, j, -, e⟩⟩ <;> rw [e]
  · exact h.congr_linked rfl
  · exact h
  · exact h.writeCmd v
  · exact h.writeStatus v
  · exact h.congr_linked rfl
  · exact h.congr_linked rfl
  · exact h.congr_linked rfl
  · exact h.congr_linked rfl
  · exact h.writeCharIn hb v
  · exact h.congr_linked rfl
  · exact h.congr_linked rfl
  · exact h.writeLen b v
  · exact h.same rfl (Memory.wf_writeWord h.memory _ v) rfl rfl rfl rfl h.done_of_busy rfl id rfl
      rfl h.lengths
  · exact h.update_invalidate b (Memory.wf_writeWord h.memory _ v) h.lengths

/-! ### The host's reads, the turns and the step -/

theorem State.Inv.readLoc {s : State} (h : s.Inv) (l : Loc) : (s.readLoc l).2.Inv := by
  rcases s.readLoc_state l with e | e | ⟨-, e⟩ | ⟨-, e⟩ <;> rw [e] <;> exact h.congr_linked rfl

theorem State.Inv.observe {p : Word × State} (h : p.2.Inv) : (State.observe p).Inv :=
  h.congr_linked rfl

theorem State.Inv.afterAccess {s : State} (h : s.Inv) (a : Access) (l : Loc) :
    (s.afterAccess a l).Inv := by
  unfold State.afterAccess
  split
  · exact h.writeLoc l a.wdata
  · exact (h.readLoc l).observe

theorem State.Inv.takeTurn {s : State} (h : s.Inv) : s.takeTurn.Inv := h.congr_linked rfl

/-- The host's remaining program is none of the invariant's fields. -/
theorem State.Inv.withHost {s : State} (h : s.Inv) (ops : List HostOp) :
    State.Inv { s with host := ops } := h.congr_linked rfl

/-- Settles O9: by cases on what a step can do; each operation keeps the invariant. -/
theorem everyStepKeepsTheInvariant : Obligations.EveryStepKeepsTheInvariant := by
  intro s t hs h
  have hturn := hs.takeTurn
  rcases step_cases h with ⟨-, rfl⟩ | ⟨-, -, rfl⟩ | ⟨-, w, i, -, -, hexec⟩ | ⟨-, -, rfl⟩ |
    ⟨-, a, rest, l, -, -, rfl⟩ | ⟨-, addr, mask, val, rest, l, -, -, rfl⟩
  · exact hturn.applyReset
  · exact hturn
  · exact hturn.exec hexec
  · exact hturn
  · exact (hturn.withHost rest).afterAccess a l
  · exact (hturn.readLoc l).observe.withHost _

end Sys2Proof.Machine
end

section
/-!
A valid result describes its buffer's current contents (10 R54): kept by every step (O10). Either a
change reaches no buffer and no result, or it reaches one buffer and leaves that buffer invalid, or
a validation has just described it.
-/

namespace Sys2Proof.Machine

/-! ### States that agree where a description looks -/

/-- The fields a description of results reads. -/
def State.results (s : State) :
    Memory × Nat × PerBuf Word × PerBuf Verdict × PerBuf Word × PerBuf Word × PerBuf Word :=
  (s.mem, s.memDraw, s.len, s.vstat, s.vn, s.vnwin, s.vnfail)

@[simp] theorem State.complete_results (s : State) : s.complete.results = s.results := rfl
@[simp] theorem State.abort_results (s : State) (e : ErrKind) (i : Instr) :
    (s.abort e i).results = s.results := rfl
@[simp] theorem State.publish_results (s : State) : s.publish.results = s.results := rfl

theorem State.Described.congr_results {s t : State} {b : BufId} (h : s.Described b)
    (he : t.results = s.results) : t.Described b := by
  simp only [State.results, Prod.mk.injEq] at he
  obtain ⟨hmem, hdraw, hlen, hvstat, hvn, hvnwin, hvnfail⟩ := he
  refine h.congr (by rw [hlen]) ?_ (by rw [hvstat]) (by rw [hvn]) (by rw [hvnwin]) (by rw [hvnfail])
    fun w i _ _ => ?_
  · exact State.bits_congr (by rw [hlen]) fun i _ => by unfold State.bufBit; rw [hmem, hdraw]
  · unfold State.readWord
    rw [hmem, hdraw]

theorem State.ResultsDescribed.congr_results {s t : State} (h : s.ResultsDescribed)
    (he : t.results = s.results) : t.ResultsDescribed := fun b hb => by
  have hvstat : t.vstat = s.vstat := congrArg (fun r => r.2.2.2.1) he
  exact (h b (hvstat ▸ hb)).congr_results he

/-- With no valid result there is nothing to describe. -/
theorem State.ResultsDescribed.of_invalid {s : State} (h : ∀ b, (s.vstat.get b).valid = false) :
    s.ResultsDescribed := fun b hb => absurd hb (by simp [h b])

/-- A change confined to one buffer, which is left invalid, keeps the other descriptions
(10 R54). -/
theorem State.ResultsDescribed.change_buffer {s t : State} (hs : s.ResultsDescribed)
    (hn : ∀ b, (s.len.get b).toNat ≤ 2 ^ 24) {d : BufId} (hd : (t.vstat.get d).valid = false)
    (hlen : ∀ b, b ≠ d → t.len.get b = s.len.get b)
    (hvstat : ∀ b, b ≠ d → t.vstat.get b = s.vstat.get b) (hvn : t.vn = s.vn)
    (hvnwin : t.vnwin = s.vnwin) (hvnfail : t.vnfail = s.vnfail)
    (hbytes : ∀ a, a < bufBase d ∨ bufBase d + 0x01000000 ≤ a → t.readByte a = s.readByte a) :
    t.ResultsDescribed := by
  intro b hb
  have hbd : b ≠ d := fun e => by rw [e, hd] at hb; cases hb
  refine (hs b (hvstat b hbd ▸ hb)).congr_bytes (hn b) (fun a ha => hbytes a ?_) (hlen b hbd)
    (hvstat b hbd) (by rw [hvn]) (by rw [hvnwin]) (by rw [hvnfail])
  have hd := bufBase_spread d d
  rcases (bufBase_spread b d).2.2 with h | h | h
  · exact absurd h hbd
  · omega
  · omega

/-! ### The engine -/

theorem State.ResultsDescribed.storeStream {s : State} (h : s.ResultsDescribed)
    (hn : ∀ b, (s.len.get b).toNat ≤ 2 ^ 24) (d : BufId) {bs : BitString}
    (hbs : bs.length ≤ 2 ^ 24) : (s.storeStream d bs).ResultsDescribed := by
  refine h.change_buffer hn (d := d) (by simp) (fun b hb => ?_) (fun b hb => ?_) rfl rfl rfl
    fun a ha => State.readByte_storeStream_ne s d bs (by omega)
  · rw [State.storeStream_len, PerBuf.get_set_ne _ _ hb]
  · rw [State.storeStream_vstat, PerBuf.get_set_ne _ _ hb]

theorem State.ResultsDescribed.validateBuffer {s : State} (h : s.ResultsDescribed) (hm : s.mem.wf)
    (hn : ∀ b, (s.len.get b).toNat ≤ 2 ^ 24) (a : BufId) :
    (s.validateBuffer a).ResultsDescribed := by
  intro b hb
  by_cases hba : b = a
  · subst hba
    exact State.described_validateBuffer hm b (hn b)
  · have hvalid := (State.validateBuffer_results_ne s hba).1
    exact (h b (hvalid ▸ hb)).validateBuffer_ne hba (hn a) (hn b)

/-- PIPELINE ends with all four buffers validated (45 R323). -/
theorem State.resultsDescribed_runStages {s : State} (hm : s.mem.wf) {n : Nat} (hn : n ≤ 2 ^ 24) :
    (s.runStages n).ResultsDescribed := fun b _ => by
  rw [State.runStages_eq hm hn]
  exact (State.described_stageValidate (State.wf_fourStreams hm n)
    (fun c => (State.len_fourStreams hm hn c).trans hn) b).congr_results (State.publish_results _)

theorem State.ResultsDescribed.exec {i : Instr} {s t : State} (hd : s.ResultsDescribed)
    (hs : s.Inv) (h : exec i s = .next t) : t.ResultsDescribed := by
  have hmax := (Config.wf_bounds hs.build).2.1
  cases engineStep_of_exec hs.lengths h with
  | aborted e => exact hd.congr_results (s.abort_results e i)
  | nothing => exact hd.congr_results s.complete_results
  | stored d bs hbs =>
    exact (hd.storeStream hs.len_le d (hbs.trans hmax)).congr_results (State.complete_results _)
  | validated a =>
    exact (hd.validateBuffer hs.memory hs.len_le a).congr_results (State.complete_results _)
  | piped n hn =>
    exact (State.resultsDescribed_runStages hs.memory (hn.trans hmax)).congr_results
      (State.complete_results _)
  | cleared => exact .of_invalid fun b => by simp

/-! ### The host's writes -/

/-- The locations whose memory words exist in the build (20 R101, R102). -/
def Loc.inRange (c : Config) : Loc → Prop
  | .pixel _ k => k < c.maxpix
  | .bufWord _ j => j < c.maxpix / 32
  | .record _ w i => w < c.maxpix / 20000 ∧ i < 32
  | .csr _ | .reserved => True

/-- An address of the map names a word of the build. -/
theorem Loc.inRange_of_target {c : Config} (hc : c.wf = true) {w : Width} {addr : Word} {l : Loc}
    (h : target c w addr = .ok l) : l.inRange c := by
  obtain ⟨-, h4, hloc⟩ := target_eq_ok.1 h
  rcases locate_cases hloc h4 (Config.wf_bounds hc).2.2 with ⟨-, rfl⟩ | ⟨m, k, hk, -, rfl⟩ |
    ⟨b, j, hj, -, rfl⟩ | ⟨b, w, i, hw, hi, -, rfl⟩
  · unfold csrLoc
    split <;> trivial
  · exact hk
  · exact hj
  · exact ⟨hw, hi⟩

theorem State.ResultsDescribed.writeCmd {s : State} (h : s.ResultsDescribed) (v : Word) :
    (s.writeCmd v).ResultsDescribed := by
  unfold State.writeCmd
  split
  · exact h.congr_results rfl
  · split <;> exact h.congr_results rfl

theorem State.ResultsDescribed.writeStatus {s : State} (h : s.ResultsDescribed) (v : Word) :
    (s.writeStatus v).ResultsDescribed := by
  unfold State.writeStatus
  dsimp only
  split <;> exact h.congr_results rfl

/-- An appended bit lies in its buffer, which it invalidates (10 R54 (c), 40 R180). -/
theorem State.ResultsDescribed.appendBit {s : State} (h : s.ResultsDescribed)
    (hn : ∀ b, (s.len.get b).toNat ≤ 2 ^ 24) {b : BufId} (hb : (s.len.get b).toNat < 2 ^ 24)
    (x : Bool) : (appendBit s b x).ResultsDescribed := by
  refine h.change_buffer hn (d := b) (by simp [Machine.appendBit])
    (fun c hc => PerBuf.get_set_ne _ _ hc) (fun c hc => PerBuf.get_set_ne _ _ hc) rfl rfl rfl
    fun a ha => Memory.readByte_eq_of_bit fun k _ => Memory.bit_writeBit_other _ _ _ _ _ ?_
  have := streamByteAddr_window b hb
  omega

theorem State.ResultsDescribed.writeCharIn {s : State} (h : s.ResultsDescribed) (hs : s.Inv)
    (v : Word) : (writeCharIn s v).ResultsDescribed := by
  unfold Machine.writeCharIn
  dsimp only
  split
  · exact h.congr_results rfl
  · split
    · exact h.congr_results rfl
    · split
      · exact h.congr_results rfl
      · rename_i hfull
        have hlt := lt_of_le_of_ne (hs.lengths s.cinBuf) hfull
        exact h.appendBit hs.len_le (hlt.trans_le (Config.wf_bounds hs.build).2.1) _

theorem State.ResultsDescribed.writeLen {s : State} (h : s.ResultsDescribed)
    (hn : ∀ b, (s.len.get b).toNat ≤ 2 ^ 24) (b : BufId) (v : Word) :
    (s.writeLen b v).ResultsDescribed := by
  unfold State.writeLen
  split
  · exact h.change_buffer hn (d := b) (by simp) (fun c hc => PerBuf.get_set_ne _ _ hc)
      (fun c hc => PerBuf.get_set_ne _ _ hc) rfl rfl rfl fun _ _ => rfl
  · exact h.congr_results rfl

/-- A pixel word lies below every buffer and record: pixels carry no result (10 R54). -/
theorem State.ResultsDescribed.writePixel {s : State} (h : s.ResultsDescribed)
    (hn : ∀ b, (s.len.get b).toNat ≤ 2 ^ 24) (m : Image) {k : Nat} (hk : k < 2 ^ 24) (v : Word) :
    State.ResultsDescribed { s with mem := s.mem.writeWord (pixelAddr m k) v } := by
  refine fun b hb => (h b hb).congr_bytes (hn b)
    (fun a ha => Memory.readByte_writeWord_ne _ _ _ (.inr ?_)) rfl rfl rfl rfl rfl
  have hp := pixBase_spread m
  have hb := bufBase_spread b b
  unfold pixelAddr
  omega

theorem State.ResultsDescribed.writeBufWord {s : State} (h : s.ResultsDescribed)
    (hn : ∀ b, (s.len.get b).toNat ≤ 2 ^ 24) (b : BufId) {j : Nat} (hj : j < 2 ^ 19) (v : Word) :
    (State.invalidate { s with mem := s.mem.writeWord (bufWordAddr b j) v } b).ResultsDescribed := by
  refine h.change_buffer hn (d := b) (by simp) (fun c _ => rfl)
    (fun c hc => PerBuf.get_set_ne _ _ hc) rfl rfl rfl
    fun a ha => Memory.readByte_writeWord_ne _ _ _ ?_
  unfold bufWordAddr
  omega

theorem State.ResultsDescribed.writeLoc {s : State} (h : s.ResultsDescribed) (hs : s.Inv) {l : Loc}
    (hl : l.inRange s.cfg) (v : Word) : (s.writeLoc l v).ResultsDescribed := by
  have hmax := (Config.wf_bounds hs.build).2.1
  rcases s.writeLoc_cases l v with ⟨-, -, e⟩ | ⟨e, -⟩ | ⟨-, e⟩ | ⟨-, e⟩ | ⟨-, e⟩ |
    ⟨hb, ⟨-, e⟩ | ⟨-, e⟩ | ⟨-, e⟩ | ⟨-, e⟩ | ⟨-, e⟩ | ⟨-, e⟩ | ⟨b, -, e⟩ | ⟨m, k, rfl, e⟩ |
      ⟨b, j, rfl, e⟩⟩ <;> rw [e]
  · exact h.congr_results rfl
  · exact h
  · exact h.writeCmd v
  · exact h.writeStatus v
  · exact h.congr_results rfl
  · exact h.congr_results rfl
  · exact h.congr_results rfl
  · exact h.congr_results rfl
  · exact h.writeCharIn hs v
  · exact h.congr_results rfl
  · exact h.congr_results rfl
  · exact h.writeLen hs.len_le b v
  · exact h.writePixel hs.len_le m (lt_of_lt_of_le hl hmax) v
  · refine h.writeBufWord hs.len_le b ?_ v
    have : j < s.cfg.maxpix / 32 := hl
    omega

/-! ### The host's reads and the step -/

theorem State.ResultsDescribed.readLoc {s : State} (h : s.ResultsDescribed) (l : Loc) :
    (s.readLoc l).2.ResultsDescribed := by
  rcases s.readLoc_state l with e | e | ⟨-, e⟩ | ⟨-, e⟩ <;> rw [e] <;> exact h.congr_results rfl

theorem State.ResultsDescribed.afterAccess {s : State} (h : s.ResultsDescribed) (hs : s.Inv)
    (a : Access) {l : Loc} (hl : l.inRange s.cfg) : (s.afterAccess a l).ResultsDescribed := by
  unfold State.afterAccess
  split
  · exact h.writeLoc hs hl a.wdata
  · exact (h.readLoc l).congr_results rfl

/-- Settles O10: by cases on what a step can do; each operation keeps the descriptions. -/
theorem everyStepKeepsValidResultsDescribed : Obligations.EveryStepKeepsValidResultsDescribed := by
  intro s t hs hd h
  have hturn : s.takeTurn.ResultsDescribed := hd.congr_results rfl
  rcases step_cases h with ⟨-, rfl⟩ | ⟨-, -, rfl⟩ | ⟨-, w, i, -, -, hexec⟩ | ⟨-, -, rfl⟩ |
    ⟨-, a, rest, l, -, hl, rfl⟩ | ⟨-, addr, mask, val, rest, l, -, -, rfl⟩
  · exact .of_invalid fun b => by simp [State.applyReset, State.resetOf]
  · exact hturn
  · exact hturn.exec hs.takeTurn hexec
  · exact hturn
  · have hhost : State.ResultsDescribed { s.takeTurn with host := rest } := hturn.congr_results rfl
    exact hhost.afterAccess (hs.takeTurn.withHost rest) a (Loc.inRange_of_target hs.build hl)
  · exact (hturn.readLoc l).congr_results rfl

end Sys2Proof.Machine
end

section
/-!
Reset (10 R57, 70 R400): the invariants hold at reset (O4), and the reset input brings every
register to its reset value (O5).
-/

namespace Sys2Proof.Machine

/-- Settles O4: after reset no result and no report is valid. -/
theorem resetStateMeetsTheInvariants : Obligations.ResetStateMeetsTheInvariants :=
  ⟨fun c hc => ⟨State.inv_resetOf hc, .of_invalid fun b => by simp [State.resetOf], nofun⟩,
    State.inv_resetOf (by decide)⟩

theorem step_of_reset {s : State} (h : s.nextTurn = .reset) :
    step s = .next s.takeTurn.applyReset := by
  rw [step, h]

/-- After the reset input STATUS, IOSEL and VSTAT read 0, as in the reset state of the reference
build: no word of theirs depends on the build (10 R36, R42, R46, R57). -/
theorem State.applyReset_statusWord (s : State) : s.applyReset.statusWord = 0 :=
  (by decide : State.reset.statusWord = 0)

theorem State.applyReset_ioselWord (s : State) : s.applyReset.ioselWord = 0 :=
  (by decide : State.reset.ioselWord = 0)

theorem State.applyReset_results (s : State) (b : BufId) :
    s.applyReset.len.get b = 0 ∧ (s.applyReset.vstat.get b).word = 0 ∧ s.applyReset.vn.get b = 0 ∧
      s.applyReset.vnwin.get b = 0 ∧ s.applyReset.vnfail.get b = 0 := by
  have hvstat : Verdict.word ⟨false, false, false⟩ = 0 := by decide
  cases b <;> exact ⟨rfl, hvstat, rfl, rfl, rfl⟩

/-- Settles O5: the reset input's state, register by register. -/
theorem resetInputRestoresResetValues : Obligations.ResetInputRestoresResetValues := fun s h =>
  ⟨s.takeTurn.applyReset, step_of_reset h, rfl, rfl, rfl, rfl, rfl, rfl, rfl, rfl, rfl,
    s.takeTurn.applyReset_statusWord, rfl, rfl, rfl, rfl, rfl, rfl, rfl,
    s.takeTurn.applyReset_ioselWord, rfl, rfl, rfl, rfl, s.takeTurn.applyReset_results, rfl⟩

end Sys2Proof.Machine
end

section
/-!
The stage a STATUS read shows (O37). The one fact it turns on: the only command word with PIPELINE's
opcode is PIPELINE's own (30 R154), so a latched word's OP field tells which command it is.
-/

namespace Sys2Proof

/-- The instruction of decoded fields assembles to these fields, opcode by opcode (30 R153,
R156). -/
theorem Command.assemble_of_decode {c : Command} {i : Instr} (h : c.decode = .ok i) :
    assemble c.op c.ra c.rb c.rd = encode i := by
  have op_eq {n : Nat} (hop : c.op.toNat = n) (hn : n < 2 ^ 8) : c.op = BitVec.ofNat 8 n :=
    BitVec.eq_of_toNat_eq (by rw [hop, BitVec.toNat_ofNat, Nat.mod_eq_of_lt hn])
  unfold Command.decode at h
  split at h
  case h_1 hop | h_6 hop | h_7 hop =>
    split at h
    · rename_i hf
      cases h
      rw [op_eq hop (by decide), hf.1, hf.2.1, hf.2.2]; rfl
    · cases h
  case h_2 hop =>
    split at h
    · rename_i hf
      cases h
      rw [op_eq hop (by decide), hf.2, encode, Image.field_ofField hf.1, BufId.field_ofField]; rfl
    · cases h
  case h_3 hop =>
    cases h
    rw [op_eq hop (by decide), encode]; simp
  case h_4 hop =>
    split at h
    · rename_i hf
      cases h
      rw [op_eq hop (by decide), hf, encode]; simp
    · cases h
  case h_5 hop =>
    split at h
    · rename_i hf
      cases h
      rw [op_eq hop (by decide), hf.1, hf.2, encode]; simp
    · cases h
  case h_8 => cases h

/-- A word that decodes is the command word of what it decodes to (30 R154, R156). -/
theorem encode_of_decode {w : Word} {i : Instr} (h : decode w = .ok i) : encode i = w := by
  unfold decode at h
  dsimp only at h
  split at h
  · rename_i hrsv
    exact (Command.assemble_of_decode h).symm.trans
      (assemble_ofWord (w := w) hrsv.1 hrsv.2.1 hrsv.2.2)
  · cases h

theorem exists_decode_of_legal {w : Word} (h : legal w = true) : ∃ i, decode w = .ok i := by
  unfold legal at h
  split at h
  · exact ⟨_, by assumption⟩
  · cases h

namespace Machine

/-- The legal word with PIPELINE's opcode is PIPELINE's (30 R153, R154). -/
theorem opField_ne_pipeline {w : Word} (hw : legal w = true) (hne : w ≠ 0x00000005) :
    opField w ≠ 0x05 := by
  obtain ⟨i, hi⟩ := exists_decode_of_legal hw
  have henc := encode_of_decode hi
  rw [opField_of_decode hi]
  cases i with
  | pipeline => exact absurd (henc.symm.trans (by decide)) hne
  | _ => rw [Instr.opcode]; decide

/-- The stage shown while a word is latched: its stage at acceptance, drawn for PIPELINE
(10 R38). -/
theorem State.Inv.shownStage_of_pend {s : State} (h : s.Inv) {w : Word} (hw : s.pend = some w) :
    s.shownStage = (acceptedStage w).shownBusy s.draws := by
  obtain ⟨-, -, -, -, hstage, -⟩ := h.pending w hw
  have hbusy : s.busy = true := by rw [h.busyPend, hw]; rfl
  rw [State.shownStage, if_pos hbusy, hstage]

/-- Settles O37: the stage at acceptance is SINGLE unless the word is PIPELINE's. -/
theorem stageReadIsAStageOfTheRunningCommand :
    Obligations.StageReadIsAStageOfTheRunningCommand := by
  intro s hs
  refine ⟨fun hidle => ?_, fun w hw hne => ?_, fun hw => ?_⟩
  · have hstage := hs.idleStage hidle
    simp [State.shownStage, hidle, hstage, Stage.code]
  · have hlegal := (hs.pending w hw).1
    rw [hs.shownStage_of_pend hw, acceptedStage, if_neg (opField_ne_pipeline hlegal hne)]
    rfl
  · rw [hs.shownStage_of_pend hw, show acceptedStage 0x00000005 = .check by decide]
    have hdraw := (Config.busyStage s.draws).isLt
    simp only [Stage.shownBusy, BitVec.toNat_ofNat]
    omega

end Machine
end Sys2Proof
end

section
/-!
The registers through the host port (10 R31 to R48, R58): O35, O36, O43 to O48. First what an access
to a CSR offset is, once for reads and once for writes; then each statement reads off the register's
rule.
-/

namespace Sys2Proof.Machine

/-! ### Accesses to registers -/

/-- The CSR map in every build (10 R30, 20 R101). -/
theorem target_of_mem_csrMap (c : Config) {off : Nat} {r : Csr} (h : (off, r) ∈ csrMap) :
    target c .word (BitVec.ofNat 32 off) = .ok (.csr r) := by
  have hmap : ∀ p ∈ csrMap, p.1 < 0x100 ∧ p.1 % 4 = 0 ∧ csrLoc p.1 = .csr p.2 := by decide
  obtain ⟨hlt, h4, hloc⟩ := hmap _ h
  have hoff : (BitVec.ofNat 32 off).toNat = off := by rw [BitVec.toNat_ofNat]; omega
  rw [target_csr c (by rwa [hoff]) (by rwa [hoff]), hoff, hloc]

/-- A write that reaches a location. -/
theorem State.access_write {s : State} {addr : Word} {l : Loc} (h : target s.cfg .word addr = .ok l)
    (v : Word) : s.access ⟨true, .word, addr, v⟩ = .next (s.writeLoc l v) :=
  State.access_ok (a := ⟨true, .word, addr, v⟩) h

/-- A read that reaches a location. -/
theorem State.access_read {s : State} {addr : Word} {l : Loc} (h : target s.cfg .word addr = .ok l)
    (v : Word) : s.access ⟨false, .word, addr, v⟩ = .next (State.observe (s.readLoc l)) :=
  State.access_ok (a := ⟨false, .word, addr, v⟩) h

/-- The block answers by the ordinary rules while it is idle, and for what the host owns (20 R111,
R112). -/
theorem State.writeLoc_own {s : State} {l : Loc} (h : s.busy = false ∨ l.engineOwned = false)
    (v : Word) : s.writeLoc l v = s.writeOwn v l := by
  rcases h with h | h <;> simp [State.writeLoc, h]

theorem State.readLoc_own {s : State} {l : Loc} (h : s.busy = false ∨ l.engineOwned = false) :
    s.readLoc l = s.readOwn l := by
  rcases h with h | h <;> simp [State.readLoc, h]

/-- A write to a register by its offset. -/
theorem State.access_write_csr {s : State} {off : Nat} (r : Csr) (hr : (off, r) ∈ csrMap)
    (h : s.busy = false ∨ (Loc.csr r).engineOwned = false) (v : Word) :
    s.access ⟨true, .word, BitVec.ofNat 32 off, v⟩ = .next (s.writeCsr v r) := by
  rw [State.access_write (target_of_mem_csrMap _ hr), State.writeLoc_own h]
  rfl

/-- A read of a register by its offset. -/
theorem State.access_read_csr {s : State} {off : Nat} (r : Csr) (hr : (off, r) ∈ csrMap)
    (h : s.busy = false ∨ (Loc.csr r).engineOwned = false) (v : Word) :
    s.access ⟨false, .word, BitVec.ofNat 32 off, v⟩ = .next (State.observe (s.readCsr r)) := by
  rw [State.access_read (target_of_mem_csrMap _ hr), State.readLoc_own h]
  rfl

/-! ### STATUS -/

/-- A STATUS write, the six fields it can clear written out (10 R37). -/
theorem State.writeStatus_eq {s : State} (v : Word) : s.writeStatus v = { s with
    done := s.done && !v.getLsbD 1
    err := s.err && !v.getLsbD 2
    errcode := if v.getLsbD 2 then .none else s.errcode
    errinfo := if v.getLsbD 2 then 0 else s.errinfo
    cmdRej := s.cmdRej && !v.getLsbD 4
    accRej := s.accRej && !v.getLsbD 5 } := by
  unfold State.writeStatus
  cases hv : v.getLsbD 2 <;> simp [State.acknowledge]

/-- Settles O35: STATUS is the host's at any time, and its write goes field by field. -/
theorem statusWriteClearsFieldByField : Obligations.StatusWriteClearsFieldByField := by
  intro s v
  rw [← State.writeStatus_eq]
  exact State.access_write_csr (off := 0x014) .status (by decide) (.inr rfl) v

/-! The words of the flag registers, field by field (10 R33, R36, R39, R42, R46). -/

theorem State.statusWord_flags (s : State) :
    s.statusWord.getLsbD 0 = s.busy ∧ s.statusWord.getLsbD 1 = s.done ∧
    s.statusWord.getLsbD 2 = s.err ∧ s.statusWord.getLsbD 3 = s.reportValid ∧
    s.statusWord.getLsbD 4 = s.cmdRej ∧ s.statusWord.getLsbD 5 = s.accRej ∧
    s.statusWord.getLsbD 6 = false ∧ s.statusWord.getLsbD 7 = false := by
  simp only [State.statusWord, BitVec.getLsbD_append]
  simp

theorem State.statusWord_errcode (s : State) : s.statusWord.extractLsb' 8 4 = s.errcode.code := by
  apply BitVec.eq_of_getLsbD_eq
  intro i hi
  simp only [State.statusWord, BitVec.getLsbD_append, BitVec.getLsbD_extractLsb']
  interval_cases i <;> simp

theorem State.statusWord_stage (s : State) : s.statusWord.extractLsb' 12 4 = s.shownStage := by
  apply BitVec.eq_of_getLsbD_eq
  intro i hi
  simp only [State.statusWord, BitVec.getLsbD_append, BitVec.getLsbD_extractLsb']
  interval_cases i <;> simp

theorem State.statusWord_high (s : State) : s.statusWord.extractLsb' 16 16 = 0 := by
  apply BitVec.eq_of_getLsbD_eq
  intro i hi
  simp only [State.statusWord, BitVec.getLsbD_append, BitVec.getLsbD_extractLsb']
  interval_cases i <;> simp

theorem Verdict.word_bits (v : Verdict) :
    v.word.getLsbD 0 = v.valid ∧ v.word.getLsbD 1 = v.passed ∧ v.word.getLsbD 2 = v.insuf ∧
      ∀ j, 3 ≤ j → v.word.getLsbD j = false := by
  simp only [Verdict.word, BitVec.getLsbD_append]
  refine ⟨by simp, by simp, by simp, fun j hj => ?_⟩
  rw [if_neg (by omega), if_neg (by omega), if_neg (by omega)]
  simp

theorem State.ierWord_eq_and {s : State} {v : Word} (hdone : s.doneIe = v.getLsbD 0)
    (herr : s.errIe = v.getLsbD 1) : s.ierWord = v &&& 0x00000003 := by
  apply BitVec.eq_of_getLsbD_eq
  intro i hi
  simp only [State.ierWord, BitVec.getLsbD_append, hdone, herr, BitVec.getLsbD_and]
  interval_cases i <;> simp

theorem State.ioselWord_eq_and {s : State} {v : Word} (hcin : s.cinBuf.field = v.extractLsb' 0 2)
    (hout : s.outBuf.field = v.extractLsb' 8 2) : s.ioselWord = v &&& 0x00000303 := by
  apply BitVec.eq_of_getLsbD_eq
  intro i hi
  simp only [State.ioselWord, BitVec.getLsbD_append, hcin, hout, BitVec.getLsbD_and,
    BitVec.getLsbD_extractLsb']
  interval_cases i <;> simp

theorem capWord_eq (c : Config) : capWord c = BitVec.ofNat 32
    (channelCode c.channel + 256 * if c.partialNibble = .padRight then 1 else 0) := by
  unfold capWord
  cases c.channel <;> cases c.partialNibble <;> decide

/-- Settles O36: the fields of the STATUS word, and the code of each error kind. -/
theorem statusReadShowsTheFields : Obligations.StatusReadShowsTheFields := by
  intro s
  obtain ⟨hbusy, hdone, herr, hreport, hcmdRej, haccRej, h6, h7⟩ := s.statusWord_flags
  exact ⟨hbusy, hdone, herr, hreport, hcmdRej, haccRej, h6, h7,
    s.statusWord_errcode.trans (by cases s.errcode <;> rfl), s.statusWord_stage, s.statusWord_high⟩

/-! ### The other registers -/

/-- Settles O43: each of the five registers is the host's at any time, and no write reaches it. -/
theorem identificationRegistersAreConstant : Obligations.IdentificationRegistersAreConstant := by
  intro s v nibbleBit
  have hcap := State.access_read_csr (s := s) (off := 0x008) .cap (by decide) (.inr rfl) v
  rw [State.readCsr, capWord_eq] at hcap
  exact ⟨State.access_read_csr (off := 0x000) .id (by decide) (.inr rfl) v,
    State.access_read_csr (off := 0x004) .version (by decide) (.inr rfl) v, hcap,
    State.access_read_csr (off := 0x00C) .maxpix (by decide) (.inr rfl) v,
    State.access_read_csr (off := 0x01C) .maxwin (by decide) (.inr rfl) v,
    State.access_write_csr (off := 0x000) .id (by decide) (.inr rfl) v,
    State.access_write_csr (off := 0x004) .version (by decide) (.inr rfl) v,
    State.access_write_csr (off := 0x008) .cap (by decide) (.inr rfl) v,
    State.access_write_csr (off := 0x00C) .maxpix (by decide) (.inr rfl) v,
    State.access_write_csr (off := 0x01C) .maxwin (by decide) (.inr rfl) v, s.applyReset_cfg⟩

/-- A buffer's registers in the CSR map (10 R30). -/
theorem len_mem_csrMap (b : BufId) : (0x040 + 4 * bufIndex b, Csr.len b) ∈ csrMap := by
  cases b <;> decide

theorem results_mem_csrMap (b : BufId) :
    (0x080 + 16 * bufIndex b, Csr.vstat b) ∈ csrMap ∧ (0x084 + 16 * bufIndex b, Csr.vn b) ∈ csrMap ∧
    (0x088 + 16 * bufIndex b, Csr.vnwin b) ∈ csrMap ∧
    (0x08C + 16 * bufIndex b, Csr.vnfail b) ∈ csrMap := by
  cases b <;> decide

/-- Settles O44: each read is the register's field; only STATUS while busy moves the draw. -/
theorem registerReadsReturnTheirFields : Obligations.RegisterReadsReturnTheirFields := by
  intro s v reads
  refine ⟨State.access_read_csr .cmd (by decide) (.inr rfl) v,
    State.access_read_csr .ier (by decide) (.inr rfl) v,
    State.access_read_csr .errinfo (by decide) (.inr rfl) v, fun hbusy => ?_, fun hidle => ?_,
    fun b => (s.vstat.get b).word_bits⟩
  · have h := State.access_read_csr (s := s) (off := 0x014) .status (by decide) (.inr rfl) v
    rw [State.readCsr, if_pos hbusy] at h
    exact ⟨s.draws + 1, h⟩
  · have hstatus : reads 0x014 s.statusWord := by
      have h := State.access_read_csr (s := s) (off := 0x014) .status (by decide) (.inr rfl) v
      rwa [State.readCsr, if_neg (by simp [hidle])] at h
    refine ⟨hstatus, State.access_read_csr .dimA (by decide) (.inl hidle) v,
      State.access_read_csr .dimB (by decide) (.inl hidle) v,
      State.access_read_csr .iosel (by decide) (.inl hidle) v,
      State.access_read_csr .charIn (by decide) (.inl hidle) v,
      State.access_read_csr .hexpos (by decide) (.inl hidle) v,
      State.access_read_csr .binpos (by decide) (.inl hidle) v, fun b => ?_⟩
    obtain ⟨hvstat, hvn, hvnwin, hvnfail⟩ := results_mem_csrMap b
    exact ⟨State.access_read_csr (.len b) (len_mem_csrMap b) (.inl hidle) v,
      State.access_read_csr (.vstat b) hvstat (.inl hidle) v,
      State.access_read_csr (.vn b) hvn (.inl hidle) v,
      State.access_read_csr (.vnwin b) hvnwin (.inl hidle) v,
      State.access_read_csr (.vnfail b) hvnfail (.inl hidle) v⟩

/-- The result registers take no write (10 R46, R47). -/
theorem State.writeResult_ignored {s : State} (hidle : s.busy = false) (b : BufId) {r : Nat}
    (hr : r < 4) (v : Word) :
    s.access ⟨true, .word, BitVec.ofNat 32 (0x080 + 16 * bufIndex b + 4 * r), v⟩ = .next s := by
  have hmap : ∀ r, r < 4 → ∃ q ∈ [Csr.vstat b, .vn b, .vnwin b, .vnfail b],
      (0x080 + 16 * bufIndex b + 4 * r, q) ∈ csrMap := by cases b <;> decide
  obtain ⟨q, hq, hmem⟩ := hmap r hr
  rw [State.access_write_csr q hmem (.inl hidle) v]
  simp only [List.mem_cons, List.not_mem_nil, or_false] at hq
  rcases hq with rfl | rfl | rfl | rfl <;> rfl

/-- The reserved CSR offsets (10 R48). -/
theorem target_reserved (c : Config) {off : Nat}
    (h : 0x054 ≤ off ∧ off < 0x080 ∨ 0x0C0 ≤ off ∧ off < 0x100) (h4 : off % 4 = 0) :
    target c .word (BitVec.ofNat 32 off) = .ok .reserved := by
  have hmap : ∀ k, k < 64 → (0x15 ≤ k ∧ k < 0x20 ∨ 0x30 ≤ k) → csrLoc (4 * k) = .reserved := by
    decide
  have hoff : (BitVec.ofNat 32 off).toNat = off := by rw [BitVec.toNat_ofNat]; omega
  rw [target_csr c (by omega) (by omega), hoff, show off = 4 * (off / 4) by omega,
    hmap _ (by omega) (by omega)]

/-- Settles O45: each of these writes reaches a location whose rule ignores it. -/
theorem readOnlyAndReservedWritesAreIgnored : Obligations.ReadOnlyAndReservedWritesAreIgnored := by
  intro s v
  refine ⟨fun b r hr hidle => State.writeResult_ignored hidle b hr v,
    fun hidle => ⟨State.access_write_csr (off := 0x030) .hexOut (by decide) (.inl hidle) v,
      State.access_write_csr (off := 0x034) .binOut (by decide) (.inl hidle) v⟩,
    fun b w i hidle hc hw hi => ?_,
    State.access_write_csr (off := 0x050) .errinfo (by decide) (.inr rfl) v,
    fun off hoff h4 => ⟨?_, ?_⟩⟩
  · rw [State.access_write (target_record hc b hw hi), State.writeLoc_own (.inl hidle)]
    rfl
  · rw [State.access_write (target_reserved _ hoff h4), State.writeLoc_own (.inr rfl)]
    rfl
  · rw [State.access_read (target_reserved _ hoff h4), State.readLoc_own (.inr rfl)]
    rfl

/-- Settles O46: the two ends of a LEN write, by its bound. -/
theorem lenWriteSetsOrRejects : Obligations.LenWriteSetsOrRejects := by
  intro s b v hidle
  rw [State.access_write_csr (.len b) (len_mem_csrMap b) (.inl hidle) v, State.writeCsr,
    State.writeLen]
  exact ⟨fun hle => by rw [if_pos hle]; rfl, fun hgt => by rw [if_neg (by omega)]⟩

/-- Settles O47: both fields are kept as ids, which give back their bits. -/
theorem ioselWriteRestartsTheReadouts : Obligations.IoselWriteRestartsTheReadouts := by
  intro s v hidle
  have hcin : (s.writeIosel v).cinBuf.field = v.extractLsb' 0 2 := BufId.field_ofField _
  have hout : (s.writeIosel v).outBuf.field = v.extractLsb' 8 2 := BufId.field_ofField _
  exact ⟨s.writeIosel v, State.access_write_csr (off := 0x028) .iosel (by decide) (.inl hidle) v,
    rfl, hcin, hout, State.ioselWord_eq_and hcin hout⟩

/-- Settles O48: the plain registers by their rules, IER also while busy. -/
theorem plainRegistersHoldWhatIsWritten : Obligations.PlainRegistersHoldWhatIsWritten := by
  intro s v
  refine ⟨fun hidle => ⟨State.access_write_csr (off := 0x020) .dimA (by decide) (.inl hidle) v,
    State.access_write_csr (off := 0x024) .dimB (by decide) (.inl hidle) v,
    State.access_write_csr (off := 0x038) .hexpos (by decide) (.inl hidle) v,
    State.access_write_csr (off := 0x03C) .binpos (by decide) (.inl hidle) v⟩,
    _, State.access_write_csr (off := 0x018) .ier (by decide) (.inr rfl) v, rfl,
    State.ierWord_eq_and rfl rfl⟩

end Sys2Proof.Machine
end

section
/-!
The memories: the host's reads and writes of their words (O49, O51), and that no engine step writes
a pixel (O52).
-/

namespace Sys2Proof.Machine

/-! ### Pixel and buffer words through the port -/

/-- A memory word's write reads back through any later state with that memory (20 R106). -/
theorem State.readWord_writeWord {s t : State} (hm : s.mem.wf) {a : Nat} {v : Word}
    (ht : t.mem = s.mem.writeWord a v) : t.readWord a = v := by
  rw [State.readWord, ht, Memory.readWord_writeWord_same hm]

theorem State.readByte_writeWord_ne {s t : State} {a : Nat} {v : Word}
    (ht : t.mem = s.mem.writeWord a v) (hdraw : t.memDraw = s.memDraw) {x : Nat}
    (hx : x < a ∨ a + 4 ≤ x) : t.readByte x = s.readByte x := by
  rw [State.readByte, ht, hdraw, Memory.readByte_writeWord_ne _ _ _ hx, State.readByte]

/-- Reads of a pixel word while BUSY = 0. -/
theorem State.access_read_pixel {s : State} (hc : s.cfg.wf = true) (hidle : s.busy = false)
    (m : Image) {k : Nat} (hk : k < s.cfg.maxpix) :
    s.access ⟨false, .word, BitVec.ofNat 32 (pixelAddr m k), 0⟩ =
      .next { s with obs := s.readWord (pixelAddr m k) :: s.obs } := by
  rw [State.access_read (target_pixel hc m hk), State.readLoc_own (.inl hidle)]
  rfl

theorem State.access_read_bufWord {s : State} (hc : s.cfg.wf = true) (hidle : s.busy = false)
    (b : BufId) {j : Nat} (hj : j < s.cfg.maxpix / 32) :
    s.access ⟨false, .word, BitVec.ofNat 32 (bufWordAddr b j), 0⟩ =
      .next { s with obs := s.readWord (bufWordAddr b j) :: s.obs } := by
  rw [State.access_read (target_bufWord hc b hj), State.readLoc_own (.inl hidle)]
  rfl

/-- Bit `r` of a buffer's word `j` in stream order (20 R107). -/
theorem State.bufBit_word (s : State) (b : BufId) (j : Nat) {r : Nat} (hr : r < 32) :
    s.bufBit b (32 * j + r) = (s.readWord (bufWordAddr b j)).getLsbD (31 - r) := by
  rw [State.bufBit_eq_readWord, show (32 * j + r) / 32 = j by omega,
    show (32 * j + r) % 32 = r by omega]

/-- Settles O49: the write's rule gives the state, and the laws of the byte store what it reads. -/
theorem memoryWordWritesReadBack : Obligations.MemoryWordWritesReadBack := by
  intro s v hc hm hidle
  refine ⟨fun m k hk => ⟨State.access_read_pixel hc hidle m hk, ?_⟩,
    fun b j hj => ⟨State.access_read_bufWord hc hidle b hj, ?_⟩⟩
  · let t : State := { s with mem := s.mem.writeWord (pixelAddr m k) v }
    have hword : t.readWord (pixelAddr m k) = v := State.readWord_writeWord hm rfl
    refine ⟨t, ?_, rfl, hword, ?_,
      fun a ha => State.readByte_writeWord_ne (s := s) (t := t) rfl rfl ha⟩
    · rw [State.access_write (target_pixel hc m hk), State.writeLoc_own (.inl hidle)]
      rfl
    · rw [State.access_read_pixel (s := t) hc hidle m hk, hword]
  · let t : State := { s with mem := s.mem.writeWord (bufWordAddr b j) v }.invalidate b
    have hword : t.readWord (bufWordAddr b j) = v := State.readWord_writeWord hm rfl
    refine ⟨t, ?_, rfl, hword, ?_, fun r hr => ?_,
      fun a ha => State.readByte_writeWord_ne (s := s) (t := t) rfl rfl ha⟩
    · rw [State.access_write (target_bufWord hc b hj), State.writeLoc_own (.inl hidle)]
      rfl
    · rw [State.access_read_bufWord (s := t) hc hidle b hj, hword]
    · rw [State.bufBit_word t b j hr, hword]

/-! ### Window records through the port -/

/-- A read of a record word while BUSY = 0 (10 R52). -/
theorem State.access_read_record {s : State} (hc : s.cfg.wf = true) (hidle : s.busy = false)
    (b : BufId) {w i : Nat} (hw : w < s.cfg.maxpix / 20000) (hi : i < 32) :
    s.access ⟨false, .word, BitVec.ofNat 32 (recordAddr b w i), 0⟩ =
      .next { s with obs := s.recordWord b w i :: s.obs } := by
  rw [State.access_read (target_record hc b hw hi), State.readLoc_own (.inl hidle)]
  rfl

/-- Settles O51: of the three words a record read can show, a hypothesis leaves one. -/
theorem recordReadsShowMeaningfulWords : Obligations.RecordReadsShowMeaningfulWords := by
  intro s b w i hc hidle hw hi
  rw [State.access_read_record hc hidle b hw hi]
  rcases s.recordWord_cases b w i with ⟨hres, hword⟩ | ⟨hlt, hword, -⟩ | ⟨hlt, hwritten, -⟩
  · exact ⟨fun _ => by rw [hword], fun h => by omega⟩
  · exact ⟨fun h => by omega, fun _ _ => by rw [hword]⟩
  · refine ⟨fun h => by omega, fun _ hmeans => ?_⟩
    have hvalid : (s.vstat.get b).valid = true ∧ w < (s.vnwin.get b).toNat :=
      hmeans.resolve_right (by simp [hwritten])
    rw [State.recordWord, if_neg (by omega), if_pos (by simp [hvalid])]

/-! ### Pixels and the engine -/

/-- Everything PIPELINE writes lies at or above the buffers (20 R101, 45 R323). -/
theorem State.readByte_runStages_lt {s : State} (hm : s.mem.wf) {n : Nat} (hn : n ≤ 2 ^ 24)
    {a : Nat} (ha : a < 0x30000000) : (s.runStages n).readByte a = s.readByte a := by
  have stored (u : State) (d : BufId) (bs : BitString) :
      (u.storeStream d bs).readByte a = u.readByte a :=
    State.readByte_storeStream_ne u d bs (.inl (ha.trans_le (bufBase_spread d d).1))
  have belowRecords (b : BufId) : a < wresBase b := by have := (wresBase_spread b b).1; omega
  rw [State.runStages_eq hm hn, State.publish_readByte,
    State.readByte_stageValidate_ne _ fun b => .inl (belowRecords b)]
  unfold State.fourStreams
  dsimp only
  rw [stored, stored, stored, stored]

/-- No command writes a byte below the buffers (41 R215). -/
theorem EngineStep.readByte_lt {i : Instr} {s t : State} (h : EngineStep i s t)
    (hc : s.cfg.wf = true) (hm : s.mem.wf) {a : Nat} (ha : a < 0x30000000) :
    t.readByte a = s.readByte a := by
  cases h with
  | aborted e => exact s.abort_readByte e i a
  | nothing => exact s.complete_readByte a
  | stored d bs hbs =>
    rw [State.complete_readByte]
    exact State.readByte_storeStream_ne s d bs (.inl (ha.trans_le (bufBase_spread d d).1))
  | validated b =>
    have := (wresBase_spread b b).1
    rw [State.complete_readByte]
    exact State.readByte_validateBuffer_ne s b (.inl (by omega))
  | piped n hn =>
    rw [State.complete_readByte]
    exact State.readByte_runStages_lt hm (hn.trans (Config.wf_bounds hc).2.1) ha
  | cleared => rw [State.complete_readByte, State.clearAll_readByte]

/-- Settles O52: an engine's turn is a command or nothing, and pixels lie below the buffers. -/
theorem engineNeverWritesPixels : Obligations.EngineNeverWritesPixels := by
  intro s t hs hturn h m k hk
  have hmax := (Config.wf_bounds hs.build).2.1
  refine Memory.readWord_eq_of_readByte fun a _ ha => ?_
  have hbelow : a < 0x30000000 := by
    have := pixBase_spread m
    unfold pixelAddr at ha
    omega
  rcases step_cases h with ⟨hr, -⟩ | ⟨-, -, rfl⟩ | ⟨-, w, i, -, -, hexec⟩ | ⟨hh, -⟩ | ⟨hh, -⟩ |
    ⟨hh, -⟩
  · exact absurd (hturn.symm.trans hr) (by decide)
  · exact s.takeTurn_readByte a
  · have hi := hs.takeTurn
    exact ((engineStep_of_exec hi.lengths hexec).readByte_lt hi.build hi.memory hbelow).trans
      (s.takeTurn_readByte a)
  · exact absurd (hturn.symm.trans hh) (by decide)
  · exact absurd (hturn.symm.trans hh) (by decide)
  · exact absurd (hturn.symm.trans hh) (by decide)

end Sys2Proof.Machine
end

section
/-!
The engine and the host write no byte outside the mapped memories (O14; 20 R101, R119). An unmapped
byte lies outside every pixel word, every buffer's words and every buffer's records; each operation
that writes memory stays inside one of these by the bound on LEN or on the location it names.
-/

namespace Sys2Proof.Machine

/-! ### Where an unmapped byte lies -/

theorem outside_buf_of_unmapped {c : Config} (hc : c.wf = true) {a : Nat}
    (ha : mappedMemory c a = false) (b : BufId) :
    a < bufBase b ∨ bufBase b + 4 * (c.maxpix / 32) ≤ a := by
  by_contra hin
  have hmapped := mappedMemory_buf hc b (a := a) (by omega) (by omega)
  exact absurd hmapped (by simp [ha])

theorem outside_records_of_unmapped {c : Config} (hc : c.wf = true) {a : Nat}
    (ha : mappedMemory c a = false) (b : BufId) :
    a < wresBase b ∨ wresBase b + 128 * (c.maxpix / 20000) ≤ a := by
  by_contra hin
  have hmapped := mappedMemory_record hc b (a := a) (by omega) (by omega)
  exact absurd hmapped (by simp [ha])

theorem outside_pixel_of_unmapped {c : Config} (hc : c.wf = true) {a : Nat}
    (ha : mappedMemory c a = false) (m : Image) {k : Nat} (hk : k < c.maxpix) :
    a < pixelAddr m k ∨ pixelAddr m k + 4 ≤ a := by
  by_contra hin
  have hmapped := mappedMemory_pixel hc m hk (a := a) (by omega) (by omega)
  exact absurd hmapped (by simp [ha])

theorem outside_bufWord_of_unmapped {c : Config} (hc : c.wf = true) {a : Nat}
    (ha : mappedMemory c a = false) (b : BufId) {j : Nat} (hj : j < c.maxpix / 32) :
    a < bufWordAddr b j ∨ bufWordAddr b j + 4 ≤ a := by
  have hout := outside_buf_of_unmapped hc ha b
  unfold bufWordAddr
  omega

/-! ### The engine -/

/-- A stream that fits its buffer is stored in the buffer's words (10 R51). -/
theorem State.readByte_storeStream_unmapped {c : Config} (hc : c.wf = true) {a : Nat}
    (ha : mappedMemory c a = false) (s : State) (d : BufId) {bs : BitString}
    (hbs : bs.length ≤ c.maxpix) : (s.storeStream d bs).readByte a = s.readByte a := by
  have hout := outside_buf_of_unmapped hc ha d
  have h32 := (Config.wf_bounds hc).2.2
  exact State.readByte_storeStream_ne s d bs (by omega)

/-- The records of a stream of legal length are below P_MAXWIN (10 R52, 44 R285). -/
theorem outside_records_of_len_le {c : Config} (hc : c.wf = true) {a : Nat}
    (ha : mappedMemory c a = false) (b : BufId) {n : Nat} (hn : n ≤ c.maxpix) :
    a < wresBase b ∨ wresBase b + 128 * (n / windowBits) ≤ a := by
  have hout := outside_records_of_unmapped hc ha b
  unfold windowBits
  omega

theorem State.readByte_runStages_unmapped {c : Config} (hc : c.wf = true) {a : Nat}
    (ha : mappedMemory c a = false) {s : State} (hm : s.mem.wf) {n : Nat} (hn : n ≤ c.maxpix) :
    (s.runStages n).readByte a = s.readByte a := by
  have hn24 : n ≤ 2 ^ 24 := hn.trans (Config.wf_bounds hc).2.1
  have hstored (u : State) (d : BufId) {bs : BitString} (hbs : bs.length ≤ n) :
      (u.storeStream d bs).readByte a = u.readByte a :=
    State.readByte_storeStream_unmapped hc ha u d (hbs.trans hn)
  have hlsb (m : Image) : (s.lsb m n).length ≤ n := (s.length_lsb m n).le
  have hxor : (xorBits (s.lsb .imageA n) (s.lsb .imageB n)).length ≤ n := by simp
  have hdebiased := length_vonNeumann_le (xorBits (s.lsb .imageA n) (s.lsb .imageB n))
  rw [State.runStages_eq hm hn24, State.publish_readByte,
    State.readByte_stageValidate_ne _ fun b =>
      outside_records_of_len_le hc ha b ((State.len_fourStreams hm hn24 b).trans hn)]
  unfold State.fourStreams
  dsimp only
  rw [hstored _ .extracted (by omega), hstored _ .xored hxor, hstored _ .rawB (hlsb .imageB),
    hstored _ .rawA (hlsb .imageA)]

/-- No command writes a byte outside the mapped memories. -/
theorem EngineStep.readByte_unmapped {i : Instr} {s t : State} (h : EngineStep i s t) (hs : s.Inv)
    {a : Nat} (ha : mappedMemory s.cfg a = false) : t.readByte a = s.readByte a := by
  cases h with
  | aborted e => exact s.abort_readByte e i a
  | nothing => exact s.complete_readByte a
  | stored d bs hbs =>
    rw [State.complete_readByte]
    exact State.readByte_storeStream_unmapped hs.build ha s d hbs
  | validated b =>
    rw [State.complete_readByte]
    exact State.readByte_validateBuffer_ne s b
      (outside_records_of_len_le hs.build ha b (hs.lengths b))
  | piped n hn =>
    rw [State.complete_readByte]
    exact State.readByte_runStages_unmapped hs.build ha hs.memory hn
  | cleared => rw [State.complete_readByte, State.clearAll_readByte]

/-! ### The host -/

@[simp] theorem State.writeCmd_readByte (s : State) (v : Word) (a : Nat) :
    (s.writeCmd v).readByte a = s.readByte a := by
  unfold State.writeCmd
  split
  · rfl
  · split <;> rfl

@[simp] theorem State.writeStatus_readByte (s : State) (v : Word) (a : Nat) :
    (s.writeStatus v).readByte a = s.readByte a := by
  rw [State.writeStatus_eq]
  rfl

@[simp] theorem State.writeLen_readByte (s : State) (b : BufId) (v : Word) (a : Nat) :
    (s.writeLen b v).readByte a = s.readByte a := by
  unfold State.writeLen
  split <;> rfl

@[simp] theorem State.readLoc_readByte (s : State) (l : Loc) (a : Nat) :
    (s.readLoc l).2.readByte a = s.readByte a := by
  rcases s.readLoc_state l with h | h | ⟨-, h⟩ | ⟨-, h⟩ <;> rw [h] <;> rfl

/-- Only an append writes memory, and only while the buffer is not full (40 R180, 60 R375). -/
theorem State.Inv.readByte_writeCharIn_unmapped {s : State} (hs : s.Inv) {a : Nat}
    (ha : mappedMemory s.cfg a = false) (v : Word) :
    (Machine.writeCharIn s v).readByte a = s.readByte a := by
  unfold Machine.writeCharIn
  dsimp only
  split
  · rfl
  · split
    · rfl
    · split
      · rfl
      · rename_i hfull
        have hlt := lt_of_le_of_ne (hs.lengths s.cinBuf) hfull
        have h32 := (Config.wf_bounds hs.build).2.2
        have hout := outside_bufWord_of_unmapped hs.build ha s.cinBuf
          (j := (s.len.get s.cinBuf).toNat / 32) (by omega)
        have hplace := streamByteAddr_bounds s.cinBuf (s.len.get s.cinBuf).toNat
        exact Memory.readByte_eq_of_bit fun k _ =>
          Memory.bit_writeBit_other _ _ _ _ _ (by omega)

/-- A write to a location of the build keeps every unmapped byte. -/
theorem State.Inv.readByte_writeLoc_unmapped {s : State} (hs : s.Inv) {l : Loc}
    (hl : l.inRange s.cfg) {a : Nat} (ha : mappedMemory s.cfg a = false) (v : Word) :
    (s.writeLoc l v).readByte a = s.readByte a := by
  rcases s.writeLoc_cases l v with ⟨-, -, e⟩ | ⟨e, -⟩ | ⟨-, e⟩ | ⟨-, e⟩ | ⟨-, e⟩ |
    ⟨-, ⟨-, e⟩ | ⟨-, e⟩ | ⟨-, e⟩ | ⟨-, e⟩ | ⟨-, e⟩ | ⟨-, e⟩ | ⟨b, -, e⟩ | ⟨m, k, rfl, e⟩ |
      ⟨b, j, rfl, e⟩⟩ <;> rw [e]
  · rfl
  · exact s.writeCmd_readByte v a
  · exact s.writeStatus_readByte v a
  · rfl
  · rfl
  · rfl
  · exact s.writeIosel_readByte v a
  · exact hs.readByte_writeCharIn_unmapped ha v
  · rfl
  · rfl
  · exact s.writeLen_readByte b v a
  · exact Memory.readByte_writeWord_ne _ _ _ (outside_pixel_of_unmapped hs.build ha m hl)
  · exact Memory.readByte_writeWord_ne _ _ _ (outside_bufWord_of_unmapped hs.build ha b hl)

theorem State.Inv.readByte_afterAccess_unmapped {s : State} (hs : s.Inv) (acc : Access) {l : Loc}
    (hl : l.inRange s.cfg) {a : Nat} (ha : mappedMemory s.cfg a = false) :
    (s.afterAccess acc l).readByte a = s.readByte a := by
  unfold State.afterAccess
  split
  · exact hs.readByte_writeLoc_unmapped hl ha acc.wdata
  · exact s.readLoc_readByte l a

/-- Settles O14: by cases on what a step can do; what writes memory writes mapped words. -/
theorem onlyMappedMemoryIsWritten : Obligations.OnlyMappedMemoryIsWritten := by
  intro s t hs h hne a ha
  have hturn := hs.takeTurn
  rcases step_cases h with ⟨hreset, -⟩ | ⟨-, -, rfl⟩ | ⟨-, w, i, -, -, hexec⟩ | ⟨-, -, rfl⟩ |
    ⟨-, acc, rest, l, -, hl, rfl⟩ | ⟨-, addr, mask, val, rest, l, -, -, rfl⟩
  · exact absurd hreset hne
  · exact s.takeTurn_readByte a
  · exact ((engineStep_of_exec hturn.lengths hexec).readByte_unmapped hturn ha).trans
      (s.takeTurn_readByte a)
  · exact s.takeTurn_readByte a
  · exact (hturn.withHost rest).readByte_afterAccess_unmapped acc
      (Loc.inRange_of_target hs.build hl) ha
  · exact s.takeTurn.readLoc_readByte l a

end Sys2Proof.Machine
end

section
/-!
The host port's rules (20_memory.md): the address map (O40), repeated accesses (O50), the host's
turn (O8), BUSERR (O41) and the ownership of the engine's locations while BUSY = 1 (O42).
-/

namespace Sys2Proof.Machine

/-! ### The address map -/

/-- Settles O40: the map region by region forwards, and `locate_cases` backwards. -/
theorem addressMapIsExact : Obligations.AddressMapIsExact := by
  intro c hc
  refine ⟨fun p hp => target_of_mem_csrMap c hp, fun m k hk => target_pixel hc m hk,
    fun b j hj => target_bufWord hc b hj, fun b w i hw hi => target_record hc b hw hi,
    fun addr l h => ?_⟩
  obtain ⟨-, h4, hloc⟩ := target_eq_ok.1 h
  refine ⟨h4, ?_⟩
  rcases locate_cases hloc h4 (Config.wf_bounds hc).2.2 with ⟨hcsr, -⟩ | hword
  · exact .inl hcsr
  · exact .inr hword

/-! ### Engine-owned locations while BUSY = 1 -/

/-- While BUSY = 1 a write to an engine-owned location only sets ACC_REJ (20 R112). -/
theorem State.writeLoc_rejected {s : State} {l : Loc} (hb : s.busy = true)
    (hl : l.engineOwned = true) (v : Word) : s.writeLoc l v = { s with accRej := true } := by
  simp [State.writeLoc, hb, hl]

/-- While BUSY = 1 a read of an engine-owned location is a draw (20 R112; log 8). -/
theorem State.readLoc_drawn {s : State} {l : Loc} (hb : s.busy = true) (hl : l.engineOwned = true) :
    s.readLoc l = (Config.busyWord s.draws, { s with draws := s.draws + 1 }) := by
  simp [State.readLoc, hb, hl]

/-! ### Repeated writes -/

/-- A cleared W1C bit stays cleared (10 R37). -/
theorem State.writeStatus_idem (s : State) (v : Word) :
    (s.writeStatus v).writeStatus v = s.writeStatus v := by
  simp only [State.writeStatus_eq, Bool.and_assoc, Bool.and_self]
  cases v.getLsbD 2 <;> rfl

theorem State.writeLen_idem (s : State) (b : BufId) (v : Word) :
    (s.writeLen b v).writeLen b v = s.writeLen b v := by
  by_cases hv : v.toNat ≤ s.cfg.maxpix
  · simp [State.writeLen, hv, State.invalidate, PerBuf.set_set_same]
  · simp [State.writeLen, hv]

/-- Writing a buffer word twice (20 R109, 10 R54 (b)). -/
theorem State.writeBufWord_idem {s : State} (hm : s.mem.wf) (b : BufId) (j : Nat) (v : Word) :
    (s.writeOwn v (.bufWord b j)).writeOwn v (.bufWord b j) = s.writeOwn v (.bufWord b j) := by
  simp [State.writeOwn, State.invalidate, Memory.writeWord_writeWord_same hm, PerBuf.set_set_same]

/-- By the ordinary rules, location by location: only CMD and CHAR_IN tell two writes from
one. -/
theorem State.writeOwn_idem {s : State} (hm : s.mem.wf) {l : Loc} (hcmd : l ≠ .csr .cmd)
    (hchar : l ≠ .csr .charIn) (v : Word) : (s.writeOwn v l).writeOwn v l = s.writeOwn v l := by
  cases l with
  | csr r =>
    cases r with
    | cmd => exact absurd rfl hcmd
    | charIn => exact absurd rfl hchar
    | status => exact s.writeStatus_idem v
    | len b => exact s.writeLen_idem b v
    | _ => rfl
  | reserved => rfl
  | pixel m k => simp [State.writeOwn, Memory.writeWord_writeWord_same hm]
  | bufWord b j => exact State.writeBufWord_idem hm b j v
  | record b w i => rfl

/-- Only the acceptance of a command sets BUSY, and only the engine clears it (45 R320, R321). -/
theorem State.writeOwn_busy (s : State) {l : Loc} (hcmd : l ≠ .csr .cmd) (hchar : l ≠ .csr .charIn)
    (v : Word) : (s.writeOwn v l).busy = s.busy := by
  cases l with
  | csr r =>
    cases r with
    | cmd => exact absurd rfl hcmd
    | charIn => exact absurd rfl hchar
    | status => rw [State.writeOwn, State.writeCsr, State.writeStatus_eq]
    | len b =>
      rw [State.writeOwn, State.writeCsr, State.writeLen]
      split <;> rfl
    | _ => rfl
  | _ => rfl

theorem State.writeLoc_idem {s : State} (hm : s.mem.wf) {l : Loc} (hcmd : l ≠ .csr .cmd)
    (hchar : l ≠ .csr .charIn) (v : Word) : (s.writeLoc l v).writeLoc l v = s.writeLoc l v := by
  by_cases hrej : s.busy = true ∧ l.engineOwned = true
  · obtain ⟨hb, hl⟩ := hrej
    rw [State.writeLoc_rejected hb hl]
    exact State.writeLoc_rejected (s := { s with accRej := true }) hb hl v
  · have hown : s.busy = false ∨ l.engineOwned = false := by
      simpa only [not_and_or, Bool.not_eq_true] using hrej
    have hown' : (s.writeOwn v l).busy = false ∨ l.engineOwned = false := by
      rwa [State.writeOwn_busy s hcmd hchar]
    rw [State.writeLoc_own hown, State.writeLoc_own hown', State.writeOwn_idem hm hcmd hchar]

/-! ### Reads -/

/-- A read of a location other than the two read ports moves the draw counter at most
(20 R109). -/
theorem State.readLoc_draws {s : State} {l : Loc} (hhex : l ≠ .csr .hexOut)
    (hbin : l ≠ .csr .binOut) : ∃ k, (s.readLoc l).2 = { s with draws := k } := by
  rcases s.readLoc_cases l with h | ⟨-, -, h⟩
  · rw [h]
    rcases s.readOwn_cases l with h | ⟨-, h⟩ | ⟨hl, -⟩ | ⟨hl, -⟩
    · exact ⟨s.draws, h⟩
    · exact ⟨_, h⟩
    · exact absurd hl hhex
    · exact absurd hl hbin
  · exact ⟨_, congrArg Prod.snd h⟩

/-- While BUSY = 0 not even that: STATUS shows no drawn stage (10 R38; log 8). -/
theorem State.readLoc_idle {s : State} {l : Loc} (hidle : s.busy = false) (hhex : l ≠ .csr .hexOut)
    (hbin : l ≠ .csr .binOut) : (s.readLoc l).2 = s := by
  rw [State.readLoc_own (.inl hidle)]
  rcases s.readOwn_cases l with h | ⟨rfl, -⟩ | ⟨hl, -⟩ | ⟨hl, -⟩
  · exact h
  · simp [State.readOwn, State.readCsr, hidle]
  · exact absurd hl hhex
  · exact absurd hl hbin

/-- Settles O50: writes by location, reads by what a read can do. -/
theorem repeatedAccessesChangeNothingMore : Obligations.RepeatedAccessesChangeNothingMore :=
  ⟨fun _ _ v hm hcmd hchar => State.writeLoc_idem hm hcmd hchar v,
    fun _ _ hhex hbin => State.readLoc_draws hhex hbin,
    fun _ _ hidle hhex hbin => State.readLoc_idle hidle hhex hbin⟩

/-! ### BUSERR and ownership -/

theorem target_width_error (c : Config) {w : Width} (hw : w ≠ .word) (addr : Word) :
    target c w addr = .error .width := if_pos hw

theorem target_misaligned (c : Config) {addr : Word} (h4 : addr.toNat % 4 ≠ 0) :
    target c .word addr = .error .misaligned := by
  rw [target, if_neg (by decide), if_pos h4]

/-- Settles O41: an access is its target's cause, or the write or read of its target. -/
theorem unsupportedAccessesGetBusError : Obligations.UnsupportedAccessesGetBusError := by
  intro s a
  refine ⟨fun hw => State.access_error (target_width_error s.cfg hw a.addr), fun hw h4 => ?_,
    fun c hc => State.access_error hc, fun l hl => ⟨_, State.access_ok hl⟩⟩
  refine State.access_error ?_
  rw [hw, target_misaligned s.cfg h4]

/-- Settles O42: the locations by address, and the rule of R112 for a write and a read. -/
theorem busyBlockOwnsItsState : Obligations.BusyBlockOwnsItsState := by
  intro s a l hb ht haddr
  have hl : l.engineOwned = true := target_engineOwned ht haddr
  refine ⟨hl, fun hwe => ?_, fun hwe => ⟨s.draws + 1, ?_⟩⟩
  · rw [State.access_ok ht, State.afterAccess, if_pos hwe, State.writeLoc_rejected hb hl]
  · rw [State.access_ok ht, State.afterAccess, if_neg (by simp [hwe]), State.readLoc_drawn hb hl]
    rfl

/-! ### The host's turn -/

theorem step_of_host {s : State} (h : s.nextTurn = .host) : step s = s.takeTurn.hostTurn := by
  rw [step, h]

/-- An engine's turn with nothing latched is idle (45 R321; log 16). -/
theorem step_of_engine_nothing {s : State} (h : s.nextTurn = .engine) (hp : s.pend = none) :
    step s = .next s.takeTurn := by
  rw [step, h]
  simp only [State.engineTurn, State.fetch_nothing (s := s.takeTurn) hp]

theorem State.hostTurn_nil {s : State} (h : s.host = []) : s.hostTurn = .next s := by
  rw [State.hostTurn, h]

theorem State.hostTurn_access {s : State} {a : Access} {rest : List HostOp}
    (h : s.host = .access a :: rest) : s.hostTurn = { s with host := rest }.access a := by
  rw [State.hostTurn, h]

theorem State.hostTurn_poll {s : State} {addr mask val : Word} {rest : List HostOp}
    (h : s.host = .poll addr mask val :: rest) :
    s.hostTurn = s.pollOnce addr mask val rest := by
  rw [State.hostTurn, h]

/-- No read touches the list of words the host has seen before (log 17). -/
@[simp] theorem State.readLoc_obs (s : State) (l : Loc) : (s.readLoc l).2.obs = s.obs := by
  rcases s.readLoc_state l with h | h | ⟨-, h⟩ | ⟨-, h⟩ <;> rw [h]

/-- POLL reads once, and leaves the program when its condition holds (30 R158; log 4). -/
theorem State.pollOnce_ok {s : State} {addr : Word} {l : Loc}
    (h : target s.cfg .word addr = .ok l) (mask val : Word) (rest : List HostOp) :
    s.pollOnce addr mask val rest = .next { (s.readLoc l).2 with
      obs := (s.readLoc l).1 :: s.obs
      host := if (s.readLoc l).1 &&& mask = val then rest else .poll addr mask val :: rest } := by
  simp only [State.pollOnce, h, State.observe, State.readLoc_obs]

theorem State.pollOnce_error {s : State} {addr : Word} {c : BusCause}
    (h : target s.cfg .word addr = .error c) (mask val : Word) (rest : List HostOp) :
    s.pollOnce addr mask val rest = .fault (.busError c addr) := by
  simp only [State.pollOnce, h]

/-- Settles O8: the turn's owner, then the head of the host's program. -/
theorem hostTurnRunsTheNextOperation : Obligations.HostTurnRunsTheNextOperation := by
  intro s
  refine ⟨fun hturn hp => step_of_engine_nothing hturn hp, fun hturn hhost => ?_,
    fun hturn a rest hhost => ?_, fun hturn addr mask val rest l hhost hl => ?_,
    fun hturn addr mask val rest hhost => ?_⟩
  · rw [step_of_host hturn, State.hostTurn_nil (s := s.takeTurn) hhost]
    rfl
  · rw [step_of_host hturn, State.hostTurn_access (s := s.takeTurn) hhost]
    rfl
  · rw [step_of_host hturn, State.hostTurn_poll (s := s.takeTurn) hhost]
    exact State.pollOnce_ok (s := s.takeTurn) hl mask val rest
  · have hfault (c : BusCause) (hc : target s.cfg .word addr = .error c) :
        step s = .fault (.busError c addr) := by
      rw [step_of_host hturn, State.hostTurn_poll (s := s.takeTurn) hhost]
      exact State.pollOnce_error (s := s.takeTurn) hc mask val rest
    exact ⟨hfault, fun h4 => hfault .misaligned (target_misaligned s.cfg h4)⟩

end Sys2Proof.Machine
end

section
/-!
The encoding (30 R150 to R156): O1 to O3. The decoder is read through the fields of a word, and the
pattern table too: a row compares the fields its mask keeps.
-/

namespace Sys2Proof

/-! ### Decoding inverts encoding -/

/-- An assembled word's reserved bits are 0, so only its opcode and operand fields decide what it
decodes to (30 R154, R156). -/
theorem decode_assemble (op : BitVec 8) (ra rb rd : BitVec 2) :
    decode (assemble op ra rb rd) = Command.decode ⟨op, ra, 0, rb, 0, rd, 0⟩ := by
  rw [decode, Command.ofWord_assemble]
  exact if_pos ⟨rfl, rfl, rfl⟩

/-- An image's RA field leaves `RA[1]`, which EXTRACT does not use, at 0 (30 R151). -/
@[simp] theorem Image.field_getElem_one (m : Image) : m.field[1] = false := by
  cases m <;> rfl

/-- Every instruction's command word decodes to it (30 R153, R156). -/
@[simp] theorem decode_encode (i : Instr) : decode (encode i) = .ok i := by
  cases i with
  | nop | pipeline | clear =>
    rw [encode, decode_assemble]
    rfl
  | extract m d | xor a b d | debias a d | validate a =>
    rw [encode, decode_assemble]
    simp [Command.decode]

/-- Settles O1: the two directions of the round trip. -/
theorem decodeExactlyInvertsEncode : Obligations.DecodeExactlyInvertsEncode :=
  fun _ i => ⟨encode_of_decode, fun h => h ▸ decode_encode i⟩

/-! ### Legality by fields -/

theorem decode_eq_ok_iff {w : Word} {i : Instr} :
    decode w = .ok i ↔
      (Command.ofWord w).reservedClear = true ∧ (Command.ofWord w).decode = .ok i := by
  simp only [decode, Command.reservedClear, Bool.and_eq_true, beq_iff_eq, and_assoc]
  split
  · rename_i hrsv
    simp [hrsv]
  · rename_i hrsv
    simp only [reduceCtorEq, false_iff]
    exact fun ⟨h11, h15, h31, _⟩ => hrsv ⟨h11, h15, h31⟩

/-- Fields with the reserved bits clear decode exactly when the opcode is defined and the operand
fields it does not use are 0 (30 R154). -/
theorem Command.exists_decode_iff (c : Command) :
    (∃ i, c.decode = .ok i) ↔ c.opcodeDefined = true ∧ c.unusedClear = true := by
  unfold Command.decode Command.opcodeDefined Command.unusedClear
  split
  case h_8 h0 h1 h2 h3 h4 h5 h6 =>
    have hop : ¬ c.op.toNat ≤ 6 := by
      simp only [imp_false] at h0 h1 h2 h3 h4 h5 h6
      omega
    simp [hop]
  case h_3 hop => simp [hop]
  all_goals
    rename_i hop
    split <;> simp_all

theorem legal_iff_exists_decode {w : Word} : legal w = true ↔ ∃ i, decode w = .ok i :=
  ⟨exists_decode_of_legal, fun ⟨i, hi⟩ => by rw [legal, hi]⟩

/-- The decoder's legality is the legality of the word's fields (30 R154). -/
theorem legal_eq_fields (w : Word) : legal w = (Command.ofWord w).legal := by
  rw [Bool.eq_iff_iff, legal_iff_exists_decode]
  simp only [decode_eq_ok_iff, exists_and_left, Command.exists_decode_iff, Command.legal,
    Bool.and_eq_true]
  tauto

/-! ### Legality by the pattern table -/

/-- Every instruction's command word matches the instruction's own row (30 R155). -/
theorem encodesToRow (i : Instr) : Laws.EncodesToRow.Statement i := by
  cases i with
  | nop => exact Laws.EncodesToRow.nop
  | extract m d => exact Laws.EncodesToRow.extract m d
  | xor a b d => exact Laws.EncodesToRow.xor a b d
  | debias a d => exact Laws.EncodesToRow.debias a d
  | validate a => exact Laws.EncodesToRow.validate a
  | pipeline => exact Laws.EncodesToRow.pipeline
  | clear => exact Laws.EncodesToRow.clear

/-- The fields of a command, each with the same field of a mask applied. -/
def Command.masked (c m : Command) : Command :=
  { op := c.op &&& m.op
    ra := c.ra &&& m.ra
    rsv11 := c.rsv11 &&& m.rsv11
    rb := c.rb &&& m.rb
    rsv15 := c.rsv15 &&& m.rsv15
    rd := c.rd &&& m.rd
    rsv31 := c.rsv31 &&& m.rsv31 }

/-- Masking a word masks its fields (30 R150, R155). -/
theorem Command.ofWord_and (w m : Word) :
    Command.ofWord (w &&& m) = (Command.ofWord w).masked (Command.ofWord m) := by
  simp [Command.ofWord, Command.masked, BitVec.extractLsb'_and]

/-- A row's word, field by field (30 R155). -/
theorem OpcodeRow.masked_of_matchesWord {r : OpcodeRow} {w : Word} (h : r.matchesWord w = true) :
    (Command.ofWord w).masked (Command.ofWord r.mask) = Command.ofWord r.pattern := by
  rw [← Command.ofWord_and, eq_of_beq h]

/-- What a row's mask keeps of a command makes it legal: the whole opcode, every reserved bit and
every operand bit the command does not use (30 R154, R155). -/
theorem Command.legal_of_masked {c : Command} {r : OpcodeRow} (hr : r ∈ opcodeRows)
    (h : c.masked (Command.ofWord r.mask) = Command.ofWord r.pattern) : c.legal = true := by
  have opKept : c.op &&& 255#8 = c.op := BitVec.and_allOnes
  have fieldKept (f : BitVec 2) : f &&& 3#2 = f := BitVec.and_allOnes
  have rsvKept : c.rsv31 &&& 16383#14 = c.rsv31 := BitVec.and_allOnes
  have highBit : c.ra &&& 2#2 = 0#2 → c.ra[1] = false := by
    generalize c.ra = f
    revert f
    decide
  simp only [opcodeRows, List.mem_cons, List.not_mem_nil, or_false] at hr
  rcases hr with rfl | rfl | rfl | rfl | rfl | rfl | rfl
  all_goals
    simp only [Command.masked, Command.ofWord, BitVec.ofNat_eq_ofNat, BitVec.reduceExtractLsb',
      BitVec.extractLsb'_zero, BitVec.and_zero, opKept, fieldKept, rsvKept, Command.mk.injEq] at h
    simp [Command.legal, Command.opcodeDefined, Command.reservedClear, Command.unusedClear, h,
      highBit]

/-- A word is legal exactly when a row of the pattern table has it (30 R154). -/
theorem legal_iff_matches_row (w : Word) :
    legal w = true ↔ ∃ r ∈ opcodeRows, r.matchesWord w = true := by
  constructor
  · intro hw
    obtain ⟨i, hi⟩ := exists_decode_of_legal hw
    obtain ⟨hrow, hmatch, -, -⟩ := encodesToRow i
    exact ⟨i.row, hrow, encode_of_decode hi ▸ hmatch⟩
  · rintro ⟨r, hr, hmatch⟩
    rw [legal_eq_fields]
    exact Command.legal_of_masked hr (OpcodeRow.masked_of_matchesWord hmatch)

/-- Every mask keeps the whole OP field, so a row's words have the row's opcode (30 R155). -/
theorem OpcodeRow.opField_of_matchesWord {r : OpcodeRow} (hr : r ∈ opcodeRows) {w : Word}
    (h : r.matchesWord w = true) : Machine.opField w = Machine.opField r.pattern := by
  have keepsOp : ∀ r ∈ opcodeRows, (Command.ofWord r.mask).op = BitVec.allOnes 8 := by decide
  have hop := congrArg Command.op (OpcodeRow.masked_of_matchesWord h)
  rwa [Command.masked, keepsOp r hr, BitVec.and_allOnes] at hop

/-- Two rows with the same opcode are the same row (30 R153, R155). -/
theorem opcodeRows_opField_injective : ∀ r ∈ opcodeRows, ∀ q ∈ opcodeRows,
    Machine.opField r.pattern = Machine.opField q.pattern → r = q := by
  decide

/-- A CMD write of an illegal word while BUSY = 0 and ERR = 0 (30 R154, 45 R320). -/
theorem Machine.State.writeCmd_illegal {s : State} {w : Word} (hw : legal w = false)
    (hbusy : s.busy = false) (herr : s.err = false) :
    s.writeCmd w = s.raise .illegalCommand w := by
  simp [State.writeCmd, hbusy, herr, hw]

/-- Settles O2: the decoder and the pattern table both read the fields of the word. -/
theorem legalWordsAreTheTableWords : Obligations.LegalWordsAreTheTableWords := by
  intro w
  refine ⟨legal_eq_fields w, legal_iff_matches_row w, fun r hr q hq hrw hqw => ?_,
    fun hw s hbusy herr => s.writeCmd_illegal hw hbusy herr⟩
  exact opcodeRows_opField_injective r hr q hq
    ((OpcodeRow.opField_of_matchesWord hr hrw).symm.trans (OpcodeRow.opField_of_matchesWord hq hqw))

/-! ### The words the spec writes out -/

/-- A command word, numbered as the opcode table numbers its words, decodes to its instruction
(30 R150). -/
theorem decodeTableWord_encode (i : Instr) : decodeTableWord 32 (encode i).toNat = some i := by
  rw [decodeTableWord, Nat.mod_eq_of_lt (encode i).isLt, BitVec.ofNat_toNat, BitVec.setWidth_eq,
    decode_encode]

/-- Settles O3: the legal words are command words, and the illegal ones are evaluated. -/
theorem specWordsDecodeAsWritten : Obligations.SpecWordsDecodeAsWritten :=
  ⟨decodeTableWord_encode .nop, decodeTableWord_encode (.extract .imageA .rawA),
    decodeTableWord_encode (.extract .imageB .rawB),
    decodeTableWord_encode (.xor .rawA .rawB .xored),
    decodeTableWord_encode (.debias .xored .extracted),
    decodeTableWord_encode (.validate .extracted), decodeTableWord_encode .pipeline,
    decodeTableWord_encode .clear, by decide, by decide, by decide, by decide⟩

end Sys2Proof
end

section
/-!
The bit codec and the character ports (40_codec_stream_io.md): the hex form (O56, O57), the
host-side reference functions (O58, O59), the readout ports (O54, O55) and CHAR_IN (O53).
-/

namespace Sys2Proof.Machine

/-! ### Hex digits -/

/-- The ASCII code of a hex digit: `0`-`9`, then lowercase `a`-`f` (40 R190, R197). -/
theorem toNat_hexChar {v : Nat} (hv : v < 16) :
    (v ≤ 9 ∧ (hexChar v).toNat = 0x30 + v) ∨ (10 ≤ v ∧ (hexChar v).toNat = 0x57 + v) := by
  unfold hexChar
  split <;> rw [BitVec.toNat_ofNat] <;> omega

/-- A hex digit reads back as its value (40 R193). -/
theorem hexDigitValue_hexChar {v : Nat} (hv : v < 16) : hexDigitValue (hexChar v) = v := by
  unfold hexDigitValue
  rcases toNat_hexChar hv with ⟨hdigit, hcode⟩ | ⟨hletter, hcode⟩
  · rw [hcode, if_pos (by omega)]; omega
  · rw [hcode, if_neg (by omega)]; omega

theorem hexChar_isHexDigit {v : Nat} (hv : v < 16) :
    (0x30 ≤ (hexChar v).toNat ∧ (hexChar v).toNat ≤ 0x39) ∨
      (0x61 ≤ (hexChar v).toNat ∧ (hexChar v).toNat ≤ 0x66) := by
  rcases toNat_hexChar hv with ⟨hdigit, hcode⟩ | ⟨hletter, hcode⟩ <;> omega

/-- The digit of a nibble reads back as the nibble, most significant bit first (40 R190, R193). -/
theorem hexDigitBits_nibble (a b c d : Bool) :
    hexDigitBits (hexChar (numeral 4 [a, b, c, d])) = [a, b, c, d] := by
  have ha : (numeral 4 [a, b, c, d]).testBit 3 = a := testBit_numeral 4 _ (i := 0) (by decide)
  have hb : (numeral 4 [a, b, c, d]).testBit 2 = b := testBit_numeral 4 _ (i := 1) (by decide)
  have hc : (numeral 4 [a, b, c, d]).testBit 1 = c := testBit_numeral 4 _ (i := 2) (by decide)
  have hd : (numeral 4 [a, b, c, d]).testBit 0 = d := testBit_numeral 4 _ (i := 3) (by decide)
  rw [hexDigitBits, hexDigitValue_hexChar (numeral_lt 4 _), ha, hb, hc, hd]

/-! ### The hex form of a string -/

@[simp] theorem toHex_nil (p : PartialNibble) : toHex p [] = [] := rfl

@[simp] theorem toHex_nibble (p : PartialNibble) (a b c d : Bool) (rest : BitString) :
    toHex p (a :: b :: c :: d :: rest) = hexChar (numeral 4 [a, b, c, d]) :: toHex p rest := rfl

/-- A trailing partial nibble is one digit (40 R191). -/
theorem toHex_partial (p : PartialNibble) : ∀ t : BitString, 1 ≤ t.length → t.length ≤ 3 →
    toHex p t = [hexChar (partialValue p t)]
  | [_], _, _ | [_, _], _, _ | [_, _, _], _, _ => rfl
  | [], hpos, _ => by simp at hpos
  | _ :: _ :: _ :: _ :: _, _, hle => by simp only [List.length_cons] at hle; omega

/-- One digit for each nibble begun (40 R192). -/
theorem length_toHex (p : PartialNibble) :
    ∀ bs : BitString, (toHex p bs).length = (bs.length + 3) / 4
  | [] | [_] | [_, _] | [_, _, _] => by simp [toHex, hexValues]
  | a :: b :: c :: d :: rest => by
    rw [toHex_nibble, List.length_cons, length_toHex p rest]
    simp only [List.length_cons]
    omega

/-- Induction over the nibbles of a string of whole nibbles. -/
theorem nibble_induction {motive : BitString → Prop} (nil : motive [])
    (nibble : ∀ a b c d rest, motive rest → motive (a :: b :: c :: d :: rest)) :
    ∀ bs : BitString, bs.length % 4 = 0 → motive bs
  | [], _ => nil
  | [_], h | [_, _], h | [_, _, _], h => by simp at h
  | a :: b :: c :: d :: rest, h => by
    have hrest : rest.length % 4 = 0 := by simp only [List.length_cons] at h; omega
    exact nibble a b c d rest (nibble_induction nil nibble rest hrest)

/-- Whole nibbles read back as the string (40 R193). -/
theorem flatMap_hexDigitBits_toHex (p : PartialNibble) {bs : BitString} (h : bs.length % 4 = 0) :
    (toHex p bs).flatMap hexDigitBits = bs := by
  refine nibble_induction (motive := fun bs => (toHex p bs).flatMap hexDigitBits = bs) rfl
    (fun a b c d rest ih => ?_) bs h
  rw [toHex_nibble, List.flatMap_cons, hexDigitBits_nibble, ih]
  rfl

/-- What follows whole nibbles has a hex form of its own (40 R190). -/
theorem toHex_append (p : PartialNibble) {bs : BitString} (h : bs.length % 4 = 0) (t : BitString) :
    toHex p (bs ++ t) = toHex p bs ++ toHex p t := by
  refine nibble_induction (motive := fun bs => toHex p (bs ++ t) = toHex p bs ++ toHex p t) rfl
    (fun a b c d rest ih => ?_) bs h
  simp only [List.cons_append, toHex_nibble, ih]

/-- Settles O56: both halves by the nibbles of the string. -/
theorem hexLengthIsCeilOfQuarterAndReadsBack :
    Obligations.HexLengthIsCeilOfQuarterAndReadsBack :=
  fun p bs => ⟨length_toHex p bs, fun h => flatMap_hexDigitBits_toHex p h⟩

/-! ### The trailing partial nibble -/

@[simp] theorem numeral_nil (k : Nat) : numeral k [] = 0 := by
  induction k with
  | zero => rfl
  | succ k ih => simp [numeral, ih]

/-- The numeral of a string of at most `k` bits, as the sum R191 writes: bit `q` weighs
`2^(k−1−q)`. -/
theorem numeral_eq_sum {k : Nat} {t : BitString} (h : t.length ≤ k) :
    numeral k t =
      ((List.range t.length).map (fun q => (t.getD q false).toNat * 2 ^ (k - 1 - q))).sum := by
  induction t generalizing k with
  | nil => simp
  | cons b t ih =>
    obtain ⟨k, rfl⟩ : ∃ j, k = j + 1 := ⟨k - 1, by simp at h; omega⟩
    have htail := ih (k := k) (by simpa using h)
    have hexp (q : Nat) : k + 1 - 1 - (q + 1) = k - 1 - q := by omega
    rw [numeral, List.length_cons, List.range_succ_eq_map, List.map_cons, List.sum_cons,
      List.map_map, List.tail_cons, htail]
    simp only [Function.comp_def, Nat.succ_eq_add_one, List.getD_cons_succ, hexp]
    rfl

/-- Settles O57: the digit of the trailing bits is their numeral in their own length or in four
bits. -/
theorem partialNibbleDigit : Obligations.PartialNibbleDigit := by
  intro p bs t hbs hpos hle
  rw [toHex_append p hbs, toHex_partial p t hpos hle]
  cases p with
  | numeral => rw [partialValue, numeral_eq_sum le_rfl]
  | padRight => rw [partialValue, numeral_eq_sum (k := 4) (by omega)]

/-! ### The host-side reference functions -/

theorem length_binaryDigits (w value : Nat) : (binaryDigits w value).length = w := by
  induction w with
  | zero => rfl
  | succ w ih => rw [binaryDigits, List.length_cons, ih]

theorem binChar_cases (b : Bool) : binChar b = 0x30 ∨ binChar b = 0x31 := by
  cases b <;> decide

theorem mem_binaryDigits {w value : Nat} {ch : Byte} (h : ch ∈ binaryDigits w value) :
    ch = 0x30 ∨ ch = 0x31 := by
  induction w with
  | zero => simp [binaryDigits] at h
  | succ w ih =>
    rw [binaryDigits, List.mem_cons] at h
    rcases h with rfl | h
    · exact binChar_cases _
    · exact ih h

/-- A digit character less `0x30` is its bit (40 R185). -/
theorem toNat_binChar_sub (b : Bool) : (binChar b).toNat - 0x30 = b.toNat := by
  cases b <;> rfl

/-- The digits read on from a value `n` shift it by their width and add the low bits they show. -/
theorem foldl_binaryDigits (w value n : Nat) :
    (binaryDigits w value).foldl (fun n ch => 2 * n + (ch.toNat - 0x30)) n =
      2 ^ w * n + value % 2 ^ w := by
  induction w generalizing n with
  | zero => simp [binaryDigits, Nat.mod_one]
  | succ w ih =>
    rw [binaryDigits, List.foldl_cons, ih, toNat_binChar_sub, Nat.pow_succ, Nat.mod_mul,
      Nat.toNat_testBit]
    ring

/-- Settles O58: the numeral of `width` digits is the value's low bits, the value itself in the
domain. -/
theorem padBinaryIsTheNumeral : Obligations.PadBinaryIsTheNumeral := by
  intro value width
  refine ⟨fun hwidth hvalue => ⟨binaryDigits width value, if_pos ⟨hwidth, hvalue⟩,
    length_binaryDigits width value, fun ch hch => mem_binaryDigits hch, ?_⟩, fun hout => ?_⟩
  · rw [foldl_binaryDigits, Nat.mul_zero, Nat.zero_add, Nat.mod_eq_of_lt hvalue]
  · exact if_neg (by omega)

/-- Settles O59: the two digits are the quotient and the remainder by 16. -/
theorem padHexByteIsTwoDigits : Obligations.PadHexByteIsTwoDigits := by
  intro value
  refine ⟨fun hle => ?_, fun hgt => if_neg (by omega)⟩
  have hhigh : value / 16 < 16 := by omega
  have hlow : value % 16 < 16 := by omega
  refine ⟨hexChar (value / 16), hexChar (value % 16), if_pos hle, hexChar_isHexDigit hhigh,
    hexChar_isHexDigit hlow, ?_⟩
  rw [hexDigitValue_hexChar hhigh, hexDigitValue_hexChar hlow]
  omega

/-! ### The readout ports -/

/-- A read of an engine-owned register by its offset while BUSY = 1 (20 R112). -/
theorem State.access_read_csr_busy {s : State} {off : Nat} (r : Csr) (hr : (off, r) ∈ csrMap)
    (hb : s.busy = true) (hown : (Loc.csr r).engineOwned = true) (v : Word) :
    s.access ⟨false, .word, BitVec.ofNat 32 off, v⟩ =
      .next { s with obs := Config.busyWord s.draws :: s.obs, draws := s.draws + 1 } := by
  rw [State.access_read (target_of_mem_csrMap _ hr), State.readLoc_drawn hb hown]
  rfl

/-- The readout word as a number: VALID is bit 8 (40 R187). -/
theorem readoutWord_eq (ch : Byte) : readoutWord ch = BitVec.ofNat 32 (0x100 + ch.toNat) := by
  have hch : ch.toNat < 2 ^ 8 := ch.isLt
  have hor : 0x100 + ch.toNat = 0x100 ||| ch.toNat := Nat.two_pow_add_eq_or_of_lt hch 1
  have hset : (ch.setWidth 32).toNat = ch.toNat := BitVec.toNat_setWidth_of_le (by decide)
  apply BitVec.eq_of_toNat_eq
  rw [readoutWord, BitVec.toNat_or, hset, BitVec.toNat_ofNat, Nat.mod_eq_of_lt (by omega), hor]
  rfl

theorem readoutWord_binChar (b : Bool) :
    readoutWord (binChar b) = if b then 0x131 else 0x130 := by
  cases b <;> decide

/-- The digits of the selected stream, by its length (40 R192). -/
theorem State.length_toHex_bits (s : State) (p : PartialNibble) (b : BufId) :
    (toHex p (s.bits b)).length = ((s.len.get b).toNat + 3) / 4 := by
  rw [length_toHex, State.length_bits]

/-- A HEX_OUT read below the end of the digits (40 R186). -/
theorem readHexOut_digit {s : State} {ch : Byte}
    (h : (toHex s.cfg.partialNibble (s.bits s.outBuf))[s.hexpos.toNat]? = some ch) :
    readHexOut s = (readoutWord ch, { s with hexpos := s.hexpos + 1 }) := by
  simp only [readHexOut, h]

/-- A HEX_OUT read at or past the end (40 R186). -/
theorem readHexOut_end {s : State}
    (h : (toHex s.cfg.partialNibble (s.bits s.outBuf))[s.hexpos.toNat]? = none) :
    readHexOut s = (0, s) := by
  simp only [readHexOut, h]

/-- Settles O54: HEXPOS is below the number of digits, or the end is reached. -/
theorem hexOutReturnsTheNextDigit : Obligations.HexOutReturnsTheNextDigit := by
  intro s v n
  have hlen := s.length_toHex_bits s.cfg.partialNibble s.outBuf
  have hread (hidle : s.busy = false) :=
    State.access_read_csr (s := s) (off := 0x030) .hexOut (by decide) (.inl hidle) v
  refine ⟨fun hbusy => ⟨_, _, State.access_read_csr_busy (off := 0x030) .hexOut (by decide) hbusy
    rfl v⟩, fun hidle hlt => ?_, fun hidle hge => ?_⟩
  · have hdigit := List.getElem?_eq_getElem (hlt.trans_eq hlen.symm)
    refine ⟨_, hdigit, (hread hidle).trans ?_⟩
    rw [State.readCsr, readHexOut_digit hdigit, readoutWord_eq]
    rfl
  · refine (hread hidle).trans ?_
    rw [State.readCsr, readHexOut_end (List.getElem?_eq_none (hlen.trans_le hge))]
    rfl

/-- Settles O55: BINPOS is below LEN, or the end is reached. -/
theorem binOutReturnsTheNextBit : Obligations.BinOutReturnsTheNextBit := by
  intro s v n
  have hread (hidle : s.busy = false) :=
    State.access_read_csr (s := s) (off := 0x034) .binOut (by decide) (.inl hidle) v
  refine ⟨fun hbusy => ⟨_, _, State.access_read_csr_busy (off := 0x034) .binOut (by decide) hbusy
    rfl v⟩, fun hidle hlt => (hread hidle).trans ?_, fun hidle hge => (hread hidle).trans ?_⟩
  · rw [State.readCsr, readBinOut, if_pos hlt, readoutWord_binChar]
    rfl
  · rw [State.readCsr, readBinOut, if_neg (Nat.not_lt.2 hge)]
    rfl

/-! ### CHAR_IN -/

/-! The outcomes of a CHAR_IN write, in the order of its checks (40 R180, 60 R379). -/

theorem writeCharIn_dropped {s : State} (h : s.busy = true ∨ s.err = true) (v : Word) :
    writeCharIn s v = { s with accRej := true } :=
  if_pos (by simpa using h)

theorem writeCharIn_invalid {s : State} (hb : s.busy = false) (he : s.err = false) {v : Word}
    (h : v.extractLsb' 0 8 ≠ 0x30 ∧ v.extractLsb' 0 8 ≠ 0x31) :
    writeCharIn s v = s.raise .invalidBitCharacter v := by
  rw [writeCharIn, if_neg (by simp [hb, he]), if_pos h]

theorem writeCharIn_full {s : State} (hb : s.busy = false) (he : s.err = false) {v : Word}
    (h : v.extractLsb' 0 8 = 0x30 ∨ v.extractLsb' 0 8 = 0x31)
    (hfull : (s.len.get s.cinBuf).toNat = s.cfg.maxpix) :
    writeCharIn s v = s.raise .capacityExceeded v := by
  rw [writeCharIn, if_neg (by simp [hb, he]), if_neg (by tauto), if_pos hfull]

theorem writeCharIn_appends {s : State} (hb : s.busy = false) (he : s.err = false) {v : Word}
    (h : v.extractLsb' 0 8 = 0x30 ∨ v.extractLsb' 0 8 = 0x31)
    (hroom : (s.len.get s.cinBuf).toNat ≠ s.cfg.maxpix) :
    writeCharIn s v = appendBit s s.cinBuf (v.extractLsb' 0 8 == 0x31) := by
  rw [writeCharIn, if_neg (by simp [hb, he]), if_neg (by tauto), if_neg hroom]

/-- A CHAR_IN write through the port: the port's own rule, which drops it with ACC_REJ while
BUSY = 1 as R112 does. -/
theorem State.access_write_charIn (s : State) (v : Word) :
    s.access ⟨true, .word, 0x0000002C, v⟩ = .next (Machine.writeCharIn s v) := by
  cases hb : s.busy with
  | false => exact State.access_write_csr (off := 0x02C) .charIn (by decide) (.inl hb) v
  | true =>
    have htarget : target s.cfg .word 0x0000002C = .ok (.csr .charIn) :=
      target_of_mem_csrMap s.cfg (off := 0x02C) (by decide)
    rw [State.access_write htarget, State.writeLoc_rejected hb rfl, writeCharIn_dropped (.inl hb)]

/-- The appended bit is the one past the stream's end (40 R180). -/
theorem appendBit_bufBit {s : State} (hm : s.mem.wf) (b : BufId) (x : Bool) :
    (appendBit s b x).bufBit b (s.len.get b).toNat = x :=
  Memory.bit_writeBit_same hm _ _ (streamBitOfByte_lt _) x

theorem appendBit_readByte_ne (s : State) (b : BufId) (x : Bool) {a : Nat}
    (ha : a ≠ streamByteAddr b (s.len.get b).toNat) :
    (appendBit s b x).readByte a = s.readByte a :=
  Memory.readByte_eq_of_bit fun k _ => Memory.bit_writeBit_other _ _ _ _ k ha

/-- "Other bits of that word keep their values" (40 R180). -/
theorem appendBit_getLsbD_readByte {s : State} (hm : s.mem.wf) (b : BufId) (x : Bool) {k : Nat}
    (hk : k < 8) (hne : k ≠ streamBitOfByte (s.len.get b).toNat) :
    ((appendBit s b x).readByte (streamByteAddr b (s.len.get b).toNat)).getLsbD k =
      (s.readByte (streamByteAddr b (s.len.get b).toNat)).getLsbD k := by
  rw [State.readByte, State.readByte, Memory.getLsbD_readByte _ _ _ hk,
    Memory.getLsbD_readByte _ _ _ hk]
  exact Memory.bit_writeBit_ne hm _ _ hk x hne

/-- Settles O53: the port's outcomes check by check, and what an append leaves alone. -/
theorem charInDropsRaisesOrAppends : Obligations.CharInDropsRaisesOrAppends := by
  intro s v hm c b n
  rw [State.access_write_charIn]
  refine ⟨fun h => by rw [writeCharIn_dropped h], fun hb he h0 h1 => ?_, fun hb he hc hfull => ?_,
    fun hb he hc hroom => ⟨appendBit s b (c == 0x31), ?_, rfl, appendBit_bufBit hm b _,
      fun a ha => appendBit_readByte_ne s b _ ha,
      fun k hk hne => appendBit_getLsbD_readByte hm b _ hk hne⟩⟩
  · rw [writeCharIn_invalid hb he ⟨h0, h1⟩]; rfl
  · rw [writeCharIn_full hb he hc hfull]; rfl
  · rw [writeCharIn_appends hb he hc hroom]

end Sys2Proof.Machine
end

section
/-!
EXTRACT (41_extract.md): the stored LSB stream with its frame (O16), and that it depends on the
tapped bits alone (O17). What a completed store of any stream shows stands first, apart from what
the stream is.
-/

namespace Sys2Proof

/-! ### Assembled words as sums -/

/-- The fields of an assembled word do not overlap, so the word is their sum, each at its place
(30 R150, R156). -/
theorem assemble_eq_ofNat (op : BitVec 8) (ra rb rd : BitVec 2) :
    assemble op ra rb rd = BitVec.ofNat 32
      (op.toNat + 0x100 * ra.toNat + 0x1000 * rb.toNat + 0x10000 * rd.toNat) := by
  have hop := op.isLt
  have hra := ra.isLt
  have hrb := rb.isLt
  have hrd := rd.isLt
  generalize hw : BitVec.ofNat 32
    (op.toNat + 0x100 * ra.toNat + 0x1000 * rb.toNat + 0x10000 * rd.toNat) = w
  have hnat : w.toNat = op.toNat + 0x100 * ra.toNat + 0x1000 * rb.toNat + 0x10000 * rd.toNat := by
    rw [← hw, BitVec.toNat_ofNat]
    omega
  have field (start len : Nat) (f : BitVec len) (h : w.toNat / 2 ^ start % 2 ^ len = f.toNat) :
      w.extractLsb' start len = f :=
    BitVec.eq_of_toNat_eq (by rw [BitVec.extractLsb'_toNat, Nat.shiftRight_eq_div_pow, h])
  rw [← assemble_ofWord (w := w) (field 10 2 0 ?_) (field 14 2 0 ?_) (field 18 14 0 ?_),
    field 0 8 op ?_, field 8 2 ra ?_, field 12 2 rb ?_, field 16 2 rd ?_]
  all_goals
    simp only [hnat, BitVec.toNat_zero, BitVec.ofNat_eq_ofNat, Nat.reducePow]
    omega

theorem encode_extract (m : Image) (d : BufId) :
    encode (.extract m d) =
      BitVec.ofNat 32 (0x01 + 0x100 * m.field.toNat + 0x10000 * Machine.bufIndex d) :=
  assemble_eq_ofNat 0x01 m.field 0 d.field

namespace Machine

/-! ### A stored stream and the end of its step -/

/-- What a command that stores a stream changes: the destination's words, LEN and VALID, the report,
and the flags of completion (10 R51, R54; 45 R321). -/
theorem State.complete_storeStream_eq (s : State) (d : BufId) (bs : BitString) :
    (s.storeStream d bs).complete = { s with
      mem := (s.storeStream d bs).mem
      len := s.len.set d (BitVec.ofNat 32 bs.length)
      vstat := s.vstat.set d { s.vstat.get d with valid := false }
      reportValid := false
      done := true, busy := false, stage := .idle, pend := none, draws := s.draws + 1 } := rfl

theorem State.toNat_len_storeStream (s : State) (d : BufId) {bs : BitString}
    (hn : bs.length < 2 ^ 32) : ((s.storeStream d bs).len.get d).toNat = bs.length := by
  rw [State.storeStream_len, PerBuf.get_set_same, BitVec.toNat_ofNat, Nat.mod_eq_of_lt hn]

/-- The padding bits of the last word written are 0 (10 R51). -/
theorem State.bufBit_storeStream_padding {s : State} (hm : s.mem.wf) (d : BufId) {bs : BitString}
    {i : Nat} (hi : bs.length ≤ i) (hw : i / 32 < (bs.length + 31) / 32) :
    (s.storeStream d bs).bufBit d i = false := by
  rw [State.bufBit_storeStream hm d bs hw, List.getD_eq_default _ _ hi]

/-! ### The LSB stream of an image -/

/-- W and H have 16 bits each, so a pixel count fits LEN (10 R41, R45). -/
theorem pixelCount_lt (dim : Word) : pixelCount dim < 2 ^ 32 :=
  calc dimWidth dim * dimHeight dim
    _ < 2 ^ 16 * 2 ^ 16 :=
      Nat.mul_lt_mul'' (dim.extractLsb' 0 16).isLt (dim.extractLsb' 16 16).isLt
    _ = 2 ^ 32 := (Nat.pow_add 2 16 16).symm

theorem State.getD_lsb (s : State) (m : Image) {n k : Nat} (hk : k < n) :
    (s.lsb m n).getD k false = s.pixelBit m k := by
  simp [State.lsb, hk]

/-- The LSB stream is a function of the tapped bits (41 R217). -/
theorem State.lsb_congr_pixelBit {s t : State} {m : Image} {n : Nat}
    (h : ∀ k, k < n → s.pixelBit m k = t.pixelBit m k) : s.lsb m n = t.lsb m n :=
  List.map_congr_left fun k hk => h k (List.mem_range.mp hk)

/-! ### The two outcomes of EXTRACT -/

theorem exec_extract_tooLarge {m : Image} {s : State} (d : BufId)
    (h : s.cfg.maxpix < pixelCount (s.dim m)) :
    exec (.extract m d) s = .next (s.abort .capacityExceeded (.extract m d)) := by
  rw [exec_extract, if_pos h]

theorem exec_extract_fits {m : Image} {s : State} (d : BufId)
    (h : pixelCount (s.dim m) ≤ s.cfg.maxpix) :
    exec (.extract m d) s =
      .next (s.storeStream d (s.lsb m (pixelCount (s.dim m)))).complete := by
  rw [exec_extract, if_neg h.not_gt]

/-- Settles O16: an image too large aborts, and any other image's stream is stored as every stream
is; its bits are the pixels'. -/
theorem extractStoresTheLsbStream : Obligations.ExtractStoresTheLsbStream := by
  intro m d s hm n w
  have hw : encode (.extract m d) = w := encode_extract m d
  refine ⟨hw ▸ decode_encode _, fun hlarge => ⟨s.draws + 1, ?_⟩, fun hfits => ?_⟩
  · rw [exec_extract_tooLarge d hlarge, ← hw]
    rfl
  · let bs := s.lsb m n
    have hlen : bs.length = n := s.length_lsb m n
    refine ⟨(s.storeStream d bs).complete, exec_extract_fits d hfits, ?_, ?_, fun k hk => ?_,
      fun i hi hword => ?_, fun a ha => ?_⟩
    · rw [← hlen]
      exact s.complete_storeStream_eq d bs
    · exact (s.toNat_len_storeStream d (hlen ▸ pixelCount_lt (s.dim m))).trans hlen
    · rw [State.complete_bufBit, State.bufBit_storeStream hm d bs (by omega), s.getD_lsb m hk,
        State.pixelBit_eq_readWord]
    · exact State.bufBit_storeStream_padding hm d (hlen ▸ hi) (hlen ▸ hword)
    · exact s.readByte_storeStream_ne d bs (hlen ▸ ha)

/-- Settles O17: both states store the same stream, and each stored stream reads back as itself,
whatever the memories held before. -/
theorem extractReadsOnlyTheTappedBits : Obligations.ExtractReadsOnlyTheTappedBits := by
  intro m d s t hs ht hcfg hdim hfits hbits
  generalize hn : pixelCount (s.dim m) = n at hfits hbits
  have hnt : pixelCount (t.dim m) = n := hdim ▸ hn
  have hlsb : s.lsb m n = t.lsb m n := State.lsb_congr_pixelBit fun k hk => by
    rw [State.pixelBit_eq_readWord, State.pixelBit_eq_readWord, hbits k hk]
  have hlt : (t.lsb m n).length < 2 ^ 32 := by
    rw [State.length_lsb, ← hnt]
    exact pixelCount_lt _
  refine ⟨_, _, exec_extract_fits d (hn ▸ hfits), exec_extract_fits d (hnt ▸ hcfg ▸ hfits), ?_, ?_⟩
  · simp [hn, hnt]
  · rw [hn, hnt, hlsb, State.complete_bits, State.complete_bits,
      State.bits_storeStream_same hs d hlt, State.bits_storeStream_same ht d hlt]

end Machine
end Sys2Proof
end

section
/-!
XOR (42_combine.md): the laws of the codec's xor (O19), and the stored exclusive-or with its frame
and its error (O18).
-/

namespace Sys2Proof

theorem encode_xor (a b d : BufId) :
    encode (.xor a b d) = BitVec.ofNat 32 (0x02 + 0x100 * Machine.bufIndex a +
      0x1000 * Machine.bufIndex b + 0x10000 * Machine.bufIndex d) :=
  assemble_eq_ofNat 0x02 a.field b.field d.field

namespace Machine

/-! ### The codec's xor -/

/-- 42 R231, bit by bit. -/
theorem getElem_xorBits (a b : BitString) {i : Nat} (hi : i < (xorBits a b).length)
    (ha : i < a.length) (hb : i < b.length) : (xorBits a b)[i] = (a[i] ^^ b[i]) :=
  List.getElem_zipWith

theorem length_xorBits_of_eq {a b : BitString} (h : a.length = b.length) :
    (xorBits a b).length = a.length := by
  rw [length_xorBits, ← h, Nat.min_self]

theorem xorBits_xorBits {a b : BitString} (h : a.length = b.length) :
    xorBits a (xorBits a b) = b := by
  have hab := length_xorBits_of_eq h
  refine List.ext_getElem ((length_xorBits_of_eq hab.symm).trans h) fun i hi hb => ?_
  have ha : i < a.length := h ▸ hb
  rw [getElem_xorBits _ _ hi ha (hab ▸ ha), getElem_xorBits _ _ _ ha hb, ← Bool.xor_assoc,
    Bool.xor_self, Bool.false_xor]

theorem xorBits_self (a : BitString) : xorBits a a = List.replicate a.length false := by
  refine List.ext_getElem (by simp) fun i hi hr => ?_
  have ha : i < a.length := length_xorBits_of_eq rfl ▸ hi
  rw [getElem_xorBits _ _ hi ha ha, Bool.xor_self, List.getElem_replicate]

/-- Settles O19, from the bits and the length of `xorBits`. -/
theorem xorPreservesLengthAndCancels : Obligations.XorPreservesLengthAndCancels := fun a _ h =>
  ⟨length_xorBits_of_eq h, xorBits_xorBits h, xorBits_self a⟩

/-! ### The exclusive-or of two buffers -/

theorem State.length_bits_eq_iff (s : State) (a b : BufId) :
    (s.bits a).length = (s.bits b).length ↔ s.len.get a = s.len.get b := by
  rw [State.length_bits, State.length_bits, BitVec.toNat_inj]

theorem State.length_xorBits_bits {s : State} {a b : BufId} (h : s.len.get a = s.len.get b) :
    (xorBits (s.bits a) (s.bits b)).length = (s.len.get a).toNat :=
  (length_xorBits_of_eq ((s.length_bits_eq_iff a b).mpr h)).trans (s.length_bits a)

/-- Bit `i` of the string XOR stores is a function of bits `i` of the sources (42 R230). -/
theorem State.getD_xorBits_bits {s : State} {a b : BufId} (h : s.len.get a = s.len.get b) {i : Nat}
    (hi : i < (s.len.get a).toNat) :
    (xorBits (s.bits a) (s.bits b)).getD i false = (s.bufBit a i ^^ s.bufBit b i) := by
  have ha : i < (s.bits a).length := (s.length_bits a).symm ▸ hi
  have hb : i < (s.bits b).length := (s.length_bits_eq_iff a b).mpr h ▸ ha
  have hx : i < (xorBits (s.bits a) (s.bits b)).length := (length_xorBits_bits h).symm ▸ hi
  rw [List.getD_eq_getElem _ _ hx, getElem_xorBits _ _ hx ha hb, State.getElem_bits,
    State.getElem_bits]

/-! ### The two outcomes of XOR -/

theorem exec_xor_mismatch {s : State} {a b : BufId} (d : BufId) (h : s.len.get a ≠ s.len.get b) :
    exec (.xor a b d) s = .next (s.abort .lengthMismatch (.xor a b d)) := by
  rw [exec_xor, if_pos (mt (s.length_bits_eq_iff a b).mp h)]

theorem exec_xor_match {s : State} {a b : BufId} (d : BufId) (h : s.len.get a = s.len.get b) :
    exec (.xor a b d) s = .next (s.storeStream d (xorBits (s.bits a) (s.bits b))).complete := by
  rw [exec_xor, if_neg (not_not.mpr ((s.length_bits_eq_iff a b).mpr h))]

/-- Settles O18: unequal lengths abort; equal ones store the exclusive-or of the two strings, read
whole from the state before the store, so an aliased destination makes no difference (30 R152). -/
theorem xorStoresTheExclusiveOr : Obligations.XorStoresTheExclusiveOr := by
  intro a b d s hm n w
  have hw : encode (.xor a b d) = w := encode_xor a b d
  refine ⟨hw ▸ decode_encode _, fun hne => ⟨s.draws + 1, ?_⟩, fun heq => ?_⟩
  · rw [exec_xor_mismatch d hne, ← hw]
    rfl
  · let bs := xorBits (s.bits a) (s.bits b)
    have hlen : bs.length = n := State.length_xorBits_bits heq
    refine ⟨(s.storeStream d bs).complete, exec_xor_match d heq, ?_, fun i hi => ?_,
      fun i hi hword => ?_, fun x hx => ?_⟩
    · have hlenWord : BitVec.ofNat 32 bs.length = s.len.get a := by
        rw [hlen, BitVec.ofNat_toNat, BitVec.setWidth_eq]
      rw [← hlenWord]
      exact s.complete_storeStream_eq d bs
    · rw [State.complete_bufBit, State.bufBit_storeStream hm d bs (by omega),
        State.getD_xorBits_bits heq hi]
    · exact State.bufBit_storeStream_padding hm d (hlen ▸ hi) (hlen ▸ hword)
    · exact s.readByte_storeStream_ne d bs (hlen ▸ hx)

end Machine
end Sys2Proof
end

section
/-!
DEBIAS (43_debias.md): the debiaser's rule said pair by pair (O21), and the stored output with its
frame (O20).
-/

namespace Sys2Proof

theorem encode_debias (a d : BufId) :
    encode (.debias a d) =
      BitVec.ofNat 32 (0x03 + 0x100 * Machine.bufIndex a + 0x10000 * Machine.bufIndex d) :=
  assemble_eq_ofNat 0x03 a.field 0 d.field

namespace Machine

/-! ### The debiaser, pair by pair -/

/-- The first pair is pair 0, and each pair of the rest is one further on in the whole string. -/
theorem unequalPairs_cons_cons (x y : Bool) (rest : BitString) :
    unequalPairs (x :: y :: rest) =
      (if x = y then [] else [0]) ++ (unequalPairs rest).map Nat.succ := by
  have hhalf : (x :: y :: rest).length / 2 = rest.length / 2 + 1 := by
    simp only [List.length_cons]
    omega
  rw [unequalPairs, unequalPairs, hhalf, List.range_succ_eq_map, List.filter_cons, List.filter_map]
  have hshift : (fun p => (x :: y :: rest).getD (2 * p) false !=
        (x :: y :: rest).getD (2 * p + 1) false) ∘ Nat.succ =
      fun p => rest.getD (2 * p) false != rest.getD (2 * p + 1) false := rfl
  rw [hshift]
  by_cases hxy : x = y <;> simp [hxy]

/-- 43 R251: what the machine's recursion emits is the first bit of each unequal pair. -/
theorem vonNeumann_eq_map_unequalPairs : ∀ bs : BitString,
    vonNeumann bs = (unequalPairs bs).map (fun p => bs.getD (2 * p) false)
  | [] => rfl
  | [_] => by simp [vonNeumann, unequalPairs]
  | x :: y :: rest => by
    have hshift : (unequalPairs rest).map (fun p => rest.getD (2 * p) false) =
        ((unequalPairs rest).map Nat.succ).map (fun p => (x :: y :: rest).getD (2 * p) false) := by
      rw [List.map_map]
      rfl
    rw [vonNeumann, unequalPairs_cons_cons, List.map_append, ← hshift,
      ← vonNeumann_eq_map_unequalPairs rest]
    by_cases hxy : x = y <;> simp [hxy]

/-- Settles O21: the recursion is the pair-by-pair rule, and there are n div 2 disjoint pairs. -/
theorem debiasKeepsFirstBitsOfUnequalPairs : Obligations.DebiasKeepsFirstBitsOfUnequalPairs :=
  fun bs => ⟨vonNeumann_eq_map_unequalPairs bs,
    by rw [vonNeumann_eq_map_unequalPairs, List.length_map], length_vonNeumann_le bs⟩

/-! ### The stored output -/

/-- At most half of LEN is emitted, so the output's length fits LEN (43 R252). -/
theorem State.length_vonNeumann_bits_lt (s : State) (a : BufId) :
    (vonNeumann (s.bits a)).length < 2 ^ 32 :=
  calc (vonNeumann (s.bits a)).length
    _ ≤ (s.bits a).length / 2 := length_vonNeumann_le _
    _ ≤ (s.bits a).length := Nat.div_le_self _ _
    _ = (s.len.get a).toNat := s.length_bits a
    _ < 2 ^ 32 := (s.len.get a).isLt

/-- Settles O20: DEBIAS always stores the debiased string, computed from the source as it stood before
the store, so an aliased destination makes no difference (30 R152). -/
theorem debiasStoresTheUnequalPairs : Obligations.DebiasStoresTheUnequalPairs := by
  intro a d s hm out n
  have hout : vonNeumann (s.bits a) = out := vonNeumann_eq_map_unequalPairs _
  have hlt : out.length < 2 ^ 32 := hout ▸ s.length_vonNeumann_bits_lt a
  refine ⟨encode_debias a d ▸ decode_encode _, (s.storeStream d out).complete, ?_,
    s.complete_storeStream_eq d out, ?_, fun i hi hword => ?_, fun x hx => ?_⟩
  · rw [exec_debias, hout]
  · rw [State.complete_bits, State.bits_storeStream_same hm d hlt]
  · exact State.bufBit_storeStream_padding hm d hi hword
  · exact s.readByte_storeStream_ne d out hx

end Machine
end Sys2Proof
end

section
/-!
The runs of a window (44 R277): they split it into maximal blocks of equal bits (O27), and the first
run of a string is closed by the first bit that differs.
-/

namespace Sys2Proof.Machine

/-! ### The blocks -/

theorem flatten_runs (win : BitString) : (runs win).flatten = win := List.flatten_splitBy _ _

theorem ne_nil_of_mem_runs {win r : BitString} (h : r ∈ runs win) : r ≠ [] :=
  List.ne_nil_of_mem_splitBy h

/-- Neighbouring bits of a run are equal, so all of them are. -/
theorem eq_of_mem_runs {win r : BitString} (h : r ∈ runs win) : ∀ x ∈ r, ∀ y ∈ r, x = y := by
  have hchain : r.IsChain (· = ·) :=
    (List.isChain_of_mem_splitBy h).imp fun x y hxy => by simpa using hxy
  exact fun x hx y hy =>
    (List.isChain_iff_pairwise.mp hchain).forall_of_forall (fun _ _ => rfl) hx hy

theorem getLast?_runs_ne_head? (win : BitString) {i : Nat} (hi : i + 1 < (runs win).length) :
    ((runs win).getD i []).getLast? ≠ ((runs win).getD (i + 1) []).head? := by
  unfold runs at hi ⊢
  obtain ⟨hlast, hhead, hne⟩ :=
    (List.isChain_getLast_head_splitBy (· == ·) win).getElem i hi
  rw [List.getD_eq_getElem _ _ hi, List.getD_eq_getElem _ _ (Nat.lt_of_succ_lt hi),
    List.getLast?_eq_some_getLast hlast, List.head?_eq_some_head hhead]
  simpa using hne

/-! ### Their lengths -/

theorem sum_runLengths (win : BitString) : (runLengths win).sum = win.length := by
  rw [runLengths, ← List.length_flatten, flatten_runs]

theorem one_le_of_mem_runLengths {win : BitString} {l : Nat} (h : l ∈ runLengths win) : 1 ≤ l := by
  obtain ⟨r, hr, rfl⟩ := List.mem_map.mp h
  exact List.length_pos_iff.mpr (ne_nil_of_mem_runs hr)

/-- Settles O27, from what splitting by equality does. -/
theorem runsSplitTheWindow : Obligations.RunsSplitTheWindow := fun win =>
  ⟨flatten_runs win, fun _ hr => ⟨ne_nil_of_mem_runs hr, eq_of_mem_runs hr⟩,
    fun _ => getLast?_runs_ne_head? win, sum_runLengths win⟩

/-! ### The first run -/

theorem splitBy_replicate {n : Nat} (hn : 0 < n) (b : Bool) :
    (List.replicate n b).splitBy (· == ·) = [List.replicate n b] :=
  List.splitBy_of_isChain (by simp; omega) (List.isChain_replicate_of_rel n (by simp))

theorem runLengths_replicate {n : Nat} (hn : 0 < n) (b : Bool) :
    runLengths (List.replicate n b) = [n] := by
  rw [runLengths, runs, splitBy_replicate hn, List.map_singleton, List.length_replicate]

/-- A block of equal bits before a bit that differs is a run of its own. -/
theorem runLengths_replicate_append {n : Nat} (hn : 0 < n) {b x : Bool} (hx : x ≠ b)
    (rest : BitString) :
    runLengths (List.replicate n b ++ x :: rest) = n :: runLengths (x :: rest) := by
  have hlast : ∀ y ∈ (List.replicate n b).getLast?, (y == x) = false := by
    intro y hy
    rw [List.eq_of_mem_replicate (List.mem_of_getLast? hy)]
    simpa using Ne.symm hx
  rw [runLengths, runs, List.splitBy_append_cons rest hlast, splitBy_replicate hn]
  simp [runLengths, runs]

end Sys2Proof.Machine
end

section
/-!
The accumulator datapath (44 R281) against the rules it computes (44 R273, R274, R275, R278, R280):
each bit's effect on each accumulator, then the whole window's.
-/

namespace Sys2Proof.Machine

/-! ### Counting into a list of counters -/

/-- The counters after one more was counted at each of the indices. -/
def histogram (counts : List Nat) (indices : List Nat) : List Nat :=
  indices.foldl (fun c i => c.modify i (· + 1)) counts

@[simp] theorem histogram_nil (counts : List Nat) : histogram counts [] = counts := rfl

@[simp] theorem histogram_cons (counts : List Nat) (i : Nat) (indices : List Nat) :
    histogram counts (i :: indices) = histogram (counts.modify i (· + 1)) indices := rfl

theorem getElem?_histogram (counts indices : List Nat) (k : Nat) :
    (histogram counts indices)[k]? = counts[k]?.map (· + indices.count k) := by
  induction indices generalizing counts with
  | nil => simp
  | cons i indices ih =>
    rw [histogram_cons, ih, List.getElem?_modify, List.count_cons]
    by_cases hik : i = k <;> cases counts[k]? <;> simp [hik, Nat.add_comm, Nat.add_left_comm]

theorem histogram_replicate_zero (n : Nat) (indices : List Nat) :
    histogram (List.replicate n 0) indices = (List.range n).map (fun k => indices.count k) := by
  apply List.ext_getElem?
  intro k
  rw [getElem?_histogram, List.getElem?_map]
  by_cases hk : k < n <;> simp [hk]

theorem sum_modify_succ (counts : List Nat) {i : Nat} (hi : i < counts.length) :
    (counts.modify i (· + 1)).sum = counts.sum + 1 := by
  induction counts generalizing i with
  | nil => simp at hi
  | cons c counts ih =>
    cases i with
    | zero => simp; omega
    | succ i => simp [ih (by simpa using hi)]; omega

/-- Every index counted adds one to one of the counters. -/
theorem sum_histogram (counts : List Nat) {indices : List Nat}
    (h : ∀ i ∈ indices, i < counts.length) :
    (histogram counts indices).sum = counts.sum + indices.length := by
  induction indices generalizing counts with
  | nil => rfl
  | cons i indices ih =>
    rw [List.forall_mem_cons] at h
    rw [histogram_cons, ih _ (by simpa using h.2), sum_modify_succ _ h.1, List.length_cons]
    omega

/-! ### One bit -/

@[simp] theorem Tally.step_index (t : Tally) (x : Bool) : (t.step x).index = t.index + 1 := rfl

@[simp] theorem Tally.step_runBit (t : Tally) (x : Bool) : (t.step x).runBit = x := rfl

theorem Tally.run_frame (t : Tally) (x : Bool) :
    (t.run x).ones = t.ones ∧ (t.run x).nib = t.nib ∧ (t.run x).f = t.f := by
  unfold Tally.run
  dsimp only
  split <;> exact ⟨rfl, rfl, rfl⟩

@[simp] theorem Tally.step_ones (t : Tally) (x : Bool) :
    (t.step x).ones = t.ones + x.toNat := by
  obtain ⟨hones, -, -⟩ := (t.count x).run_frame x
  exact hones

@[simp] theorem Tally.step_nib (t : Tally) (x : Bool) :
    (t.step x).nib = t.nib.shiftConcat x := by
  obtain ⟨-, hnib, -⟩ := (t.count x).run_frame x
  exact hnib

@[simp] theorem Tally.step_f (t : Tally) (x : Bool) :
    (t.step x).f =
      if t.index % 4 = 3 then t.f.modify (t.nib.shiftConcat x).toNat (· + 1) else t.f := by
  obtain ⟨-, -, hf⟩ := (t.count x).run_frame x
  exact hf

/-- Bit 0 of the window, and a bit of the run's value, make the run one longer. -/
theorem Tally.step_sameRun {t : Tally} {x : Bool} (h : t.index = 0 ∨ x = t.runBit) :
    (t.step x).runLen = t.runLen + 1 ∧ (t.step x).runb = t.runb ∧
      (t.step x).longest = t.longest := by
  have hsame : ¬ (0 < (t.count x).index ∧ x ≠ (t.count x).runBit) := by
    rintro ⟨hpos, hne⟩
    exact h.elim hpos.ne' hne
  unfold Tally.step Tally.run
  rw [if_neg hsame]
  exact ⟨rfl, rfl, rfl⟩

/-- A bit of the other value closes the run and is the first of the next. -/
theorem Tally.step_newRun {t : Tally} {x : Bool} (hpos : 0 < t.index) (hx : x ≠ t.runBit) :
    (t.step x).runLen = 1 ∧ (t.step x).runb = t.close.runb ∧
      (t.step x).longest = t.close.longest := by
  have hnew : 0 < (t.count x).index ∧ x ≠ (t.count x).runBit := ⟨hpos, hx⟩
  unfold Tally.step Tally.run
  rw [if_pos hnew]
  exact ⟨rfl, rfl, rfl⟩

/-! ### A string of bits -/

theorem Tally.foldl_ones (win : BitString) (t : Tally) :
    (win.foldl Tally.step t).ones = t.ones + win.count true := by
  induction win generalizing t with
  | nil => rfl
  | cons x win ih =>
    rw [List.foldl_cons, ih, Tally.step_ones, List.count_cons]
    cases x
    · simp
    · simp only [Bool.toNat_true, beq_self_eq_true, if_true]
      omega

/-- After four bits the shift register holds their numeral, whatever it held before (44 R274). -/
theorem toNat_shiftConcat_four (nib : BitVec 4) (a b c d : Bool) :
    ((((nib.shiftConcat a).shiftConcat b).shiftConcat c).shiftConcat d).toNat =
      8 * a.toNat + 4 * b.toNat + 2 * c.toNat + d.toNat := by
  revert nib a b c d
  decide

/-- From a nibble boundary on, each complete nibble is counted at its value (44 R274). -/
theorem Tally.foldl_f : ∀ (win : BitString) (t : Tally), t.index % 4 = 0 →
    (win.foldl Tally.step t).f = histogram t.f (nibbles win)
  | a :: b :: c :: d :: rest, t, h => by
    have h0 : t.index % 4 ≠ 3 := by omega
    have h1 : (t.index + 1) % 4 ≠ 3 := by omega
    have h2 : (t.index + 1 + 1) % 4 ≠ 3 := by omega
    have h3 : (t.index + 1 + 1 + 1) % 4 = 3 := by omega
    simp only [List.foldl_cons, nibbles, histogram_cons]
    rw [Tally.foldl_f rest _ (by simp only [Tally.step_index]; omega)]
    simp only [Tally.step_f, Tally.step_index, Tally.step_nib, if_neg h0, if_neg h1, if_neg h2,
      if_pos h3, toNat_shiftConcat_four]
  | [], _, _ => rfl
  | [_], t, h | [_, _], t, h | [_, _, _], t, h => by simp [nibbles, Nat.add_mod, h]

/-- The index of the counter a run of length `l` is counted in (44 R278, R281). -/
def runBucket (l : Nat) : Nat := min l 6 - 1

/-- The open run stands before the bits still to come; every run of the two together is counted in
its bucket and in the longest-run register (44 R278, R280). -/
theorem Tally.foldl_close (win : BitString) (t : Tally) (hpos : 0 < t.index)
    (hlen : 0 < t.runLen) :
    (win.foldl Tally.step t).close.runb =
      histogram t.runb ((runLengths (List.replicate t.runLen t.runBit ++ win)).map runBucket) ∧
    (win.foldl Tally.step t).close.longest =
      (runLengths (List.replicate t.runLen t.runBit ++ win)).foldl max t.longest := by
  induction win generalizing t with
  | nil =>
    rw [List.append_nil, runLengths_replicate hlen]
    exact ⟨rfl, rfl⟩
  | cons x win ih =>
    by_cases hx : x = t.runBit
    · obtain ⟨hrunLen, hrunb, hlongest⟩ := Tally.step_sameRun (.inr hx)
      have hblock : List.replicate t.runLen t.runBit ++ x :: win =
          List.replicate (t.runLen + 1) x ++ win := by
        rw [List.replicate_succ', List.append_assoc, hx]
        rfl
      rw [hblock, ← hrunLen, ← hrunb, ← hlongest]
      exact ih (t.step x) (Nat.succ_pos _) (by omega)
    · obtain ⟨hrunLen, hrunb, hlongest⟩ := Tally.step_newRun hpos hx
      have hrest := ih (t.step x) (Nat.succ_pos _) (by omega)
      rw [hrunLen, hrunb, hlongest] at hrest
      rw [runLengths_replicate_append hlen hx]
      exact hrest

/-! ### A window -/

theorem windowTests_ones (win : BitString) : (windowTests win).ones = win.count true := by
  show (win.foldl Tally.step (Tally.start win)).ones = _
  rw [Tally.foldl_ones]
  exact Nat.zero_add _

theorem windowTests_f_eq_histogram (win : BitString) :
    (windowTests win).f = histogram (List.replicate 16 0) (nibbles win) :=
  Tally.foldl_f win (Tally.start win) rfl

theorem windowTests_f (win : BitString) :
    (windowTests win).f = (List.range 16).map (nibbleCount win) := by
  rw [windowTests_f_eq_histogram, histogram_replicate_zero]
  rfl

theorem windowTests_s (win : BitString) :
    (windowTests win).s = ((List.range 16).map (fun v => nibbleCount win v ^ 2)).sum := by
  show pokerS (windowTests win).f = _
  rw [windowTests_f, pokerS, List.map_map]
  simp only [Function.comp_def, Nat.pow_two]

/-- Both run accumulators of a window, from its runs: the first bit opens the first run. -/
theorem windowTests_runs {win : BitString} (h : win ≠ []) :
    (windowTests win).runb =
        histogram (List.replicate 6 0) ((runLengths win).map runBucket) ∧
      (windowTests win).longest = (runLengths win).foldl max 0 := by
  obtain ⟨x, rest, rfl⟩ := List.exists_cons_of_ne_nil h
  obtain ⟨hrunLen, hrunb, hlongest⟩ :=
    Tally.step_sameRun (t := Tally.start (x :: rest)) (x := x) (.inl rfl)
  have hclose := Tally.foldl_close rest ((Tally.start (x :: rest)).step x) Nat.one_pos (by omega)
  rw [hrunLen, hrunb, hlongest] at hclose
  exact hclose

/-- The bucket of a run, by its index and by its length (44 R278). -/
theorem runBucket_eq_iff {l k : Nat} (hl : 1 ≤ l) (hk : k < 6) :
    runBucket l = k ↔ if k + 1 = 6 then 6 ≤ l else l = k + 1 := by
  unfold runBucket
  split <;> omega

theorem count_map_runBucket (win : BitString) {k : Nat} (hk : k < 6) :
    ((runLengths win).map runBucket).count k = bucketCount win (k + 1) := by
  rw [List.count, List.countP_map, bucketCount]
  refine List.countP_congr fun l hl => ?_
  have hiff := runBucket_eq_iff (one_le_of_mem_runLengths hl) hk
  split at hiff <;> simp_all

theorem windowTests_runb {win : BitString} (h : win ≠ []) :
    (windowTests win).runb = (List.range 6).map (fun k => bucketCount win (k + 1)) := by
  rw [(windowTests_runs h).1, histogram_replicate_zero]
  exact List.map_congr_left fun k hk => count_map_runBucket win (List.mem_range.mp hk)

theorem windowTests_longest {win : BitString} (h : win ≠ []) :
    (windowTests win).longest = longestRun win := by
  rw [(windowTests_runs h).2, List.foldl_eq_foldr]
  rfl

end Sys2Proof.Machine
end

section
/-!
The bounds of a window's counts (44 R284), which let every count fit its register (O30), and the
exact poker comparator (O29).
-/

namespace Sys2Proof.Machine

/-! ### Ones and runs -/

theorem longestRun_le (win : BitString) : longestRun win ≤ win.length := by
  refine List.max_le_of_forall_le _ _ fun l hl => ?_
  rw [← sum_runLengths]
  exact List.le_sum_of_mem hl

theorem le_longestRun {win : BitString} {l : Nat} (hl : l ∈ runLengths win) :
    l ≤ longestRun win :=
  List.le_max_of_le hl le_rfl

theorem one_le_longestRun {win : BitString} (h : win ≠ []) : 1 ≤ longestRun win := by
  have hne : runLengths win ≠ [] := by simpa [runLengths, runs] using h
  obtain ⟨l, hl⟩ := List.exists_mem_of_ne_nil _ hne
  exact (one_le_of_mem_runLengths hl).trans (le_longestRun hl)

theorem length_runLengths_le (win : BitString) : (runLengths win).length ≤ win.length := by
  rw [← sum_runLengths]
  exact List.length_le_sum_of_one_le _ fun l hl => one_le_of_mem_runLengths hl

theorem bucketCount_le (win : BitString) (k : Nat) : bucketCount win k ≤ win.length :=
  List.countP_le_length.trans (length_runLengths_le win)

/-- Every run is counted in one bucket (44 R278). -/
theorem sum_windowTests_runb {win : BitString} (h : win ≠ []) :
    (windowTests win).runb.sum = (runLengths win).length := by
  have hbucket : ∀ i ∈ (runLengths win).map runBucket, i < (List.replicate 6 0).length := by
    rw [List.forall_mem_map]
    intro l _
    rw [List.length_replicate, runBucket]
    omega
  rw [(windowTests_runs h).1, sum_histogram _ hbucket]
  simp

/-! ### Nibbles -/

theorem length_nibbles : ∀ win : BitString, (nibbles win).length = win.length / 4
  | _ :: _ :: _ :: _ :: rest => by
    simp only [nibbles, List.length_cons, length_nibbles rest]
    omega
  | [] | [_] | [_, _] | [_, _, _] => by simp [nibbles]

theorem lt_of_mem_nibbles : ∀ {win : BitString} {v : Nat}, v ∈ nibbles win → v < 16
  | a :: b :: c :: d :: rest, v, h => by
    rcases List.mem_cons.mp h with rfl | h
    · have := a.toNat_le
      have := b.toNat_le
      have := c.toNat_le
      have := d.toNat_le
      omega
    · exact lt_of_mem_nibbles h
  | [], _, h | [_], _, h | [_, _], _, h | [_, _, _], _, h => by simp [nibbles] at h

theorem nibbleCount_le (win : BitString) (v : Nat) : nibbleCount win v ≤ win.length / 4 :=
  List.count_le_length.trans (length_nibbles win).le

/-- "Σ f(i) = 5000": every nibble has one of the sixteen values (44 R274). -/
theorem sum_windowTests_f (win : BitString) : (windowTests win).f.sum = win.length / 4 := by
  rw [windowTests_f_eq_histogram, sum_histogram _ fun v hv => by
    simpa using lt_of_mem_nibbles hv, length_nibbles]
  simp

/-! ### The sum of the squares -/

/-- The tangent bound behind R284's minimum: `(c − 312)(c − 313)` is never negative at an integer,
so the squares are least when every count is 312 or 313. -/
theorem sq_tangent_bound (c : Nat) : 625 * c ≤ c * c + 312 * 313 := by
  have hprod : (0 : Int) ≤ ((c : Int) - 312) * ((c : Int) - 313) := by
    rcases Nat.lt_or_ge c 313 with h | h
    · exact mul_nonneg_of_nonpos_of_nonpos (by omega) (by omega)
    · exact mul_nonneg (by omega) (by omega)
  zify
  linarith

theorem pokerS_cons (c : Nat) (f : List Nat) : pokerS (c :: f) = c * c + pokerS f := rfl

theorem pokerS_le {f : List Nat} {n : Nat} (h : ∀ c ∈ f, c ≤ n) : pokerS f ≤ n * f.sum := by
  induction f with
  | nil => exact Nat.zero_le _
  | cons c f ih =>
    rw [List.forall_mem_cons] at h
    rw [pokerS_cons, List.sum_cons, Nat.mul_add]
    exact Nat.add_le_add (Nat.mul_le_mul_right c h.1) (ih h.2)

theorem le_pokerS (f : List Nat) : 625 * f.sum ≤ pokerS f + 312 * 313 * f.length := by
  induction f with
  | nil => exact Nat.zero_le _
  | cons c f ih =>
    have := sq_tangent_bound c
    rw [pokerS_cons, List.sum_cons, List.length_cons]
    omega

section Window

variable {win : BitString} (hwin : win.length = 20000)
include hwin

theorem window_ne_nil : win ≠ [] :=
  List.ne_nil_of_length_pos (by omega)

theorem windowTests_ones_le : (windowTests win).ones ≤ 20000 := by
  rw [windowTests_ones, ← hwin]
  exact List.count_le_length

theorem windowTests_f_le : ∀ c ∈ (windowTests win).f, c ≤ 5000 := by
  rw [windowTests_f, List.forall_mem_map]
  intro v _
  exact (nibbleCount_le win v).trans (by omega)

theorem windowTests_s_bounds : 1562504 ≤ (windowTests win).s ∧ (windowTests win).s ≤ 25000000 := by
  have hsum := sum_windowTests_f win
  have hlow := le_pokerS (windowTests win).f
  have hhigh := pokerS_le (windowTests_f_le hwin)
  have hlen : (windowTests win).f.length = 16 := (length_tally win).1
  rw [hsum, hlen, hwin] at hlow
  rw [hsum, hwin] at hhigh
  have hs : (windowTests win).s = pokerS (windowTests win).f := rfl
  omega

theorem windowTests_longest_bounds :
    1 ≤ (windowTests win).longest ∧ (windowTests win).longest ≤ 20000 := by
  have hne := window_ne_nil hwin
  rw [windowTests_longest hne]
  exact ⟨one_le_longestRun hne, hwin ▸ longestRun_le win⟩

theorem windowTests_runb_le : ∀ c ∈ (windowTests win).runb, c ≤ 20000 := by
  rw [windowTests_runb (window_ne_nil hwin), List.forall_mem_map]
  intro k _
  exact hwin ▸ bucketCount_le win (k + 1)

theorem sum_windowTests_runb_le : (windowTests win).runb.sum ≤ 20000 := by
  rw [sum_windowTests_runb (window_ne_nil hwin), ← hwin]
  exact length_runLengths_le win

end Window

/-- Settles O30: the counters' sums are the numbers of nibbles and of runs, and the squares' sum
lies between its tangent and its largest count times that sum. -/
theorem windowCountsStayInTheirWidths : Obligations.WindowCountsStayInTheirWidths := by
  intro win hwin r
  obtain ⟨hsLow, hsHigh⟩ := windowTests_s_bounds hwin
  obtain ⟨hlongLow, hlongHigh⟩ := windowTests_longest_bounds hwin
  have hsum : r.f.sum = 5000 := (sum_windowTests_f win).trans (by rw [hwin])
  exact ⟨windowTests_ones_le hwin, hsum, windowTests_f_le hwin, hsLow, hsHigh, hlongLow, hlongHigh,
    windowTests_runb_le hwin, sum_windowTests_runb_le hwin⟩

/-! ### The poker comparator -/

theorem pokerX_eq (s : Nat) : pokerX s = (16 * (s : Rat) - 25000000) / 5000 := by
  unfold pokerX
  ring

theorem pokerPass_iff (s : Nat) : pokerPass s = true ↔ 1563176 ≤ s ∧ s ≤ 1576928 := by
  simp [pokerPass]

theorem lt_pokerX_iff (s : Nat) : (216 / 100 : Rat) < pokerX s ↔ 25010800 < 16 * s := by
  rw [pokerX_eq, ← Nat.cast_lt (α := Rat)]
  push_cast
  constructor <;> intro h <;> linarith

theorem pokerX_lt_iff (s : Nat) : pokerX s < (4617 / 100 : Rat) ↔ 16 * s < 25230850 := by
  rw [pokerX_eq, ← Nat.cast_lt (α := Rat)]
  push_cast
  constructor <;> intro h <;> linarith

/-- Settles O29: each bound on X is a bound on 16·S, and so one on S. -/
theorem pokerComparatorIsExact : Obligations.PokerComparatorIsExact := by
  refine ⟨fun s => ?_, by norm_num [pokerX], by decide⟩
  have hlow : 25010800 < 16 * s ↔ 1563176 ≤ s := by omega
  have hhigh : 16 * s < 25230850 ↔ s ≤ 1576928 := by omega
  refine ⟨?_, pokerX_eq s, lt_pokerX_iff s, hlow, pokerX_lt_iff s, hhigh, rfl⟩
  rw [pokerPass_iff, lt_pokerX_iff, pokerX_lt_iff, hlow, hhigh]

end Sys2Proof.Machine
end

section
/-!
The record of a window (44 R282, 10 R52): its words at their places, the bits of FLAGS, and with
them the datapath's record against the battery's rules (O26).
-/

namespace Sys2Proof.Machine

/-! ### The words of a record -/

/-- The parts of a record: FLAGS and three totals, the buckets, the nibble counts, zeros. -/
theorem WindowRecord.words_eq (r : WindowRecord) :
    r.words = [flagsValue r.flagBits, r.ones, r.s, r.longest].map (BitVec.ofNat 32) ++
      (r.runb.map (BitVec.ofNat 32) ++ (r.f.map (BitVec.ofNat 32) ++ List.replicate 6 0)) := by
  simp only [WindowRecord.words, List.map_append, List.append_assoc]

section Words

variable {r : WindowRecord} (hrunb : r.runb.length = 6) (hf : r.f.length = 16)
include hrunb

theorem WindowRecord.words_runb {k : Nat} (hk : k < 6) :
    r.words.getD (4 + k) 0 = BitVec.ofNat 32 (r.runb.getD k 0) := by
  rw [r.words_eq, List.getD_append_right _ _ _ _ (by simp),
    List.getD_append _ _ _ _ (by simp; omega)]
  simp [hrunb, hk]

include hf

theorem WindowRecord.words_f {v : Nat} (hv : v < 16) :
    r.words.getD (10 + v) 0 = BitVec.ofNat 32 (r.f.getD v 0) := by
  rw [r.words_eq, List.getD_append_right _ _ _ _ (by simp; omega),
    List.getD_append_right _ _ _ _ (by simp; omega), List.getD_append _ _ _ _ (by simp; omega)]
  simp [hrunb, hf, hv, show 10 + v - 4 - 6 = v by omega]

theorem WindowRecord.words_rest {i : Nat} (hi : 26 ≤ i) : r.words.getD i 0 = 0 := by
  rw [r.words_eq, List.getD_append_right _ _ _ _ (by simp; omega),
    List.getD_append_right _ _ _ _ (by simp; omega),
    List.getD_append_right _ _ _ _ (by simp; omega), List.getD_eq_getElem?_getD,
    List.getElem?_getD_replicate_default_eq]

end Words

/-! ### FLAGS -/

theorem testBit_flagsValue (bs : BitString) (j : Nat) :
    (flagsValue bs).testBit j = bs.getD j false := by
  induction bs generalizing j with
  | nil => simp [flagsValue]
  | cons b bs ih =>
    cases j with
    | zero => cases b <;> simp [flagsValue, Nat.testBit_zero]
    | succ j =>
      have hhalf : flagsValue (b :: bs) / 2 = flagsValue bs := by
        have := b.toNat_le
        simp only [flagsValue]
        omega
      rw [Nat.testBit_succ, hhalf, ih, List.getD_cons_succ]

/-- Bit `j` of a word that holds a string of flags. -/
theorem getLsbD_flagsValue {bs : BitString} (h : bs.length ≤ 32) (j : Nat) :
    (BitVec.ofNat 32 (flagsValue bs)).getLsbD j = bs.getD j false := by
  rw [BitVec.getLsbD_ofNat, testBit_flagsValue]
  by_cases hj : j < 32
  · simp [hj]
  · rw [List.getD_eq_default _ _ (by omega)]
    simp [hj]

/-- `RUNB_PASS[k]` for the bounds `lo` and `hi`, from the runs (44 R279). -/
def bucketWithin (win : BitString) (lo k hi : Nat) : Bool :=
  decide (lo ≤ bucketCount win k ∧ bucketCount win k ≤ hi)

theorem windowTests_runbPass {win : BitString} (h : win ≠ []) :
    runbPass (windowTests win).runb =
      [bucketWithin win 2315 1 2685, bucketWithin win 1114 2 1386, bucketWithin win 527 3 723,
        bucketWithin win 240 4 384, bucketWithin win 103 5 209, bucketWithin win 103 6 209] := by
  rw [windowTests_runb h]
  simp only [bucketWithin, Bool.decide_and]
  rfl

theorem windowTests_runsPass {win : BitString} (h : win ≠ []) :
    runsPass (windowTests win).runb =
      (bucketWithin win 2315 1 2685 && bucketWithin win 1114 2 1386 &&
        bucketWithin win 527 3 723 && bucketWithin win 240 4 384 &&
        bucketWithin win 103 5 209 && bucketWithin win 103 6 209) := by
  rw [runsPass, windowTests_runbPass h]
  simp [Bool.and_assoc]

/-- FLAGS holds a window's verdicts where R282 puts them. -/
theorem windowTests_flag {win : BitString} (h : win ≠ []) (j : Nat) :
    ((windowTests win).words.getD 0 0).getLsbD j =
      [monoPass (windowTests win).ones, pokerPass (windowTests win).s,
        runsPass (windowTests win).runb, longPass (windowTests win).longest,
        (windowTests win).winPass,
        bucketWithin win 2315 1 2685, bucketWithin win 1114 2 1386, bucketWithin win 527 3 723,
        bucketWithin win 240 4 384, bucketWithin win 103 5 209,
        bucketWithin win 103 6 209].getD j false := by
  have hbits : (windowTests win).flagBits = _ ++ _ :=
    congrArg (List.append _) (windowTests_runbPass h)
  show (BitVec.ofNat 32 (flagsValue (windowTests win).flagBits)).getLsbD j = _
  rw [getLsbD_flagsValue (by rw [hbits]; simp), hbits]
  rfl

/-! ### The counts in their words -/

/-- Every count of a window fits a word (44 R284). -/
theorem toNat_ofNat_count {n : Nat} (hn : n ≤ 25000000) : (BitVec.ofNat 32 n).toNat = n := by
  rw [BitVec.toNat_ofNat, Nat.mod_eq_of_lt (by omega)]

theorem windowTests_word_bucket {win : BitString} (hwin : win.length = 20000) {k : Nat}
    (hk1 : 1 ≤ k) (hk6 : k ≤ 6) :
    ((windowTests win).words.getD (3 + k) 0).toNat = bucketCount win k := by
  obtain ⟨k, rfl⟩ := Nat.exists_eq_add_of_le' hk1
  have hk : k < 6 := by omega
  have hle := bucketCount_le win (k + 1)
  rw [show 3 + (k + 1) = 4 + k by omega, WindowRecord.words_runb (length_tally win).2 hk,
    windowTests_runb (window_ne_nil hwin)]
  simpa [hk] using toNat_ofNat_count (n := bucketCount win (k + 1)) (by omega)

theorem windowTests_word_nibble {win : BitString} (hwin : win.length = 20000) {v : Nat}
    (hv : v < 16) : ((windowTests win).words.getD (10 + v) 0).toNat = nibbleCount win v := by
  have hle := nibbleCount_le win v
  rw [WindowRecord.words_f (length_tally win).2 (length_tally win).1 hv, windowTests_f]
  simpa [hv] using toNat_ofNat_count (n := nibbleCount win v) (by omega)

/-- Settles O26: the statistics by the datapath's lemmas, FLAGS bit by bit, and each count in its
word. -/
theorem datapathEqualsTheBatteryRules : Obligations.DatapathEqualsTheBatteryRules := by
  intro win hwin r word flag within ones sq
  have hne := window_ne_nil hwin
  have hones : r.ones = ones := windowTests_ones win
  have hs : r.s = sq := windowTests_s win
  have hlongest : r.longest = longestRun win := windowTests_longest hne
  obtain ⟨hflen, hrlen⟩ := length_tally win
  have hflag := windowTests_flag hne
  refine ⟨⟨hones, windowTests_f win, hs, windowTests_runb hne, hlongest⟩,
    ⟨?_, ?_, ?_, ?_, ?_, (hflag 4).symm, hflag 5, hflag 6, hflag 7, hflag 8, hflag 9, hflag 10,
      fun j hj => (hflag j).trans (List.getD_eq_default _ _ hj)⟩, ?_, ?_, ?_,
    fun _ => windowTests_word_bucket hwin, fun _ => windowTests_word_nibble hwin,
    fun _ hi _ => WindowRecord.words_rest hrlen hflen hi, length_windowTests_words win⟩
  · rw [← hones, Bool.decide_and]
    exact hflag 0
  · rw [← hs, Bool.decide_and]
    exact hflag 1
  · exact (hflag 2).trans (windowTests_runsPass hne)
  · rw [← hlongest]
    exact hflag 3
  · simp only [flag, word, r, hflag]
    rfl
  · exact (toNat_ofNat_count ((windowTests_ones_le hwin).trans (by decide))).trans hones
  · exact (toNat_ofNat_count (windowTests_s_bounds hwin).2).trans hs
  · exact (toNat_ofNat_count ((windowTests_longest_bounds hwin).2.trans (by decide))).trans hlongest

end Sys2Proof.Machine
end

section
/-!
VALIDATE (44_validate.md section 4): one equation for both of its outcomes, with its frame (O22);
validations of different buffers commute (O31); no window can pass, so no buffer does (O28).
-/

namespace Sys2Proof

theorem encode_validate (a : BufId) :
    encode (.validate a) = BitVec.ofNat 32 (0x04 + 0x100 * Machine.bufIndex a) :=
  assemble_eq_ofNat 0x04 a.field 0 0

namespace Machine

/-! ### Both outcomes in one equation -/

/-- The number of failing windows of a stream (44 R285). -/
def failCount (bs : BitString) : Nat := (windowResults bs).countP (fun r => !r.winPass)

/-- VSTAT of a validation of a stream (44 R272, R285, R287). -/
def streamVerdict (bs : BitString) : Verdict :=
  if bs.length < windowBits then ⟨true, false, true⟩ else ⟨true, failCount bs == 0, false⟩

/-- An insufficient stream has no window (44 R272). -/
theorem windowResults_of_short {bs : BitString} (h : bs.length < windowBits) :
    windowResults bs = [] := by
  rw [windowResults, Nat.div_eq_of_lt h]
  rfl

/-- A validation's writes are functions of the stream alone: an insufficient stream writes no
record and counts no window. -/
theorem State.validateBuffer_eq (s : State) (b : BufId) :
    s.validateBuffer b =
      (s.writeRecords b (windowResults (s.bits b))).setResult b (streamVerdict (s.bits b))
        (s.len.get b) (BitVec.ofNat 32 ((s.bits b).length / windowBits))
        (BitVec.ofNat 32 (failCount (s.bits b))) := by
  by_cases h : (s.bits b).length < windowBits
  · rw [s.validateBuffer_insufficient b (by simpa using h), streamVerdict, if_pos h, failCount,
      windowResults_of_short h, Nat.div_eq_of_lt h]
    rfl
  · rw [s.validateBuffer_tested b (by simpa using h), streamVerdict, if_neg h, length_windowResults]
    rfl

/-- Settles O22: decoding, the frame and the result registers from the one equation, the records and
the rest of memory from what `writeRecords` writes. -/
theorem validateWritesVerdictAndRecords : Obligations.ValidateWritesVerdictAndRecords := by
  intro a s hm hlen bs nw fails
  have heq := s.validateBuffer_eq a
  have hvstat : (s.validateBuffer a).vstat.get a = streamVerdict bs := by
    rw [heq]; exact PerBuf.get_set_same _ _ _
  refine ⟨encode_validate a ▸ decode_encode _, (s.validateBuffer a).complete, rfl, ?_,
    fun hshort => ⟨?_, ?_⟩, fun hlong => ?_, fun w hw i hi => ?_, fun x hx => ?_⟩
  · rw [State.complete_vstat, hvstat, heq]
    rfl
  · rw [State.complete_vstat, hvstat]
    exact if_pos hshort
  · rw [State.complete_mem, heq, windowResults_of_short hshort]
    rfl
  · rw [State.complete_vstat, hvstat]
    exact if_neg hlong.not_gt
  · rw [State.complete_readWord, heq]
    exact State.readWord_writeRecords hm a bs hw hi
  · rw [State.complete_readByte]
    exact s.readByte_validateBuffer_ne a (by simpa [nw, bs, windowBits] using hx)

/-! ### Two validations -/

/-- Window records of different buffers lie apart, so their writes may be swapped (44 R286). -/
theorem State.writeRecords_comm {s : State} (hm : s.mem.wf) {a b : BufId} (hab : a ≠ b)
    {xs ys : BitString} (hx : xs.length ≤ 2 ^ 24) (hy : ys.length ≤ 2 ^ 24) :
    (s.writeRecords a (windowResults xs)).writeRecords b (windowResults ys) =
      (s.writeRecords b (windowResults ys)).writeRecords a (windowResults xs) := by
  refine congrArg (fun m => { s with mem := m }) (Memory.writeWords_comm hm _ _ ?_)
  rw [length_flatMap_windowResults, length_flatMap_windowResults, windowBits]
  obtain ⟨-, -, hspread⟩ := wresBase_spread a b
  rcases hspread with h | h | h
  · exact absurd h hab
  · left; omega
  · right; omega

theorem State.writeRecords_setResult (s : State) (a b : BufId) (v : Verdict) (n nwin nfail : Word)
    (rs : List WindowRecord) :
    (s.setResult a v n nwin nfail).writeRecords b rs =
      (s.writeRecords b rs).setResult a v n nwin nfail := rfl

theorem State.setResult_comm (s : State) {a b : BufId} (hab : a ≠ b) (v v' : Verdict)
    (n nwin nfail n' nwin' nfail' : Word) :
    (s.setResult a v n nwin nfail).setResult b v' n' nwin' nfail' =
      (s.setResult b v' n' nwin' nfail').setResult a v n nwin nfail := by
  unfold State.setResult
  dsimp only
  rw [PerBuf.set_set_comm s.vstat _ _ hab.symm, PerBuf.set_set_comm s.vn _ _ hab.symm,
    PerBuf.set_set_comm s.vnwin _ _ hab.symm, PerBuf.set_set_comm s.vnfail _ _ hab.symm]

/-- Settles O31: neither validation changes the other's stream (44 R285), and their writes go to
different registers and records. -/
theorem validationsCommute : Obligations.ValidationsCommute := by
  intro s a b hs hab
  have hrecords := State.writeRecords_comm hs.memory hab (xs := s.bits a) (ys := s.bits b)
    (by simpa using hs.len_le a) (by simpa using hs.len_le b)
  rw [(s.validateBuffer a).validateBuffer_eq b, (s.validateBuffer b).validateBuffer_eq a,
    s.bits_validateBuffer a b (hs.len_le b), s.bits_validateBuffer b a (hs.len_le a),
    State.validateBuffer_len, State.validateBuffer_len, s.validateBuffer_eq a,
    s.validateBuffer_eq b, State.writeRecords_setResult, State.writeRecords_setResult, hrecords,
    State.setResult_comm _ hab]

/-! ### No window passes -/

/-- A run is in bucket `k` (44 R278). -/
def inBucket (k l : Nat) : Bool := if k = 6 then decide (6 ≤ l) else l == k

theorem bucketCount_eq (win : BitString) (k : Nat) :
    bucketCount win k = (runLengths win).countP (inBucket k) := rfl

/-- A run of at most 25 bits is no longer than the most its bucket admits. -/
theorem le_bucketMost {l : Nat} (h : l ≤ 25) :
    l ≤ (if inBucket 1 l then 1 else 0) + 2 * (if inBucket 2 l then 1 else 0) +
      3 * (if inBucket 3 l then 1 else 0) + 4 * (if inBucket 4 l then 1 else 0) +
      5 * (if inBucket 5 l then 1 else 0) + 25 * (if inBucket 6 l then 1 else 0) := by
  interval_cases l <;> decide

theorem sum_le_bucketMost {ls : List Nat} (h : ∀ l ∈ ls, l ≤ 25) :
    ls.sum ≤ ls.countP (inBucket 1) + 2 * ls.countP (inBucket 2) + 3 * ls.countP (inBucket 3) +
      4 * ls.countP (inBucket 4) + 5 * ls.countP (inBucket 5) + 25 * ls.countP (inBucket 6) := by
  induction ls with
  | nil => exact Nat.zero_le _
  | cons l ls ih =>
    rw [List.forall_mem_cons] at h
    have hl := le_bucketMost h.1
    have hsum := ih h.2
    simp only [List.sum_cons, List.countP_cons]
    omega

/-- 44 R288: the six upper bounds leave room for at most 15,432 bits. -/
theorem runsPass_and_longPass_eq_false {win : BitString} (hwin : win.length = 20000) :
    (runsPass (windowTests win).runb && longPass (windowTests win).longest) = false := by
  have hne := window_ne_nil hwin
  rw [Bool.eq_false_iff]
  intro hpass
  rw [Bool.and_eq_true, windowTests_runsPass hne, windowTests_longest hne] at hpass
  obtain ⟨hruns, hlong⟩ := hpass
  simp only [Bool.and_eq_true, bucketWithin, decide_eq_true_eq] at hruns
  obtain ⟨⟨⟨⟨⟨⟨-, h1⟩, -, h2⟩, -, h3⟩, -, h4⟩, -, h5⟩, -, h6⟩ := hruns
  have hlongest : longestRun win < 26 := by simpa [longPass] using hlong
  have hsum := sum_le_bucketMost (ls := runLengths win) fun l hl =>
    Nat.le_of_lt_succ ((le_longestRun hl).trans_lt hlongest)
  rw [sum_runLengths, hwin] at hsum
  simp only [← bucketCount_eq] at hsum
  omega

theorem winPass_eq_false {win : BitString} (hwin : win.length = 20000) :
    (windowTests win).winPass = false := by
  rw [WindowRecord.winPass, Bool.and_assoc, runsPass_and_longPass_eq_false hwin, Bool.and_false]

/-- Every tested window fails. -/
theorem failCount_eq (bs : BitString) : failCount bs = bs.length / windowBits := by
  rw [failCount, ← length_windowResults, List.countP_eq_length]
  intro r hr
  obtain ⟨w, hw, rfl⟩ := mem_windowResults hr
  rw [winPass_eq_false (length_window hw)]
  rfl

theorem streamVerdict_passed (bs : BitString) : (streamVerdict bs).passed = false := by
  unfold streamVerdict
  split
  · rfl
  · next hlong =>
    have hpos : 0 < failCount bs := by
      rw [failCount_eq]
      exact Nat.div_pos (Nat.le_of_not_lt hlong) (by decide)
    exact beq_false_of_ne hpos.ne'

/-- Settles O28: a window fails the runs or the long-run test, so every window of a buffer fails. -/
theorem noWindowCanPass : Obligations.NoWindowCanPass := by
  refine ⟨fun win hwin => ⟨runsPass_and_longPass_eq_false hwin, winPass_eq_false hwin⟩,
    fun a s => ⟨(s.validateBuffer a).complete, rfl, ?_, ?_⟩⟩
  · rw [State.complete_vstat, s.validateBuffer_eq a, State.setResult_vstat, PerBuf.get_set_same,
      streamVerdict_passed]
  · rw [State.complete_vnfail, State.complete_vnwin, s.validateBuffer_eq a, State.setResult_vnfail,
      State.setResult_vnwin, PerBuf.get_set_same, PerBuf.get_set_same, failCount_eq]

end Machine
end Sys2Proof
end

section
/-!
Acceptance, the engine's turn and the housekeeping commands (45 R320, R321, R327, R328): O7, O15,
O23, O34, O38. First what the engine's turn is while a word is latched, and the three ends of a CMD
write; the statements read off these.
-/

namespace Sys2Proof.Machine

/-! ### The engine's turn with a word latched -/

/-- The engine's turn is the latched command's whole step (45 R321). -/
theorem step_of_engine_command {s : State} {w : Word} {i : Instr} (h : s.nextTurn = .engine)
    (hp : s.pend = some w) (hd : decode w = .ok i) : step s = exec i s.takeTurn := by
  rw [step, h]
  simp only [State.engineTurn, State.fetch_command (s := s.takeTurn) hp hd]

theorem State.takeTurn_of_sched_nil {s : State} (h : s.sched = []) : s.takeTurn = s := by
  rw [State.takeTurn, h, List.tail_nil, ← h]

theorem State.takeTurn_of_sched_cons {s : State} {turn : Turn} {ts : List Turn}
    (h : s.sched = turn :: ts) : s.takeTurn = { s with sched := ts } := by
  rw [State.takeTurn, h, List.tail_cons]

/-- With no turn laid down a latched command goes first (log 2). -/
theorem State.nextTurn_of_pend {s : State} {w : Word} (h : s.sched = []) (hp : s.pend = some w) :
    s.nextTurn = .engine := by
  simp [State.nextTurn, h, hp]

theorem State.nextTurn_of_sched_cons {s : State} {turn : Turn} {ts : List Turn}
    (h : s.sched = turn :: ts) : s.nextTurn = turn := by
  simp [State.nextTurn, h]

/-- With no turn laid down the step is the latched command's on the state itself. -/
theorem step_of_pend {s : State} {w : Word} {i : Instr} (h : s.sched = []) (hp : s.pend = some w)
    (hd : decode w = .ok i) : step s = exec i s := by
  rw [step_of_engine_command (State.nextTurn_of_pend h hp) hp hd, State.takeTurn_of_sched_nil h]

/-- A word of 32 bits is placed as it is (log 3). -/
theorem State.withFetchWord_toNat (s : State) (w : Word) :
    s.withFetchWord 32 w.toNat = s.place w := by
  rw [State.withFetchWord, Nat.mod_eq_of_lt w.isLt, BitVec.ofNat_toNat, BitVec.setWidth_eq]

/-- Settles O7: the engine's turn, laid down or by default, is the latched command's step. -/
theorem stepRunsTheLatchedCommand : Obligations.StepRunsTheLatchedCommand := by
  refine ⟨fun s w i hp hd => ⟨fun hnil => step_of_pend hnil hp hd, fun ts hcons => ?_⟩,
    fun s w i hd => ?_⟩
  · rw [step_of_engine_command (State.nextTurn_of_sched_cons hcons) hp hd,
      State.takeTurn_of_sched_cons hcons]
  · rw [State.withFetchWord_toNat]
    exact ⟨step_of_pend (s := s.place w) rfl rfl hd, rfl⟩

/-- Settles O34: a latched word decodes and was latched with DONE and ERR at 0 (45 R320), so the two
ends of a command leave exactly one of them set. -/
theorem engineStepSetsDoneOrErr : Obligations.EngineStepSetsDoneOrErr := by
  intro s w hs hturn hp
  obtain ⟨hlegal, -, hdone, herr, -, -⟩ := hs.pending w hp
  obtain ⟨i, hi⟩ := exists_decode_of_legal hlegal
  obtain ⟨t, ht⟩ := exec_isNext i s.takeTurn
  refine ⟨t, (step_of_engine_command hturn hp hi).trans ht, ?_⟩
  rcases exec_error_or_done ht with ⟨e, -, rfl⟩ | ⟨herr', -, -, hdone', hbusy, hstage, hpend⟩
  · exact ⟨hdone, rfl, rfl, rfl⟩
  · have hclear : t.err = false := herr'.trans herr
    exact ⟨by rw [hdone', hclear]; rfl, hbusy, hstage, hpend⟩

/-! ### The three ends of a CMD write -/

theorem State.writeCmd_dropped {s : State} (h : s.busy = true ∨ s.err = true) (v : Word) :
    s.writeCmd v = { s with cmdRej := true } := by
  rw [State.writeCmd, if_pos (by simpa using h)]

theorem State.writeCmd_accepted {s : State} {v : Word} (hv : legal v = true)
    (hbusy : s.busy = false) (herr : s.err = false) : s.writeCmd v = s.accept v := by
  rw [State.writeCmd, if_neg (by simp [hbusy, herr]), if_pos hv]

/-- CMD is the host's at any time (20 R111). -/
theorem State.access_write_cmd (s : State) (v : Word) :
    s.access ⟨true, .word, 0x00000010, v⟩ = .next (s.writeCmd v) :=
  State.access_write_csr (off := 0x010) .cmd (by decide) (.inr rfl) v

/-- The acceptance of a word, its fields written out (45 R320). -/
theorem State.accept_eq (s : State) (v : Word) : s.accept v = { s with
    cmd := v
    done := false
    reportValid := if v.extractLsb' 0 8 = 0x00 then s.reportValid else false
    busy := true
    stage := if v.extractLsb' 0 8 = 0x05 then .check else .single
    pend := some v } := by
  rw [State.accept, ite_not]
  rfl

/-- Settles O38: the three ends of a CMD write through the port. -/
theorem commandWriteIsDroppedRejectedOrAccepted :
    Obligations.CommandWriteIsDroppedRejectedOrAccepted := by
  intro s v
  rw [State.access_write_cmd]
  exact ⟨fun h => by rw [State.writeCmd_dropped h],
    fun hbusy herr hv => by rw [State.writeCmd_illegal hv hbusy herr, State.raise],
    fun hbusy herr hv => by rw [State.writeCmd_accepted hv hbusy herr, State.accept_eq]⟩

/-! ### NOP and CLEAR -/

/-- Completion, its fields written out (45 R321). -/
theorem State.complete_eq (s : State) : s.complete = { s with
    done := true, busy := false, stage := .idle, pend := none, draws := s.draws + 1 } := rfl

/-- Settles O15: NOP is completion alone, and its acceptance keeps REPORT_VALID. -/
theorem nopOnlyCompletes : Obligations.NopOnlyCompletes := by
  have hdecode : decode 0x00000000 = .ok .nop := decode_encode .nop
  refine ⟨hdecode, fun s => ⟨s.draws + 1, by rw [exec_nop, State.complete_eq]⟩,
    fun s hbusy herr => ⟨s.draws + 1, ?_⟩⟩
  have hlegal : legal 0x00000000 = true := legal_iff_exists_decode.2 ⟨.nop, hdecode⟩
  rw [State.writeCmd_accepted hlegal hbusy herr, exec_nop, State.complete_eq, ← hbusy]
  rfl

/-- Settles O23: CLEAR empties every buffer's registers and completes. -/
theorem clearEmptiesStreamsAndResults : Obligations.ClearEmptiesStreamsAndResults := by
  refine ⟨decode_encode .clear, fun s => ⟨s.clearAll.complete, exec_clear s, rfl, fun b => ?_⟩⟩
  simp only [State.complete_len, State.complete_vstat, State.complete_vn, State.complete_vnwin,
    State.complete_vnfail, State.clearAll_len, State.clearAll_vstat, State.clearAll_vn,
    State.clearAll_vnwin, State.clearAll_vnfail, PerBuf.get_all, and_self]

end Sys2Proof.Machine
end

section
/-!
PIPELINE (45_pipeline_control.md section 2): its two errors and its report with their frames (O24),
and what a failed one leaves (O25). The four streams are named once, as a function of the buffer, so
that lengths, padding and written bytes are each said for any buffer.
-/

namespace Sys2Proof.Machine

/-! ### The four streams -/

/-- The stream a PIPELINE over images of `n` pixels leaves in each buffer (45 R323). -/
def State.pipelineStream (s : State) (n : Nat) : BufId → BitString
  | .rawA => s.lsb .imageA n
  | .rawB => s.lsb .imageB n
  | .xored => xorBits (s.lsb .imageA n) (s.lsb .imageB n)
  | .extracted => vonNeumann (xorBits (s.lsb .imageA n) (s.lsb .imageB n))

/-- The four stores, buffer by buffer. -/
theorem State.fourStreams_eq (s : State) (n : Nat) :
    s.fourStreams n = (((s.storeStream .rawA (s.pipelineStream n .rawA)).storeStream .rawB
      (s.pipelineStream n .rawB)).storeStream .xored (s.pipelineStream n .xored)).storeStream
        .extracted (s.pipelineStream n .extracted) := rfl

theorem State.length_pipelineStream_le (s : State) (n : Nat) (b : BufId) :
    (s.pipelineStream n b).length ≤ n := by
  have hdebiased := length_vonNeumann_le (xorBits (s.lsb .imageA n) (s.lsb .imageB n))
  have hxored : (xorBits (s.lsb .imageA n) (s.lsb .imageB n)).length ≤ n := by simp
  cases b with
  | rawA => exact (s.length_lsb .imageA n).le
  | rawB => exact (s.length_lsb .imageB n).le
  | xored => exact hxored
  | extracted => exact hdebiased.trans (by omega)

theorem State.bits_fourStreams_eq {s : State} (hm : s.mem.wf) {n : Nat} (hn : n ≤ 2 ^ 24)
    (b : BufId) : (s.fourStreams n).bits b = s.pipelineStream n b := by
  obtain ⟨hrawA, hrawB, hxored, hextracted⟩ := State.bits_fourStreams hm hn
  cases b with
  | rawA => exact hrawA
  | rawB => exact hrawB
  | xored => exact hxored
  | extracted => exact hextracted

theorem State.toNat_len_fourStreams {s : State} (hm : s.mem.wf) {n : Nat} (hn : n ≤ 2 ^ 24)
    (b : BufId) : ((s.fourStreams n).len.get b).toNat = (s.pipelineStream n b).length := by
  rw [← State.length_bits, State.bits_fourStreams_eq hm hn]

/-! ### Padding and written bytes -/

/-- A stored stream leaves every bit of the other buffers, padding included (10 R51). -/
theorem State.bufBit_storeStream_ne (s : State) {b d : BufId} (hbd : b ≠ d) {bs : BitString}
    (hbs : bs.length ≤ 2 ^ 24) {i : Nat} (hi : i < 2 ^ 24) :
    (s.storeStream d bs).bufBit b i = s.bufBit b i := by
  refine State.bufBit_congr (s.readByte_storeStream_ne d bs ?_)
  obtain ⟨hlo, hhi⟩ := streamByteAddr_window b hi
  obtain ⟨-, -, hspread⟩ := bufBase_spread b d
  rcases hspread with h | h | h
  · exact absurd h hbd
  · omega
  · omega

/-- The four validations leave every bit of the buffers (44 R285). -/
theorem State.bufBit_stageValidate (s : State) (b : BufId) {i : Nat} (hi : i < 2 ^ 24) :
    s.stageValidate.bufBit b i = s.bufBit b i := by
  refine State.bufBit_congr (s.readByte_stageValidate_ne fun c => .inl ?_)
  obtain ⟨-, hhi⟩ := streamByteAddr_window b hi
  have hb := bufBase_spread b b
  have hc := wresBase_spread c c
  omega

/-- The padding bits of the last words of the four streams are 0 (10 R51, 45 R323). -/
theorem State.bufBit_fourStreams_padding {s : State} (hm : s.mem.wf) {n : Nat} (hn : n ≤ 2 ^ 24)
    (b : BufId) {i : Nat} (hi : (s.pipelineStream n b).length ≤ i)
    (hword : i / 32 < ((s.pipelineStream n b).length + 31) / 32) :
    (s.fourStreams n).bufBit b i = false := by
  have hlen (c : BufId) : (s.pipelineStream n c).length ≤ 2 ^ 24 :=
    (s.length_pipelineStream_le n c).trans hn
  have hi24 : i < 2 ^ 24 := by have := hlen b; omega
  have m1 := State.wf_storeStream hm .rawA (s.pipelineStream n .rawA)
  have m2 := State.wf_storeStream m1 .rawB (s.pipelineStream n .rawB)
  have m3 := State.wf_storeStream m2 .xored (s.pipelineStream n .xored)
  rw [State.fourStreams_eq]
  cases b with
  | rawA =>
    rw [State.bufBit_storeStream_ne _ (by decide) (hlen .extracted) hi24,
      State.bufBit_storeStream_ne _ (by decide) (hlen .xored) hi24,
      State.bufBit_storeStream_ne _ (by decide) (hlen .rawB) hi24,
      State.bufBit_storeStream_padding hm _ hi hword]
  | rawB =>
    rw [State.bufBit_storeStream_ne _ (by decide) (hlen .extracted) hi24,
      State.bufBit_storeStream_ne _ (by decide) (hlen .xored) hi24,
      State.bufBit_storeStream_padding m1 _ hi hword]
  | xored =>
    rw [State.bufBit_storeStream_ne _ (by decide) (hlen .extracted) hi24,
      State.bufBit_storeStream_padding m2 _ hi hword]
  | extracted => exact State.bufBit_storeStream_padding m3 _ hi hword

/-- The four stores write the words of the four streams and no other byte (45 R323). -/
theorem State.readByte_fourStreams_ne (s : State) (n : Nat) {a : Nat}
    (h : ∀ b, a < bufBase b ∨ bufBase b + 4 * (((s.pipelineStream n b).length + 31) / 32) ≤ a) :
    (s.fourStreams n).readByte a = s.readByte a := by
  rw [State.fourStreams_eq, State.readByte_storeStream_ne _ _ _ (h .extracted),
    State.readByte_storeStream_ne _ _ _ (h .xored), State.readByte_storeStream_ne _ _ _ (h .rawB),
    State.readByte_storeStream_ne _ _ _ (h .rawA)]

/-! ### PIPELINE's report, buffer by buffer -/

section Report

variable {s : State} {n : Nat} (hm : s.mem.wf) (hn : n ≤ 2 ^ 24)
include hm hn

theorem State.bits_runStages (b : BufId) : (s.runStages n).bits b = s.pipelineStream n b := by
  rw [State.runStages_eq hm hn, State.publish_bits,
    State.bits_stageValidate fun c => (State.len_fourStreams hm hn c).trans hn,
    State.bits_fourStreams_eq hm hn]

theorem State.toNat_len_runStages (b : BufId) :
    ((s.runStages n).len.get b).toNat = (s.pipelineStream n b).length := by
  rw [← State.length_bits, State.bits_runStages hm hn]

/-- Every result is valid and describes its buffer (45 R323, R326). -/
theorem State.described_runStages (b : BufId) :
    ((s.runStages n).vstat.get b).valid = true ∧ (s.runStages n).Described b := by
  have hvalid : ((s.runStages n).vstat.get b).valid = true := by
    rw [State.runStages_eq hm hn, State.publish_vstat]
    exact State.valid_stageValidate _ b
  exact ⟨hvalid, State.resultsDescribed_runStages hm hn b hvalid⟩

theorem State.bufBit_runStages_padding (b : BufId) {i : Nat}
    (hi : ((s.runStages n).len.get b).toNat ≤ i)
    (hword : i / 32 < (((s.runStages n).len.get b).toNat + 31) / 32) :
    (s.runStages n).bufBit b i = false := by
  rw [State.toNat_len_runStages hm hn] at hi hword
  have hlen := s.length_pipelineStream_le n b
  rw [State.runStages_eq hm hn, State.publish_bufBit, State.bufBit_stageValidate _ _ (by omega),
    State.bufBit_fourStreams_padding hm hn b hi hword]

/-- PIPELINE writes the words of the four streams, their window records, and no other byte. -/
theorem State.readByte_runStages_ne {a : Nat}
    (h : ∀ b, (a < bufBase b ∨
        bufBase b + 4 * ((((s.runStages n).len.get b).toNat + 31) / 32) ≤ a) ∧
      (a < wresBase b ∨
        wresBase b + 128 * (((s.runStages n).len.get b).toNat / windowBits) ≤ a)) :
    (s.runStages n).readByte a = s.readByte a := by
  simp only [State.toNat_len_runStages hm hn] at h
  rw [State.runStages_eq hm hn, State.publish_readByte, State.readByte_stageValidate_ne,
    State.readByte_fourStreams_ne _ _ fun b => (h b).1]
  intro b
  rw [State.toNat_len_fourStreams hm hn]
  exact (h b).2

end Report

/-! ### The three outcomes of PIPELINE -/

theorem exec_pipeline_mismatch {s : State} (h : s.dimA ≠ s.dimB) :
    exec .pipeline s = .next (s.abort .mismatchedImageDimensions .pipeline) := by
  rw [exec_pipeline, if_pos h]

theorem exec_pipeline_tooLarge {s : State} (h : s.dimA = s.dimB)
    (hn : s.cfg.maxpix < pixelCount s.dimA) :
    exec .pipeline s = .next (s.abort .capacityExceeded .pipeline) := by
  rw [exec_pipeline, if_neg (not_not_intro h), if_pos hn]

theorem exec_pipeline_fits {s : State} (h : s.dimA = s.dimB)
    (hn : pixelCount s.dimA ≤ s.cfg.maxpix) :
    exec .pipeline s = .next (s.runStages (pixelCount s.dimA)).complete := by
  rw [exec_pipeline, if_neg (not_not_intro h), if_neg hn.not_gt]

/-- The LSB stream of an image, its bits read from the pixel words (41 R210). -/
theorem State.lsb_eq_readWord (s : State) (m : Image) (n : Nat) :
    s.lsb m n = (List.range n).map
      (fun k => (s.readWord (pixelAddr m k)).getLsbD (8 * channelCode s.cfg.channel)) :=
  List.map_congr_left fun k _ => s.pixelBit_eq_readWord m k

/-- Completion after a change of memory and of the buffers' registers that leaves REPORT_VALID = 1
(45 R321, R323). -/
theorem State.complete_frame {s u : State} (h : u = { s with
      mem := u.mem, len := u.len, vstat := u.vstat, vn := u.vn, vnwin := u.vnwin
      vnfail := u.vnfail
      reportValid := true }) :
    u.complete = { s with
      mem := u.complete.mem, len := u.complete.len, vstat := u.complete.vstat
      vn := u.complete.vn, vnwin := u.complete.vnwin, vnfail := u.complete.vnfail
      reportValid := true
      done := true, busy := false, stage := .idle, pend := none, draws := u.complete.draws } := by
  have hdraws : u.draws = s.draws := by rw [h]
  refine (congrArg State.complete h).trans ?_
  rw [State.complete_draws, hdraws]
  rfl

/-- Settles O24: an error is raised before any write, and otherwise the stages leave the four streams
of `pipelineStream`, validated. -/
theorem pipelineBuildsTheReport : Obligations.PipelineBuildsTheReport := by
  intro s hc hm n lsbs
  have hlsb (m : Image) : s.lsb m n = lsbs m := s.lsb_eq_readWord m n
  refine ⟨decode_encode .pipeline, fun hdims => ⟨s.draws + 1, ?_⟩,
    fun hdims hlarge => ⟨s.draws + 1, ?_⟩, fun hdims hfits => ?_⟩
  · rw [exec_pipeline_mismatch hdims]
    rfl
  · rw [exec_pipeline_tooLarge hdims hlarge]
    rfl
  · have hn : n ≤ 2 ^ 24 := hfits.trans (Config.wf_bounds hc).2.1
    have hbits := State.bits_runStages hm hn
    refine ⟨(s.runStages n).complete, exec_pipeline_fits hdims hfits, ?_, ?_, ?_, ?_, ?_,
      fun b => ?_, fun b i hi hword => ?_, fun x hx => ?_⟩
    · exact State.complete_frame (s.runStages_frame n)
    · rw [State.complete_bits, hbits, State.pipelineStream, hlsb]
    · rw [State.complete_bits, hbits, State.pipelineStream, hlsb]
    · rw [State.complete_bits, hbits, State.pipelineStream, hlsb, hlsb]
    · rw [State.complete_bits, hbits, State.pipelineStream, hlsb, hlsb]
    · obtain ⟨hvalid, hdescribed⟩ := State.described_runStages hm hn b
      rw [State.complete_vstat]
      exact ⟨hvalid, hdescribed.congr_results (State.complete_results _)⟩
    · rw [State.complete_len] at hi hword
      rw [State.complete_bufBit, State.bufBit_runStages_padding hm hn b hi hword]
    · simp only [State.complete_len] at hx
      rw [State.complete_readByte, State.readByte_runStages_ne hm hn hx]

/-- Settles O25: PIPELINE was latched with ERR, DONE and REPORT_VALID at 0, so an ERR of 1 is its
own, raised before any write. -/
theorem failedPipelineLeavesNoPartialReport : Obligations.FailedPipelineLeavesNoPartialReport := by
  intro s t hs hturn hp h herr
  have hd : decode 0x00000005 = .ok .pipeline := decode_encode .pipeline
  obtain ⟨-, -, hdone, hclear, -, hreport⟩ := hs.pending _ hp
  rw [step_of_engine_command hturn hp hd] at h
  rcases exec_error_or_done h with ⟨e, -, rfl⟩ | ⟨hkept, -⟩
  · exact ⟨hreport (by decide), rfl, rfl, rfl, rfl, rfl, rfl, hdone⟩
  · exact absurd (herr.symm.trans (hkept.trans hclear)) (by decide)

end Sys2Proof.Machine
end

section
/-!
The report (45 R326): kept complete while REPORT_VALID = 1 by every step (O11). A host's write that
reaches a stream, a LEN or a VALID bit clears REPORT_VALID with it. The engine needs the invariant:
CLEAR, for one, empties the streams and leaves REPORT_VALID alone, but every command other than NOP
runs with REPORT_VALID = 0 since its acceptance, and of these only PIPELINE sets it again.
-/

namespace Sys2Proof.Machine

/-! ### States that agree where the report looks -/

theorem State.ReportSound.of_invalid {s : State} (h : s.reportValid = false) : s.ReportSound :=
  fun hr => absurd hr (by simp [h])

/-- The report depends on the LENs, the streams and the VALID bits. -/
theorem State.ReportSound.congr {s t : State} (h : s.ReportSound)
    (hreport : t.reportValid = true → s.reportValid = true) (hlen : t.len = s.len)
    (hbits : ∀ b, t.bits b = s.bits b)
    (hvalid : ∀ b, (s.vstat.get b).valid = true → (t.vstat.get b).valid = true) :
    t.ReportSound := fun hr => by
  obtain ⟨hlengths, hxored, hextracted, hall⟩ := h (hreport hr)
  refine ⟨by rw [hlen]; exact hlengths, ?_, ?_, fun b => hvalid b (hall b)⟩
  · rw [hbits, hbits, hbits]; exact hxored
  · rw [hbits, hbits]; exact hextracted

/-- Two states with the same memory and LEN hold the same streams. -/
theorem State.bits_congr_results {s t : State} (he : t.results = s.results) (b : BufId) :
    t.bits b = s.bits b := by
  simp only [State.results, Prod.mk.injEq] at he
  obtain ⟨hmem, hdraw, hlen, -⟩ := he
  exact State.bits_congr (by rw [hlen]) fun i _ => by rw [State.bufBit, State.bufBit, hmem, hdraw]

theorem State.ReportSound.congr_results {s t : State} (h : s.ReportSound)
    (he : t.results = s.results) (hreport : t.reportValid = true → s.reportValid = true) :
    t.ReportSound := by
  have hlen : t.len = s.len := congrArg (fun r => r.2.2.1) he
  have hvstat : t.vstat = s.vstat := congrArg (fun r => r.2.2.2.1) he
  exact h.congr hreport hlen (State.bits_congr_results he) fun b hb => hvstat ▸ hb

/-! ### The engine -/

/-- The report PIPELINE leaves is complete (45 R323, R326). -/
theorem State.reportSound_runStages {s : State} (hm : s.mem.wf) {n : Nat} (hn : n ≤ 2 ^ 24) :
    (s.runStages n).ReportSound := fun _ => by
  have hbits := State.bits_runStages hm hn
  refine ⟨?_, ?_, ?_, fun b => (State.described_runStages hm hn b).1⟩
  · rw [← State.length_bits_eq_iff, hbits, hbits, State.pipelineStream, State.pipelineStream,
      State.length_lsb, State.length_lsb]
  · rw [hbits, hbits, hbits]
    rfl
  · rw [hbits, hbits]
    rfl

/-- What a command does to REPORT_VALID: nothing, or it clears it, or it is a PIPELINE that completes
(10 R54, 45 R323). -/
theorem EngineStep.reportValid_cases {i : Instr} {s t : State} (h : EngineStep i s t) :
    t.reportValid = s.reportValid ∨ t.reportValid = false ∨
      ∃ n, n ≤ s.cfg.maxpix ∧ t = (s.runStages n).complete := by
  cases h with
  | aborted e => exact .inl rfl
  | nothing => exact .inl rfl
  | stored d bs hbs => exact .inr (.inl rfl)
  | validated a => exact .inl (by rw [State.complete_reportValid, State.validateBuffer_reportValid])
  | piped n hn => exact .inr (.inr ⟨n, hn, rfl⟩)
  | cleared => exact .inl rfl

/-- Every command but NOP runs with REPORT_VALID = 0 (45 R320). -/
theorem State.Inv.reportValid_of_pend {s : State} (h : s.Inv) {w : Word} {i : Instr}
    (hp : s.pend = some w) (hd : decode w = .ok i) (hi : i ≠ .nop) : s.reportValid = false := by
  obtain ⟨-, -, -, -, -, hreport⟩ := h.pending w hp
  refine hreport ?_
  rw [opField_of_decode hd]
  cases i with
  | nop => exact absurd rfl hi
  | _ => rw [Instr.opcode]; decide

/-- The engine's turn: NOP leaves the report, any other command starts without one. -/
theorem State.ReportSound.exec {s t : State} {w : Word} {i : Instr} (h : s.ReportSound)
    (hs : s.Inv) (hp : s.pend = some w) (hd : decode w = .ok i)
    (hexec : exec i s = .next t) : t.ReportSound := by
  by_cases hi : i = .nop
  · subst hi
    rw [exec_nop] at hexec
    cases hexec
    exact h.congr_results s.complete_results id
  · have hinvalid := hs.reportValid_of_pend hp hd hi
    rcases (engineStep_of_exec hs.lengths hexec).reportValid_cases with hkept | hcleared |
      ⟨n, hn, rfl⟩
    · exact .of_invalid (hkept.trans hinvalid)
    · exact .of_invalid hcleared
    · have hn24 := hn.trans (Config.wf_bounds hs.build).2.1
      exact (State.reportSound_runStages hs.memory hn24).congr_results (State.complete_results _) id

/-! ### The host's writes -/

theorem State.ReportSound.writeCmd {s : State} (h : s.ReportSound) (v : Word) :
    (s.writeCmd v).ReportSound := by
  unfold State.writeCmd
  split
  · exact h.congr_results rfl id
  · split
    · refine h.congr_results rfl fun hr => ?_
      rw [State.accept_reportValid] at hr
      split at hr
      · cases hr
      · exact hr
    · exact h.congr_results rfl id

theorem State.ReportSound.writeStatus {s : State} (h : s.ReportSound) (v : Word) :
    (s.writeStatus v).ReportSound := by
  rw [State.writeStatus_eq]
  exact h.congr_results rfl id

/-- An append clears REPORT_VALID, and the other ends of a CHAR_IN write reach no stream (10 R54 (c),
40 R180). -/
theorem State.ReportSound.writeCharIn {s : State} (h : s.ReportSound) (v : Word) :
    (writeCharIn s v).ReportSound := by
  unfold Machine.writeCharIn
  dsimp only
  split
  · exact h.congr_results rfl id
  · split
    · exact h.congr_results rfl id
    · split
      · exact h.congr_results rfl id
      · exact .of_invalid rfl

theorem State.ReportSound.writeLen {s : State} (h : s.ReportSound) (b : BufId) (v : Word) :
    (s.writeLen b v).ReportSound := by
  unfold State.writeLen
  split
  · exact .of_invalid rfl
  · exact h.congr_results rfl id

/-- A pixel word lies below every buffer: the streams stay, and so does the report (10 R54). -/
theorem State.ReportSound.writePixel {s : State} (h : s.ReportSound)
    (hn : ∀ b, (s.len.get b).toNat ≤ 2 ^ 24) (m : Image) {k : Nat} (hk : k < 2 ^ 24) (v : Word) :
    State.ReportSound { s with mem := s.mem.writeWord (pixelAddr m k) v } := by
  refine h.congr id rfl (fun b => ?_) fun _ => id
  refine State.bits_congr_window rfl (hn b) fun a ha _ =>
    Memory.readByte_writeWord_ne _ _ _ (.inr ?_)
  have hp := pixBase_spread m
  have hb := bufBase_spread b b
  unfold pixelAddr
  omega

theorem State.ReportSound.writeLoc {s : State} (h : s.ReportSound) (hs : s.Inv) {l : Loc}
    (hl : l.inRange s.cfg) (v : Word) : (s.writeLoc l v).ReportSound := by
  rcases s.writeLoc_cases l v with ⟨-, -, e⟩ | ⟨e, -⟩ | ⟨-, e⟩ | ⟨-, e⟩ | ⟨-, e⟩ |
    ⟨-, ⟨-, e⟩ | ⟨-, e⟩ | ⟨-, e⟩ | ⟨-, e⟩ | ⟨-, e⟩ | ⟨-, e⟩ | ⟨b, -, e⟩ | ⟨m, k, rfl, e⟩ |
      ⟨b, j, -, e⟩⟩ <;> rw [e]
  · exact h.congr_results rfl id
  · exact h
  · exact h.writeCmd v
  · exact h.writeStatus v
  · exact h.congr_results rfl id
  · exact h.congr_results rfl id
  · exact h.congr_results rfl id
  · exact h.congr_results rfl id
  · exact h.writeCharIn v
  · exact h.congr_results rfl id
  · exact h.congr_results rfl id
  · exact h.writeLen b v
  · exact h.writePixel hs.len_le m (lt_of_lt_of_le hl (Config.wf_bounds hs.build).2.1) v
  · exact .of_invalid rfl

/-! ### The host's reads and the step -/

theorem State.ReportSound.readLoc {s : State} (h : s.ReportSound) (l : Loc) :
    (s.readLoc l).2.ReportSound := by
  rcases s.readLoc_state l with e | e | ⟨-, e⟩ | ⟨-, e⟩ <;> rw [e] <;> exact h.congr_results rfl id

theorem State.ReportSound.afterAccess {s : State} (h : s.ReportSound) (hs : s.Inv) (a : Access)
    {l : Loc} (hl : l.inRange s.cfg) : (s.afterAccess a l).ReportSound := by
  unfold State.afterAccess
  split
  · exact h.writeLoc hs hl a.wdata
  · exact (h.readLoc l).congr_results rfl id

/-- Settles O11: by cases on what a step can do; each operation keeps the report. -/
theorem everyStepKeepsTheReportSound : Obligations.EveryStepKeepsTheReportSound := by
  intro s t hs hr h
  have hturn : s.takeTurn.ReportSound := hr.congr_results rfl id
  rcases step_cases h with ⟨-, rfl⟩ | ⟨-, -, rfl⟩ | ⟨-, w, i, hp, hd, hexec⟩ | ⟨-, -, rfl⟩ |
    ⟨-, a, rest, l, -, hl, rfl⟩ | ⟨-, addr, mask, val, rest, l, -, -, rfl⟩
  · exact .of_invalid rfl
  · exact hturn
  · exact hturn.exec hs.takeTurn hp hd hexec
  · exact hturn
  · have hhost : State.ReportSound { s.takeTurn with host := rest } := hturn.congr_results rfl id
    exact hhost.afterAccess (hs.takeTurn.withHost rest) a (Loc.inRange_of_target hs.build hl)
  · exact (hturn.readLoc l).congr_results rfl id

end Sys2Proof.Machine
end

section
/-!
The message of an insufficient stream (O60; 45 R330): the digit loop builds a decimal numeral from
its last digit to its first.
-/

namespace Sys2Proof.Machine

/-- The ASCII digit of a number below 10. -/
def decimalDigit (d : Nat) : Byte := BitVec.ofNat 8 (0x30 + d)

/-- The number a string of ASCII digits stands for, first digit most significant. -/
def decimalValue (l : List Byte) : Nat := l.foldl (fun k ch => 10 * k + (ch.toNat - 0x30)) 0

/-- The decimal numeral of `n` without leading zeros, "0" for 0 (45 R330). -/
structure IsDecimal (n : Nat) (l : List Byte) : Prop where
  digits : ∀ ch ∈ l, 0x30 ≤ ch.toNat ∧ ch.toNat ≤ 0x39
  value : decimalValue l = n
  zero : n = 0 → l = [0x30]
  head : n ≠ 0 → l.head? ≠ some 0x30

theorem toNat_decimalDigit {d : Nat} (hd : d < 10) : (decimalDigit d).toNat = 0x30 + d := by
  rw [decimalDigit, BitVec.toNat_ofNat]
  omega

theorem decimalDigit_eq_zero_iff {d : Nat} (hd : d < 10) : decimalDigit d = 0x30 ↔ d = 0 := by
  have htoNat := toNat_decimalDigit hd
  refine ⟨fun h => ?_, fun h => by rw [h]; rfl⟩
  rw [h] at htoNat
  have hzero : (0x30 : Byte).toNat = 0x30 := rfl
  omega

theorem decimalValue_snoc (l : List Byte) {d : Nat} (hd : d < 10) :
    decimalValue (l ++ [decimalDigit d]) = 10 * decimalValue l + d := by
  rw [decimalValue, List.foldl_concat, toNat_decimalDigit hd, Nat.add_sub_cancel_left]
  rfl

/-- A number below 10 is its digit. -/
theorem IsDecimal.digit {n : Nat} (hn : n < 10) : IsDecimal n [decimalDigit n] where
  digits ch hch := by
    rw [List.mem_singleton.1 hch, toNat_decimalDigit hn]
    omega
  value := by simpa [decimalValue] using decimalValue_snoc [] hn
  zero h := by rw [(decimalDigit_eq_zero_iff hn).2 h]
  head h hhead := h ((decimalDigit_eq_zero_iff hn).1 (Option.some.inj hhead))

/-- A longer numeral is that of n div 10 and the digit n mod 10. -/
theorem IsDecimal.snoc {n : Nat} {l : List Byte} (hn : n / 10 ≠ 0) (h : IsDecimal (n / 10) l) :
    IsDecimal n (l ++ [decimalDigit (n % 10)]) := by
  have hmod : n % 10 < 10 := Nat.mod_lt n (by decide)
  have hne : l ≠ [] := fun hnil => hn (by rw [← h.value, hnil]; rfl)
  refine ⟨fun ch hch => ?_, ?_, fun h0 => absurd (by rw [h0]) hn, fun _ => ?_⟩
  · rcases List.mem_append.1 hch with hl | hlast
    · exact h.digits ch hl
    · rw [List.mem_singleton.1 hlast, toNat_decimalDigit hmod]
      omega
  · rw [decimalValue_snoc l hmod, h.value]
    omega
  · rw [List.head?_append_of_ne_nil l hne]
    exact h.head hn

/-- With fuel for every digit the loop puts the numeral before what it holds. -/
theorem decimalAux_eq_append {fuel n : Nat} (hfuel : n < fuel) (acc : List Byte) :
    ∃ l, decimalAux fuel n acc = l ++ acc ∧ IsDecimal n l := by
  induction fuel generalizing n acc with
  | zero => omega
  | succ fuel ih =>
    rw [decimalAux]
    split
    · next hq =>
      have hn : n < 10 := by omega
      exact ⟨[decimalDigit n], by rw [Nat.mod_eq_of_lt hn]; rfl, .digit hn⟩
    · next hq =>
      obtain ⟨l, hl, hdec⟩ := ih (n := n / 10) (by omega) (decimalDigit (n % 10) :: acc)
      exact ⟨l ++ [decimalDigit (n % 10)], by rw [List.append_assoc]; exact hl, hdec.snoc hq⟩

theorem isDecimal_decimal (n : Nat) : IsDecimal n (decimal n) := by
  obtain ⟨l, hl, hdec⟩ := decimalAux_eq_append (Nat.lt_succ_self n) []
  rw [decimal, hl, List.append_nil]
  exact hdec

/-- Settles O60: the message is the numeral and the fixed text. -/
theorem insufficientMessageIsDecimal : Obligations.InsufficientMessageIsDecimal := by
  intro n
  have h := isDecimal_decimal n
  exact ⟨decimal n, rfl, h.digits, h.value, h.zero, h.head⟩

end Sys2Proof.Machine
end

section
/-!
Errors, their flags and the interrupt output (60_exceptions.md): O12, O32, O33, O39. First how a
turn can stop, then which errors a command can raise, then what a step does to the three error
registers while ERR = 1, then the interrupt output.
-/

namespace Sys2Proof.Machine

/-! ### How a turn can stop -/

/-- A host's turn goes on, or ends in the BUSERR of its access (60 R384). -/
theorem State.hostTurn_next_or_busError (s : State) :
    (∃ t, s.hostTurn = .next t) ∨ ∃ cause addr, s.hostTurn = .fault (.busError cause addr) := by
  match hhost : s.host with
  | [] => exact .inl ⟨s, State.hostTurn_nil hhost⟩
  | .access a :: rest =>
    rw [State.hostTurn_access hhost]
    cases ht : target s.cfg a.width a.addr with
    | ok l => exact .inl ⟨_, State.access_ok ht⟩
    | error c => exact .inr ⟨c, a.addr, State.access_error ht⟩
  | .poll addr mask val :: rest =>
    rw [State.hostTurn_poll hhost]
    cases ht : target s.cfg .word addr with
    | ok l => exact .inl ⟨_, State.pollOnce_ok ht mask val rest⟩
    | error c => exact .inr ⟨c, addr, State.pollOnce_error ht mask val rest⟩

/-- A latched word is legal, so the engine never finds a word it cannot decode (45 R320; log 15). -/
theorem State.Inv.engine_isNext {s : State} (h : s.Inv) (hturn : s.nextTurn = .engine) :
    ∃ t, step s = .next t := by
  cases hp : s.pend with
  | none => exact ⟨_, step_of_engine_nothing hturn hp⟩
  | some w =>
    obtain ⟨hlegal, -⟩ := h.pending w hp
    obtain ⟨i, hi⟩ := exists_decode_of_legal hlegal
    rw [step_of_engine_command hturn hp hi]
    exact exec_isNext i s.takeTurn

/-- A step goes on, or it is the host's and ends in a BUSERR (60 R384). -/
theorem State.Inv.step_next_or_busError {s : State} (h : s.Inv) :
    (∃ t, step s = .next t) ∨
      (s.nextTurn = .host ∧ ∃ cause addr, step s = .fault (.busError cause addr)) := by
  cases hturn : s.nextTurn with
  | host =>
    rw [step_of_host hturn]
    exact s.takeTurn.hostTurn_next_or_busError.imp_right fun hfault => ⟨rfl, hfault⟩
  | engine => exact .inl (h.engine_isNext hturn)
  | reset => exact .inl ⟨_, step_of_reset hturn⟩

/-- Settles O12: by the turn's owner; only the host's turn has a stop. -/
theorem onlyHostBusErrorsStopTheBlock : Obligations.OnlyHostBusErrorsStopTheBlock := by
  intro s hs
  refine ⟨?_, fun f hf => ?_, hs.engine_isNext, fun hturn => ⟨_, step_of_reset hturn⟩⟩
  · rcases hs.step_next_or_busError with ⟨t, ht⟩ | ⟨-, cause, addr, hfault⟩
    · rw [ht]; trivial
    · rw [hfault]; trivial
  · rcases hs.step_next_or_busError with ⟨t, ht⟩ | ⟨hturn, -⟩
    · rw [ht] at hf; cases hf
    · exact hturn

/-! ### Raising an error -/

/-- The errors each command can raise (60 R372, R373, R375). -/
inductive CanRaise : Instr → ErrKind → Prop
  | xor (a b d : BufId) : CanRaise (.xor a b d) .lengthMismatch
  | dimensions : CanRaise .pipeline .mismatchedImageDimensions
  | pipelineCapacity : CanRaise .pipeline .capacityExceeded
  | extractCapacity (m : Image) (d : BufId) : CanRaise (.extract m d) .capacityExceeded

/-- A command raises one of its errors and does nothing else, or leaves ERR as it was (60 R377). -/
theorem exec_raises_or_keeps_err {i : Instr} {s t : State} (h : exec i s = .next t) :
    (∃ e, CanRaise i e ∧ t = s.abort e i) ∨ t.err = s.err := by
  rcases exec_cases h with ⟨-, rfl⟩ | ⟨m, d, rfl, ⟨-, rfl⟩ | ⟨-, rfl⟩⟩ |
    ⟨a, b, d, rfl, ⟨-, rfl⟩ | ⟨-, rfl⟩⟩ | ⟨a, d, rfl, rfl⟩ | ⟨a, rfl, rfl⟩ |
    ⟨rfl, ⟨-, rfl⟩ | ⟨-, -, rfl⟩ | ⟨-, -, rfl⟩⟩ | ⟨rfl, rfl⟩
  · exact .inr s.complete_err
  · exact .inl ⟨_, .extractCapacity m d, rfl⟩
  · exact .inr rfl
  · exact .inl ⟨_, .xor a b d, rfl⟩
  · exact .inr rfl
  · exact .inr rfl
  · exact .inr (by simp)
  · exact .inl ⟨_, .dimensions, rfl⟩
  · exact .inl ⟨_, .pipelineCapacity, rfl⟩
  · exact .inr (by rw [State.runStages_frame]; rfl)
  · exact .inr (by simp)

/-- A CMD write that sets ERR raises IllegalCommand: an accepted or dropped one leaves ERR
(45 R320). -/
theorem State.writeCmd_raises {s : State} {v : Word} (hclear : s.err = false)
    (hset : (s.writeCmd v).err = true) : s.writeCmd v = s.raise .illegalCommand v := by
  cases hbusy : s.busy with
  | true =>
    rw [State.writeCmd_dropped (.inl hbusy)] at hset
    exact absurd (hclear.symm.trans hset) Bool.false_ne_true
  | false =>
    cases hv : legal v with
    | true =>
      rw [State.writeCmd_accepted hv hbusy hclear, State.accept_err] at hset
      exact absurd (hclear.symm.trans hset) Bool.false_ne_true
    | false => exact State.writeCmd_illegal hv hbusy hclear

/-- A CHAR_IN write that sets ERR raises one of its two errors: an appending or dropped one leaves
ERR (40 R180). -/
theorem writeCharIn_raises {s : State} {v : Word} (hclear : s.err = false)
    (hset : (writeCharIn s v).err = true) :
    ∃ e, (e = .invalidBitCharacter ∨ e = .capacityExceeded) ∧ writeCharIn s v = s.raise e v := by
  cases hbusy : s.busy with
  | true =>
    rw [writeCharIn_dropped (.inl hbusy)] at hset
    exact absurd (hclear.symm.trans hset) Bool.false_ne_true
  | false =>
    by_cases hchar : v.extractLsb' 0 8 = 0x30 ∨ v.extractLsb' 0 8 = 0x31
    · by_cases hfull : (s.len.get s.cinBuf).toNat = s.cfg.maxpix
      · exact ⟨_, .inr rfl, writeCharIn_full hbusy hclear hchar hfull⟩
      · rw [writeCharIn_appends hbusy hclear hchar hfull] at hset
        exact absurd (hclear.symm.trans hset) Bool.false_ne_true
    · exact ⟨_, .inl rfl, writeCharIn_invalid hbusy hclear (not_or.1 hchar)⟩

/-- Settles O32: each of the three raise points ends in the one operation of error entry. -/
theorem raisedErrorsArePrecise : Obligations.RaisedErrorsArePrecise := by
  refine ⟨fun i s t h hclear hset => ?_, fun s v hclear hset => ?_, fun s v hclear hset => ?_⟩
  · rcases exec_raises_or_keeps_err h with ⟨e, he, rfl⟩ | hkept
    · refine ⟨e, ?_, rfl⟩
      cases he with
      | xor a b d => exact .inl ⟨rfl, a, b, d, rfl⟩
      | dimensions => exact .inr (.inl ⟨rfl, rfl⟩)
      | pipelineCapacity => exact .inr (.inr ⟨rfl, .inl rfl⟩)
      | extractCapacity m d => exact .inr (.inr ⟨rfl, .inr ⟨m, d, rfl⟩⟩)
    · exact absurd (hclear.symm.trans (hkept.symm.trans hset)) Bool.false_ne_true
  · exact State.writeCmd_raises hclear hset
  · exact writeCharIn_raises hclear hset

/-! ### The error registers while ERR = 1 -/

/-- The registers an error is reported in: ERR, ERRCODE and ERRINFO (60 R377). -/
def State.errorRegs (s : State) : Bool × ErrKind × Word := (s.err, s.errcode, s.errinfo)

theorem State.writeStatus_errorRegs (s : State) (v : Word) :
    (s.writeStatus v).err = false ∨ (s.writeStatus v).errorRegs = s.errorRegs := by
  rw [State.writeStatus_eq]
  cases hack : v.getLsbD 2 with
  | true => exact .inl (by simp)
  | false => exact .inr (by simp [State.errorRegs])

@[simp] theorem State.writeLen_errorRegs (s : State) (b : BufId) (v : Word) :
    (s.writeLen b v).errorRegs = s.errorRegs := by
  unfold State.writeLen
  split <;> rfl

@[simp] theorem State.readLoc_errorRegs (s : State) (l : Loc) :
    (s.readLoc l).2.errorRegs = s.errorRegs := by
  rcases s.readLoc_state l with h | h | ⟨-, h⟩ | ⟨-, h⟩ <;> rw [h] <;> rfl

/-- While ERR = 1 a write acknowledges the error or leaves its registers: CMD and CHAR_IN writes are
dropped (60 R380). -/
theorem State.writeLoc_errorRegs {s : State} (herr : s.err = true) (l : Loc) (v : Word) :
    (s.writeLoc l v).err = false ∨ (s.writeLoc l v).errorRegs = s.errorRegs := by
  rcases s.writeLoc_cases l v with ⟨-, -, e⟩ | ⟨e, -⟩ | ⟨-, e⟩ | ⟨-, e⟩ | ⟨-, e⟩ |
    ⟨-, ⟨-, e⟩ | ⟨-, e⟩ | ⟨-, e⟩ | ⟨-, e⟩ | ⟨-, e⟩ | ⟨-, e⟩ | ⟨b, -, e⟩ | ⟨m, k, -, e⟩ |
      ⟨b, j, -, e⟩⟩ <;> rw [e]
  · exact .inr rfl
  · exact .inr rfl
  · exact .inr (by rw [State.writeCmd_dropped (.inr herr)]; rfl)
  · exact s.writeStatus_errorRegs v
  · exact .inr rfl
  · exact .inr rfl
  · exact .inr rfl
  · exact .inr rfl
  · exact .inr (by rw [writeCharIn_dropped (.inr herr)]; rfl)
  · exact .inr rfl
  · exact .inr rfl
  · exact .inr (s.writeLen_errorRegs b v)
  · exact .inr rfl
  · exact .inr rfl

theorem State.afterAccess_errorRegs {s : State} (herr : s.err = true) (a : Access) (l : Loc) :
    (s.afterAccess a l).err = false ∨ (s.afterAccess a l).errorRegs = s.errorRegs := by
  unfold State.afterAccess
  split
  · exact State.writeLoc_errorRegs herr l a.wdata
  · exact .inr (s.readLoc_errorRegs l)

/-- While ERR = 1 a step clears the error or leaves its registers: no command is latched then
(60 R380). -/
theorem State.Inv.step_errorRegs {s t : State} (hs : s.Inv) (herr : s.err = true)
    (h : step s = .next t) : t.err = false ∨ t.errorRegs = s.errorRegs := by
  rcases step_cases h with ⟨-, rfl⟩ | ⟨-, -, rfl⟩ | ⟨-, w, i, hp, -, -⟩ | ⟨-, -, rfl⟩ |
    ⟨-, a, rest, l, -, -, rfl⟩ | ⟨-, addr, mask, val, rest, l, -, -, rfl⟩
  · exact .inl rfl
  · exact .inr rfl
  · obtain ⟨-, -, -, hclear, -, -⟩ := hs.pending w hp
    exact absurd (hclear.symm.trans herr) Bool.false_ne_true
  · exact .inr rfl
  · exact State.afterAccess_errorRegs (s := { s.takeTurn with host := rest }) herr a l
  · exact .inr (s.takeTurn.readLoc_errorRegs l)

/-- Settles O33: a step that leaves ERR set has left the three error registers. -/
theorem errorsAreNeverOverwritten : Obligations.ErrorsAreNeverOverwritten := by
  intro s t hs herr h herr'
  rcases hs.step_errorRegs herr h with hclear | hkept
  · exact absurd (hclear.symm.trans herr') Bool.false_ne_true
  · simp only [State.errorRegs, Prod.mk.injEq] at hkept
    exact hkept.2

/-! ### The interrupt output -/

theorem State.ierWord_flags (s : State) :
    s.ierWord.getLsbD 0 = s.doneIe ∧ s.ierWord.getLsbD 1 = s.errIe := by
  simp only [State.ierWord, BitVec.getLsbD_append]
  simp

/-- The interrupt output in the words the host reads (60 R385). -/
theorem State.irq_eq (s : State) : s.irq =
    ((s.statusWord.getLsbD 1 && s.ierWord.getLsbD 0) ||
      (s.statusWord.getLsbD 2 && s.ierWord.getLsbD 1)) := by
  obtain ⟨-, hdone, herr, -⟩ := s.statusWord_flags
  obtain ⟨hdoneIe, herrIe⟩ := s.ierWord_flags
  rw [hdone, herr, hdoneIe, herrIe, State.irq]

/-- With neither DONE nor ERR set there is no interrupt. -/
theorem State.irq_of_clear {s : State} (hdone : s.done = false) (herr : s.err = false) :
    s.irq = false := by
  rw [State.irq, hdone, herr, Bool.false_and, Bool.false_and, Bool.or_false]

/-- With both enables off there is no interrupt. -/
theorem State.irq_of_disabled {s : State} (hdone : s.doneIe = false) (herr : s.errIe = false) :
    s.irq = false := by
  rw [State.irq, hdone, herr, Bool.and_false, Bool.and_false, Bool.or_false]

/-- Settles O39: the formula on the read words, and the three accesses that leave DONE and ERR, or
both enables, at 0. -/
theorem interruptFollowsDoneAndErr : Obligations.InterruptFollowsDoneAndErr := by
  refine ⟨State.irq_eq, fun s => ?_, fun s => ?_, fun s v hbusy herr hv => ?_⟩
  · refine ⟨_, State.access_write_csr (off := 0x014) .status (by decide) (.inr rfl) 6, ?_⟩
    rw [State.writeCsr, State.writeStatus_eq]
    exact State.irq_of_clear (Bool.and_false s.done) (Bool.and_false s.err)
  · exact ⟨_, State.access_write_csr (off := 0x018) .ier (by decide) (.inr rfl) 0,
      State.irq_of_disabled rfl rfl⟩
  · refine ⟨_, State.access_write_cmd s v, ?_⟩
    rw [State.writeCmd_accepted hv hbusy herr]
    exact State.irq_of_clear rfl herr

end Sys2Proof.Machine
end

section
/-!
The memories after the reset input (10 R57, 70 R400): O6. A byte that nothing has written is the
drawn one, in any memory; the reset input leaves no byte written.
-/

namespace Sys2Proof.Machine

/-- The counterpart of `Memory.readByte_writeByte_same`: with no bit of the byte written, all of it
is the draw (10 R57). -/
theorem Memory.readByte_of_not_written {m : Memory} {a : Nat} (h : m.written a = false)
    (draw : Nat) : m.readByte draw a = Config.unwrittenByte draw a := by
  have hknown : cellGet m.known a = 0 := by simpa [Memory.written] using h
  apply BitVec.eq_of_getLsbD_eq
  intro k hk
  simp [Memory.getLsbD_readByte _ _ _ hk, Memory.bit, hknown]

/-- No byte keeps a value over the reset input (70 R400). -/
theorem State.applyReset_readByte (s : State) (a : Nat) :
    s.applyReset.readByte a = Config.unwrittenByte s.applyReset.memDraw a :=
  Memory.readByte_of_not_written (Memory.written_nil a) s.applyReset.memDraw

/-- The reset input takes the next draw and leaves the host's side (logs 6, 18). -/
@[simp] theorem State.applyReset_memDraw (s : State) :
    s.applyReset.memDraw = s.memDraw + 1 := rfl
@[simp] theorem State.applyReset_host (s : State) : s.applyReset.host = s.host := rfl
@[simp] theorem State.applyReset_sched (s : State) : s.applyReset.sched = s.sched := rfl
@[simp] theorem State.applyReset_obs (s : State) : s.applyReset.obs = s.obs := rfl

/-- Settles O6: nothing is written in the state after the reset input, so bytes and records alike
show the fresh draw; the turn itself takes only its own entry off the schedule. -/
theorem resetInputForgetsTheMemories : Obligations.ResetInputForgetsTheMemories := by
  intro s hturn
  refine ⟨s.takeTurn.applyReset, step_of_reset hturn, ?bytes, ?draw, ?records, ?host, ?sched, ?obs⟩
  case bytes => exact s.takeTurn.applyReset_readByte
  case draw => rw [State.applyReset_memDraw, State.takeTurn_memDraw]
  case records => exact fun b w i hi => s.takeTurn.recordWord_applyReset b hi
  case host => rw [State.applyReset_host, State.takeTurn_host]
  case sched => rw [State.applyReset_sched, State.takeTurn_sched]
  case obs => rw [State.applyReset_obs, State.takeTurn_obs]

end Sys2Proof.Machine
end
